-- ==== Sys2Proof/Word.lean ====
section
/-! DEFINITION. The word types of the CS4200 pipeline core (R7, R8). -/

namespace Sys2Proof

/-- A 32-bit word: register values, addresses, instruction words (R7 `XLEN`, `ILEN`, PC width). -/
abbrev Word := BitVec 32

/-- A byte of data memory (R55). -/
abbrev Byte := BitVec 8

/-- A general register's index, five bits (R20, R80). -/
abbrev RegIx := BitVec 5

end Sys2Proof
end

