-- ==== Sys2Proof/Machine/Flags.lean ====
section
/-! DEFINITION. Comparisons. The core has no status flags (R29): SLT, SLTU and the branches compare two words
directly (R10, R190). -/

namespace Sys2Proof.Machine

/-- `a <s b` (R10). -/
def lessSigned (a b : Word) : Bool := decide (a.toInt < b.toInt)

/-- `a <u b` (R10). -/
def lessUnsigned (a b : Word) : Bool := decide (a.toNat < b.toNat)

/-- A boolean used as a word: 1 for true, 0 for false (R10). -/
def boolWord (c : Bool) : Word := if c then 1 else 0

/-- The shift amount `b[4:0]` (R92, R133). -/
def shiftAmount (b : Word) : Nat := (b.extractLsb' 0 5).toNat

end Sys2Proof.Machine
end

