-- ==== Sys2Proof/Config.lean ====
section
/-! DEFINITION. What a launch fixes (R7, R283) and the values the spec leaves free. -/

namespace Sys2Proof

/-- The launch parameter `ISA_SUBSET` (R3): which rows of the opcode table are admitted. -/
inductive Subset where
  | core
  | full
deriving DecidableEq, Repr

/-- The launch parameters (R7, R283). They are arguments of the step in the spec; the machine's State
carries them unchanged (log 1). -/
structure Params where
  /-- `PROG`, the immutable program (R43); `N` is its length. -/
  prog : List Word
  /-- `ISA_SUBSET` (R3). -/
  subset : Subset
  /-- `CYCLE_CAP` (R233). -/
  cycleCap : Nat
  /-- `DMEM_SIZE`, the number of data memory bytes (R55). -/
  dmemSize : Nat
  /-- `INIT_REGS` (R42): entry i is register i's value at reset. -/
  initRegs : Vector Word 32
  /-- `INIT_DMEM` (R55): the bytes that are not zero at reset, in any order. -/
  initDmem : List Host.Cell
deriving DecidableEq, Repr

/-- The byte address just past the last program word, `4N` (R51). -/
def Params.progEnd (p : Params) : Nat := 4 * p.prog.length

/-- DESIGN CHOICE (logs 2, 3, 4): the launch parameters of `State.reset`. The spec leaves them open; the
values are the conventions of 95_test_vectors.md, with the empty program. -/
def Config.resetParams : Params where
  prog := []
  subset := .full
  cycleCap := 100
  dmemSize := 4096
  initRegs := Vector.replicate 32 0
  initDmem := []

/-- A free value (log 9): the spec says "unspecified" (R263). It has no body, so nothing can be proved of it.
`k` tells the unspecified items apart, `s` is all it may depend on. -/
opaque Config.unspecified {σ α : Type} [Inhabited α] (k : Nat) (s : σ) : α

end Sys2Proof
end

