-- ==== Sys2Proof/Syntax.lean ====
section
/-! DEFINITION. The instructions: one constructor per row of the opcode table (R3, R94). -/

namespace Sys2Proof

/-- An instruction with its operands. `imm` is the 32-bit immediate the decoder produces (R88 to R92):
the sign-extended 12-bit value, the zero-extended shift amount, the sign-extended 13-bit branch offset, or the
upper immediate with its low twelve bits zero. Which values a form admits is `Instr.wf` (R101, R104). -/
inductive Instr where
  -- register-register (R82, R130)
  | add (rd rs1 rs2 : RegIx)
  | sub (rd rs1 rs2 : RegIx)
  | sll (rd rs1 rs2 : RegIx)
  | slt (rd rs1 rs2 : RegIx)
  | sltu (rd rs1 rs2 : RegIx)
  | xor (rd rs1 rs2 : RegIx)
  | srl (rd rs1 rs2 : RegIx)
  | sra (rd rs1 rs2 : RegIx)
  | or (rd rs1 rs2 : RegIx)
  | and (rd rs1 rs2 : RegIx)
  -- register-immediate (R83, R84, R150)
  | addi (rd rs1 : RegIx) (imm : Word)
  | slti (rd rs1 : RegIx) (imm : Word)
  | sltiu (rd rs1 : RegIx) (imm : Word)
  | xori (rd rs1 : RegIx) (imm : Word)
  | ori (rd rs1 : RegIx) (imm : Word)
  | andi (rd rs1 : RegIx) (imm : Word)
  | slli (rd rs1 : RegIx) (imm : Word)
  | srli (rd rs1 : RegIx) (imm : Word)
  | srai (rd rs1 : RegIx) (imm : Word)
  -- loads (R83, R170)
  | lb (rd rs1 : RegIx) (imm : Word)
  | lh (rd rs1 : RegIx) (imm : Word)
  | lw (rd rs1 : RegIx) (imm : Word)
  | lbu (rd rs1 : RegIx) (imm : Word)
  | lhu (rd rs1 : RegIx) (imm : Word)
  -- stores (R85, R176)
  | sb (rs1 rs2 : RegIx) (imm : Word)
  | sh (rs1 rs2 : RegIx) (imm : Word)
  | sw (rs1 rs2 : RegIx) (imm : Word)
  -- branches (R86, R190)
  | beq (rs1 rs2 : RegIx) (imm : Word)
  | bne (rs1 rs2 : RegIx) (imm : Word)
  | blt (rs1 rs2 : RegIx) (imm : Word)
  | bge (rs1 rs2 : RegIx) (imm : Word)
  | bltu (rs1 rs2 : RegIx) (imm : Word)
  | bgeu (rs1 rs2 : RegIx) (imm : Word)
  -- upper-immediate (R87, R160)
  | lui (rd : RegIx) (imm : Word)
  | auipc (rd : RegIx) (imm : Word)
deriving DecidableEq, Repr

/-- The field `op` of a stage register (R32): the instruction without its operands. -/
inductive Op where
  | add | sub | sll | slt | sltu | xor | srl | sra | or | and
  | addi | slti | sltiu | xori | ori | andi | slli | srli | srai
  | lb | lh | lw | lbu | lhu
  | sb | sh | sw
  | beq | bne | blt | bge | bltu | bgeu
  | lui | auipc
deriving DecidableEq, Repr

/-- The field `fmt` of a stage register (R32, R93). -/
inductive Fmt where
  | r | i | l | s | b | u
deriving DecidableEq, Repr

/-- The layout an instruction's operands are read from: the six formats, with the shift-immediate form of the I
format apart (R82 to R87, the seven rows of R111). -/
inductive Layout where
  | r | i | iShift | l | s | b | u
deriving DecidableEq, Repr

end Sys2Proof
end

