-- ==== Sys2Proof/WellFormed.lean ====
section
/-! DEFINITION. Which instructions the encodings admit (R101, R104) and which launch parameters a run may have
(R7, R282). -/

namespace Sys2Proof

/-- A 12-bit signed immediate of an I, L or S form: in [-2048, 2047] (R88, R89, R104). -/
def fitsImm12 (imm : Word) : Bool := decide (-2048 ≤ imm.toInt ∧ imm.toInt ≤ 2047)

/-- A shift amount: in [0, 31] (R92, R104). -/
def fitsShamt (imm : Word) : Bool := decide (imm.toNat ≤ 31)

/-- A branch offset: even and in [-4096, 4094] (R90, R104). -/
def fitsOffset (imm : Word) : Bool :=
  decide (-4096 ≤ imm.toInt ∧ imm.toInt ≤ 4094 ∧ imm.toInt % 2 = 0)

/-- An upper immediate: `imm20 << 12`, its low twelve bits zero (R91, R104). -/
def fitsUpper (imm : Word) : Bool := decide (imm.toNat % 4096 = 0)

/-- The instruction's operands fit their fields. Register operands fit by their type. An instruction that is not
well formed is no instruction of this hardware (R101). -/
def Instr.wf : Instr → Bool
  | .add _ _ _ => true
  | .sub _ _ _ => true
  | .sll _ _ _ => true
  | .slt _ _ _ => true
  | .sltu _ _ _ => true
  | .xor _ _ _ => true
  | .srl _ _ _ => true
  | .sra _ _ _ => true
  | .or _ _ _ => true
  | .and _ _ _ => true
  | .addi _ _ imm => fitsImm12 imm
  | .slti _ _ imm => fitsImm12 imm
  | .sltiu _ _ imm => fitsImm12 imm
  | .xori _ _ imm => fitsImm12 imm
  | .ori _ _ imm => fitsImm12 imm
  | .andi _ _ imm => fitsImm12 imm
  | .slli _ _ imm => fitsShamt imm
  | .srli _ _ imm => fitsShamt imm
  | .srai _ _ imm => fitsShamt imm
  | .lb _ _ imm => fitsImm12 imm
  | .lh _ _ imm => fitsImm12 imm
  | .lw _ _ imm => fitsImm12 imm
  | .lbu _ _ imm => fitsImm12 imm
  | .lhu _ _ imm => fitsImm12 imm
  | .sb _ _ imm => fitsImm12 imm
  | .sh _ _ imm => fitsImm12 imm
  | .sw _ _ imm => fitsImm12 imm
  | .beq _ _ imm => fitsOffset imm
  | .bne _ _ imm => fitsOffset imm
  | .blt _ _ imm => fitsOffset imm
  | .bge _ _ imm => fitsOffset imm
  | .bltu _ _ imm => fitsOffset imm
  | .bgeu _ _ imm => fitsOffset imm
  | .lui _ imm => fitsUpper imm
  | .auipc _ imm => fitsUpper imm

/-- The launch parameters are in the domains the spec gives them (R7, R282; 92_eei_decisions.md, Open
parameters). -/
def Params.wf (p : Params) : Bool :=
  decide (p.prog.length < 2 ^ 30) && decide (1 ≤ p.cycleCap)
    && decide (p.dmemSize % 4 = 0 ∧ 4 ≤ p.dmemSize ∧ p.dmemSize ≤ 2 ^ 32)
    && decide (p.initRegs[0] = 0) && p.initDmem.all fun c => decide (c.1 < p.dmemSize)

end Sys2Proof
end

