-- ==== Sys2Proof/Decode.lean ====
section
/-! DEFINITION. The opcode table, the fields and immediates, the decoder of a word into an instruction, and its
inverse, the encoder. -/

namespace Sys2Proof

/-- A row of the opcode table (R94): a word `w` matches it when `w AND mask = bits`. -/
structure Row where
  op : Op
  bits : Word
  mask : Word
  subset : Subset
deriving DecidableEq, Repr

/-- The register-register rows (opcode 0x33) of R94. -/
def rowsR : List Row := [
  ⟨.add, 0x00000033, 0xFE00707F, .core⟩,
  ⟨.sub, 0x40000033, 0xFE00707F, .full⟩,
  ⟨.sll, 0x00001033, 0xFE00707F, .full⟩,
  ⟨.slt, 0x00002033, 0xFE00707F, .full⟩,
  ⟨.sltu, 0x00003033, 0xFE00707F, .full⟩,
  ⟨.xor, 0x00004033, 0xFE00707F, .full⟩,
  ⟨.srl, 0x00005033, 0xFE00707F, .full⟩,
  ⟨.sra, 0x40005033, 0xFE00707F, .full⟩,
  ⟨.or, 0x00006033, 0xFE00707F, .full⟩,
  ⟨.and, 0x00007033, 0xFE00707F, .full⟩]

/-- The register-immediate rows (opcode 0x13) of R94. -/
def rowsI : List Row := [
  ⟨.addi, 0x00000013, 0x0000707F, .core⟩,
  ⟨.slti, 0x00002013, 0x0000707F, .full⟩,
  ⟨.sltiu, 0x00003013, 0x0000707F, .full⟩,
  ⟨.xori, 0x00004013, 0x0000707F, .full⟩,
  ⟨.ori, 0x00006013, 0x0000707F, .full⟩,
  ⟨.andi, 0x00007013, 0x0000707F, .full⟩,
  ⟨.slli, 0x00001013, 0xFE00707F, .full⟩,
  ⟨.srli, 0x00005013, 0xFE00707F, .full⟩,
  ⟨.srai, 0x40005013, 0xFE00707F, .full⟩]

/-- The load rows (opcode 0x03) of R94. -/
def rowsL : List Row := [
  ⟨.lb, 0x00000003, 0x0000707F, .full⟩,
  ⟨.lh, 0x00001003, 0x0000707F, .full⟩,
  ⟨.lw, 0x00002003, 0x0000707F, .core⟩,
  ⟨.lbu, 0x00004003, 0x0000707F, .full⟩,
  ⟨.lhu, 0x00005003, 0x0000707F, .full⟩]

/-- The store rows (opcode 0x23) of R94. -/
def rowsS : List Row := [
  ⟨.sb, 0x00000023, 0x0000707F, .full⟩,
  ⟨.sh, 0x00001023, 0x0000707F, .full⟩,
  ⟨.sw, 0x00002023, 0x0000707F, .core⟩]

/-- The branch rows (opcode 0x63) of R94. -/
def rowsB : List Row := [
  ⟨.beq, 0x00000063, 0x0000707F, .core⟩,
  ⟨.bne, 0x00001063, 0x0000707F, .core⟩,
  ⟨.blt, 0x00004063, 0x0000707F, .full⟩,
  ⟨.bge, 0x00005063, 0x0000707F, .full⟩,
  ⟨.bltu, 0x00006063, 0x0000707F, .full⟩,
  ⟨.bgeu, 0x00007063, 0x0000707F, .full⟩]

/-- The upper-immediate rows (opcodes 0x37 and 0x17) of R94. -/
def rowsU : List Row := [
  ⟨.lui, 0x00000037, 0x0000007F, .core⟩,
  ⟨.auipc, 0x00000017, 0x0000007F, .full⟩]

/-- The 35 rows of R94. -/
def rows : List Row := rowsR ++ rowsI ++ rowsL ++ rowsS ++ rowsB ++ rowsU

/-- `w` matches the row (R94). -/
def Row.accepts (r : Row) (w : Word) : Bool := w &&& r.mask == r.bits

/-- `ISA_SUBSET` admits the row: CORE admits the CORE rows, FULL all rows (R3, R96). -/
def Subset.admits : Subset → Row → Bool
  | .core, r => r.subset == .core
  | .full, _ => true

/-- The admitted row a word matches, if any (R96). -/
def matchRow (sub : Subset) (w : Word) : Option Row :=
  rows.find? fun r => sub.admits r && r.accepts w

/-! ## Fields (R80) -/

/-- Bits 6..0. -/
def opcodeOf (w : Word) : BitVec 7 := w.extractLsb' 0 7
/-- Bits 11..7. -/
def rdOf (w : Word) : RegIx := w.extractLsb' 7 5
/-- Bits 14..12. -/
def funct3Of (w : Word) : BitVec 3 := w.extractLsb' 12 3
/-- Bits 19..15. -/
def rs1Of (w : Word) : RegIx := w.extractLsb' 15 5
/-- Bits 24..20. -/
def rs2Of (w : Word) : RegIx := w.extractLsb' 20 5
/-- Bits 31..25. -/
def funct7Of (w : Word) : BitVec 7 := w.extractLsb' 25 7

/-! ## Immediates -/

/-- R88: `sext_12(w[31:20])`. -/
def immI (w : Word) : Word := (w.extractLsb' 20 12).signExtend 32
/-- R89: `sext_12(w[31:25] ++ w[11:7])`. -/
def immS (w : Word) : Word := (w.extractLsb' 25 7 ++ w.extractLsb' 7 5).signExtend 32
/-- R90: `sext_13(w[31] ++ w[7] ++ w[30:25] ++ w[11:8] ++ 0b0)`. -/
def immB (w : Word) : Word :=
  (w.extractLsb' 31 1 ++ w.extractLsb' 7 1 ++ w.extractLsb' 25 6 ++ w.extractLsb' 8 4 ++ 0#1).signExtend 32
/-- R91: `w[31:12] ++ 0x000`. -/
def immU (w : Word) : Word := w.extractLsb' 12 20 ++ 0#12
/-- R92: `zext_5(w[24:20])`. -/
def immShamt (w : Word) : Word := (w.extractLsb' 20 5).setWidth 32

/-! ## The decoder -/

/-- The layout of each instruction's row (R93, R111). -/
def Op.layout : Op → Layout
  | .add => .r
  | .sub => .r
  | .sll => .r
  | .slt => .r
  | .sltu => .r
  | .xor => .r
  | .srl => .r
  | .sra => .r
  | .or => .r
  | .and => .r
  | .addi => .i
  | .slti => .i
  | .sltiu => .i
  | .xori => .i
  | .ori => .i
  | .andi => .i
  | .slli => .iShift
  | .srli => .iShift
  | .srai => .iShift
  | .lb => .l
  | .lh => .l
  | .lw => .l
  | .lbu => .l
  | .lhu => .l
  | .sb => .s
  | .sh => .s
  | .sw => .s
  | .beq => .b
  | .bne => .b
  | .blt => .b
  | .bge => .b
  | .bltu => .b
  | .bgeu => .b
  | .lui => .u
  | .auipc => .u

/-- The format a layout belongs to (R93, R111). -/
def Layout.fmt : Layout → Fmt
  | .r => .r
  | .i => .i
  | .iShift => .i
  | .l => .l
  | .s => .s
  | .b => .b
  | .u => .u

/-- The decoded fields of a stage register (R111). -/
structure Fields where
  rd : RegIx
  rs1 : RegIx
  rs2 : RegIx
  funct3 : BitVec 3
  funct7 : BitVec 7
  imm : Word
deriving DecidableEq, Repr

/-- The table of R111: what each layout reads from the word. A field the layout does not have is 0. -/
def fieldsOf (lay : Layout) (w : Word) : Fields :=
  match lay with
  | .r => ⟨rdOf w, rs1Of w, rs2Of w, funct3Of w, funct7Of w, 0⟩
  | .i => ⟨rdOf w, rs1Of w, 0, funct3Of w, 0, immI w⟩
  | .iShift => ⟨rdOf w, rs1Of w, 0, funct3Of w, funct7Of w, immShamt w⟩
  | .l => ⟨rdOf w, rs1Of w, 0, funct3Of w, 0, immI w⟩
  | .s => ⟨0, rs1Of w, rs2Of w, funct3Of w, 0, immS w⟩
  | .b => ⟨0, rs1Of w, rs2Of w, funct3Of w, 0, immB w⟩
  | .u => ⟨rdOf w, 0, 0, 0, 0, immU w⟩

/-- The instruction an operation and its decoded fields make. -/
def Op.instr (op : Op) (f : Fields) : Instr :=
  match op with
  | .add => .add f.rd f.rs1 f.rs2
  | .sub => .sub f.rd f.rs1 f.rs2
  | .sll => .sll f.rd f.rs1 f.rs2
  | .slt => .slt f.rd f.rs1 f.rs2
  | .sltu => .sltu f.rd f.rs1 f.rs2
  | .xor => .xor f.rd f.rs1 f.rs2
  | .srl => .srl f.rd f.rs1 f.rs2
  | .sra => .sra f.rd f.rs1 f.rs2
  | .or => .or f.rd f.rs1 f.rs2
  | .and => .and f.rd f.rs1 f.rs2
  | .addi => .addi f.rd f.rs1 f.imm
  | .slti => .slti f.rd f.rs1 f.imm
  | .sltiu => .sltiu f.rd f.rs1 f.imm
  | .xori => .xori f.rd f.rs1 f.imm
  | .ori => .ori f.rd f.rs1 f.imm
  | .andi => .andi f.rd f.rs1 f.imm
  | .slli => .slli f.rd f.rs1 f.imm
  | .srli => .srli f.rd f.rs1 f.imm
  | .srai => .srai f.rd f.rs1 f.imm
  | .lb => .lb f.rd f.rs1 f.imm
  | .lh => .lh f.rd f.rs1 f.imm
  | .lw => .lw f.rd f.rs1 f.imm
  | .lbu => .lbu f.rd f.rs1 f.imm
  | .lhu => .lhu f.rd f.rs1 f.imm
  | .sb => .sb f.rs1 f.rs2 f.imm
  | .sh => .sh f.rs1 f.rs2 f.imm
  | .sw => .sw f.rs1 f.rs2 f.imm
  | .beq => .beq f.rs1 f.rs2 f.imm
  | .bne => .bne f.rs1 f.rs2 f.imm
  | .blt => .blt f.rs1 f.rs2 f.imm
  | .bge => .bge f.rs1 f.rs2 f.imm
  | .bltu => .bltu f.rs1 f.rs2 f.imm
  | .bgeu => .bgeu f.rs1 f.rs2 f.imm
  | .lui => .lui f.rd f.imm
  | .auipc => .auipc f.rd f.imm

/-- The operation of an instruction. -/
def Instr.op : Instr → Op
  | .add _ _ _ => .add
  | .sub _ _ _ => .sub
  | .sll _ _ _ => .sll
  | .slt _ _ _ => .slt
  | .sltu _ _ _ => .sltu
  | .xor _ _ _ => .xor
  | .srl _ _ _ => .srl
  | .sra _ _ _ => .sra
  | .or _ _ _ => .or
  | .and _ _ _ => .and
  | .addi _ _ _ => .addi
  | .slti _ _ _ => .slti
  | .sltiu _ _ _ => .sltiu
  | .xori _ _ _ => .xori
  | .ori _ _ _ => .ori
  | .andi _ _ _ => .andi
  | .slli _ _ _ => .slli
  | .srli _ _ _ => .srli
  | .srai _ _ _ => .srai
  | .lb _ _ _ => .lb
  | .lh _ _ _ => .lh
  | .lw _ _ _ => .lw
  | .lbu _ _ _ => .lbu
  | .lhu _ _ _ => .lhu
  | .sb _ _ _ => .sb
  | .sh _ _ _ => .sh
  | .sw _ _ _ => .sw
  | .beq _ _ _ => .beq
  | .bne _ _ _ => .bne
  | .blt _ _ _ => .blt
  | .bge _ _ _ => .bge
  | .bltu _ _ _ => .bltu
  | .bgeu _ _ _ => .bgeu
  | .lui _ _ => .lui
  | .auipc _ _ => .auipc

/-- Why a word is no instruction. -/
inductive Reject where
  /-- The word 0 is the bubble (R95). -/
  | bubble
  /-- A nonzero word that matches no admitted row (R96). -/
  | unrecognized
deriving DecidableEq, Repr

/-- The decoder, total on all words (R110): the word 0 is the bubble (R95), a word that matches an admitted row is
that row's instruction (R111), any other word is unrecognized (R96). -/
def decode (sub : Subset) (w : Word) : Except Reject Instr :=
  if w = 0 then .error .bubble
  else match matchRow sub w with
    | some r => .ok (r.op.instr (fieldsOf r.op.layout w))
    | none => .error .unrecognized

/-- The host's question: the instruction the decoder reads from an instruction word given as a number. Every
instruction is one 32-bit word (R81), which the core receives whole (R53); all rows are admitted. -/
def decodeTableWord (nbits w : Nat) : Option Instr :=
  (decode .full (BitVec.ofNat 32 (w % 2 ^ nbits))).toOption

/-! ## The encoder (R82 to R87, R101, R104) -/

/-- R82: funct7, rs2, rs1, funct3, rd, opcode; `m` holds the row's fixed fields. -/
def encodeR (m : Word) (rd rs1 rs2 : RegIx) : Word :=
  funct7Of m ++ rs2 ++ rs1 ++ funct3Of m ++ rd ++ opcodeOf m

/-- R83: imm[11:0], rs1, funct3, rd, opcode. -/
def encodeI (m : Word) (rd rs1 : RegIx) (imm : Word) : Word :=
  imm.extractLsb' 0 12 ++ rs1 ++ funct3Of m ++ rd ++ opcodeOf m

/-- R84: funct7, shamt, rs1, funct3, rd, opcode. -/
def encodeShift (m : Word) (rd rs1 : RegIx) (imm : Word) : Word :=
  funct7Of m ++ imm.extractLsb' 0 5 ++ rs1 ++ funct3Of m ++ rd ++ opcodeOf m

/-- R85: imm[11:5], rs2, rs1, funct3, imm[4:0], opcode. -/
def encodeS (m : Word) (rs1 rs2 : RegIx) (imm : Word) : Word :=
  imm.extractLsb' 5 7 ++ rs2 ++ rs1 ++ funct3Of m ++ imm.extractLsb' 0 5 ++ opcodeOf m

/-- R86: imm[12], imm[10:5], rs2, rs1, funct3, imm[4:1], imm[11], opcode. -/
def encodeB (m : Word) (rs1 rs2 : RegIx) (imm : Word) : Word :=
  imm.extractLsb' 12 1 ++ imm.extractLsb' 5 6 ++ rs2 ++ rs1 ++ funct3Of m ++ imm.extractLsb' 1 4
    ++ imm.extractLsb' 11 1 ++ opcodeOf m

/-- R87: imm[31:12], rd, opcode. -/
def encodeU (m : Word) (rd : RegIx) (imm : Word) : Word :=
  imm.extractLsb' 12 20 ++ rd ++ opcodeOf m

/-- The word of an instruction, its row's fixed bits taken from R94. -/
def encodeWord : Instr → Word
  | .add rd rs1 rs2 => encodeR 0x00000033 rd rs1 rs2
  | .sub rd rs1 rs2 => encodeR 0x40000033 rd rs1 rs2
  | .sll rd rs1 rs2 => encodeR 0x00001033 rd rs1 rs2
  | .slt rd rs1 rs2 => encodeR 0x00002033 rd rs1 rs2
  | .sltu rd rs1 rs2 => encodeR 0x00003033 rd rs1 rs2
  | .xor rd rs1 rs2 => encodeR 0x00004033 rd rs1 rs2
  | .srl rd rs1 rs2 => encodeR 0x00005033 rd rs1 rs2
  | .sra rd rs1 rs2 => encodeR 0x40005033 rd rs1 rs2
  | .or rd rs1 rs2 => encodeR 0x00006033 rd rs1 rs2
  | .and rd rs1 rs2 => encodeR 0x00007033 rd rs1 rs2
  | .addi rd rs1 imm => encodeI 0x00000013 rd rs1 imm
  | .slti rd rs1 imm => encodeI 0x00002013 rd rs1 imm
  | .sltiu rd rs1 imm => encodeI 0x00003013 rd rs1 imm
  | .xori rd rs1 imm => encodeI 0x00004013 rd rs1 imm
  | .ori rd rs1 imm => encodeI 0x00006013 rd rs1 imm
  | .andi rd rs1 imm => encodeI 0x00007013 rd rs1 imm
  | .slli rd rs1 imm => encodeShift 0x00001013 rd rs1 imm
  | .srli rd rs1 imm => encodeShift 0x00005013 rd rs1 imm
  | .srai rd rs1 imm => encodeShift 0x40005013 rd rs1 imm
  | .lb rd rs1 imm => encodeI 0x00000003 rd rs1 imm
  | .lh rd rs1 imm => encodeI 0x00001003 rd rs1 imm
  | .lw rd rs1 imm => encodeI 0x00002003 rd rs1 imm
  | .lbu rd rs1 imm => encodeI 0x00004003 rd rs1 imm
  | .lhu rd rs1 imm => encodeI 0x00005003 rd rs1 imm
  | .sb rs1 rs2 imm => encodeS 0x00000023 rs1 rs2 imm
  | .sh rs1 rs2 imm => encodeS 0x00001023 rs1 rs2 imm
  | .sw rs1 rs2 imm => encodeS 0x00002023 rs1 rs2 imm
  | .beq rs1 rs2 imm => encodeB 0x00000063 rs1 rs2 imm
  | .bne rs1 rs2 imm => encodeB 0x00001063 rs1 rs2 imm
  | .blt rs1 rs2 imm => encodeB 0x00004063 rs1 rs2 imm
  | .bge rs1 rs2 imm => encodeB 0x00005063 rs1 rs2 imm
  | .bltu rs1 rs2 imm => encodeB 0x00006063 rs1 rs2 imm
  | .bgeu rs1 rs2 imm => encodeB 0x00007063 rs1 rs2 imm
  | .lui rd imm => encodeU 0x00000037 rd imm
  | .auipc rd imm => encodeU 0x00000017 rd imm

/-- The encoder. It rejects an instruction whose immediate does not fit its field (R101). -/
def encode (i : Instr) : Option Word := if i.wf then some (encodeWord i) else none

end Sys2Proof
end

