-- ==== Sys2Proof/Machine/Memory.lean ====
section
/-! DEFINITION. The data memory (R55): bytes at natural-number addresses, held as a list of cells in one canonical
form, and little-endian access to it (R56). -/

namespace Sys2Proof.Machine

/-- The data memory: the bytes that are not zero, by rising address. -/
abbrev Memory := List Host.Cell

/-- What an address reads as when no cell lists it: zero (log 4). -/
def unlistedByte : Byte := 0

/-- Addresses rise strictly and no cell holds what an unlisted address reads as. -/
def Memory.canonical : Memory → Bool
  | [] => true
  | [c] => c.2 != unlistedByte
  | c :: d :: m => c.2 != unlistedByte && decide (c.1 < d.1) && Memory.canonical (d :: m)

/-- The canonical form, with every listed address below `size` (R55). -/
def Memory.wf (size : Nat) (m : Memory) : Bool :=
  Memory.canonical m && m.all fun c => decide (c.1 < size)

/-- The byte at an address. -/
def Memory.read : Memory → Nat → Byte
  | [], _ => unlistedByte
  | c :: m, a => if a = c.1 then c.2 else Memory.read m a

/-- The memory with one byte written, in canonical form again. -/
def Memory.write : Memory → Nat → Byte → Memory
  | [], a, v => if v = unlistedByte then [] else [(a, v)]
  | c :: m, a, v =>
    if a < c.1 then (if v = unlistedByte then c :: m else (a, v) :: c :: m)
    else if a = c.1 then (if v = unlistedByte then m else (a, v) :: m)
    else c :: Memory.write m a v

/-- The memory that holds the listed bytes below `size` (R55): `INIT_DMEM` is given as such a list, in any
order; a later entry for an address wins. -/
def Memory.ofCells (size : Nat) (cells : List Host.Cell) : Memory :=
  cells.foldl (fun m c => if c.1 < size then Memory.write m c.1 c.2 else m) []

/-- The access widths (R61). -/
inductive Width where
  | byte
  | half
  | word
deriving DecidableEq, Repr

/-- The number `n` of bytes of an access (R61). -/
def Width.bytes : Width → Nat
  | .byte => 1
  | .half => 2
  | .word => 4

/-- The little-endian value of the bytes at `a` (R56, R57), in the low bits of a word. -/
def Memory.readLE (m : Memory) (a : Nat) : Width → Word
  | .byte => (Memory.read m a).setWidth 32
  | .half => (Memory.read m (a + 1) ++ Memory.read m a).setWidth 32
  | .word => Memory.read m (a + 3) ++ Memory.read m (a + 2) ++ Memory.read m (a + 1) ++ Memory.read m a

/-- The memory with the low bytes of `v` stored at `a`, byte `a + k` being `v[8k+7:8k]` (R56, R58). -/
def Memory.writeLE (m : Memory) (a : Nat) (v : Word) : Width → Memory
  | .byte => Memory.write m a (v.extractLsb' 0 8)
  | .half => Memory.write (Memory.write m a (v.extractLsb' 0 8)) (a + 1) (v.extractLsb' 8 8)
  | .word =>
    Memory.write (Memory.write (Memory.write (Memory.write m a (v.extractLsb' 0 8))
      (a + 1) (v.extractLsb' 8 8)) (a + 2) (v.extractLsb' 16 8)) (a + 3) (v.extractLsb' 24 8)

/-- R9 `sext_N(v)`: the low `n` bits of `v`, sign-extended to 32 bits. -/
def sext (n : Nat) (v : Word) : Word := (v.setWidth n).signExtend 32

/-- R9 `zext_N(v)`: the low `n` bits of `v`, zero-extended to 32 bits. -/
def zext (n : Nat) (v : Word) : Word := (v.setWidth n).setWidth 32

end Sys2Proof.Machine
end

