-- ==== Sys2Proof/Machine/Registers.lean ====
section
/-! DEFINITION. The general register file (R20 to R22): 32 words, register 0 hard-wired to zero. -/

namespace Sys2Proof.Machine

/-- The register file (R20). Entry 0 is register `x0`. -/
abbrev Regs := Vector Word 32

/-- `x[i]` (R9). A read of `x[0]` returns 0 (R21). -/
def Regs.read (x : Regs) (i : RegIx) : Word := if i = 0 then 0 else x[i.toNat]'i.isLt

/-- `x[i] <- v` (R9). A write of `x[0]` has no effect (R21). -/
def Regs.write (x : Regs) (i : RegIx) (v : Word) : Regs := if i = 0 then x else x.set i.toNat v i.isLt

/-- The register file that holds the given words, with `x[0] = 0` whatever the first is (R21, R280). -/
def Regs.ofWords (v : Vector Word 32) : Regs := v.set 0 0

end Sys2Proof.Machine
end

