-- ==== Sys2Proof/Machine/State.lean ====
section
/-! DEFINITION. The state of the machine (10_state.md), as plain data, and its value at reset (R42, R280). -/

namespace Sys2Proof.Machine

/-- The six control signals (R112). -/
structure Controls where
  regWrite : Bool
  aluSrc : Bool
  memRead : Bool
  memWrite : Bool
  memToReg : Bool
  branch : Bool
deriving DecidableEq, Repr

/-- A forwarding tag (R12, R218). -/
inductive Tag where
  /-- Take the operand from EX/MEM. -/
  | ex
  /-- Take the operand from MEM/WB. -/
  | mem
  /-- Read the register file. -/
  | none
deriving DecidableEq, Repr

/-- An occupied stage register (R32 to R34). The latches ID/EX, EX/MEM and MEM/WB share this type; `alu` and
`sdata` are meaningful from EX/MEM on, `mdata` in MEM/WB, and each is 0 before (R111). -/
structure Stage where
  pc : Word
  word : Word
  op : Op
  fmt : Fmt
  rd : RegIx
  rs1 : RegIx
  rs2 : RegIx
  funct3 : BitVec 3
  funct7 : BitVec 7
  imm : Word
  uses1 : Bool
  uses2 : Bool
  ctrl : Controls
  tag1 : Tag
  tag2 : Tag
  alu : Word
  sdata : Word
  mdata : Word
deriving DecidableEq, Repr

/-- An occupied IF/ID latch (R31). -/
structure Fetched where
  pc : Word
  word : Word
deriving DecidableEq, Repr

/-- The fault kinds (R262). -/
inductive FaultKind where
  | misalignedData
  | dmemRange
  | misalignedTarget
  | targetRange
deriving DecidableEq, Repr

/-- The run status (R38). -/
inductive Status where
  | running
  | halted
  | nonconvergent
  /-- `FAULT(kind, pc, info)`: the faulting instruction's address, and the faulting address or target (R261). -/
  | fault (kind : FaultKind) (pc info : Word)
deriving DecidableEq, Repr

/-- A diagnostic (R39, R266). -/
structure Diag where
  cycle : Nat
  pc : Word
  word : Word
deriving DecidableEq, Repr

/-- The stage names of a trace record (R247). -/
inductive Latch where
  | ifid
  | idex
  | exmem
  | memwb
deriving DecidableEq, Repr

/-- The contents of one latch in the trace (R247). `op` is `none` for UNRECOGNIZED. -/
structure SlotRecord where
  cycle : Nat
  pc : Word
  word : Word
  stage : Latch
  op : Option Op
  opcode : BitVec 7
  funct3 : BitVec 3
  funct7 : BitVec 7
  rd : RegIx
  rs1 : RegIx
  rs2 : RegIx
  ctrl : Controls
  tag1 : Tag
  tag2 : Tag
deriving DecidableEq, Repr

/-- A trace record: an occupied latch (R245), or the placeholder of a cycle with none (R246). -/
inductive TraceRecord where
  | slot (r : SlotRecord)
  /-- `{cycle, stage = NONE}` (R246). -/
  | placeholder (cycle : Nat)
deriving DecidableEq, Repr

/-- The machine's state: the tuple of 10_state.md, beside the launch parameters, which no step writes (log 1).
A latch that holds `BUBBLE` (R30) is `none`. -/
structure State where
  /-- The launch parameters (R7, R43). -/
  params : Params
  /-- The general registers (R20). -/
  x : Regs
  /-- The fetch address (R25). -/
  pc : Word
  /-- IF/ID (R31). -/
  ifid : Option Fetched
  /-- ID/EX (R32). -/
  idex : Option Stage
  /-- EX/MEM (R33). -/
  exmem : Option Stage
  /-- MEM/WB (R34). -/
  memwb : Option Stage
  /-- The data memory (R55). -/
  dmem : Memory
  /-- Cycles completed (R37). -/
  cycle : Nat
  /-- The run status (R38). -/
  status : Status
  /-- The diagnostic log (R39). -/
  diags : List Diag
  /-- The trace output (R40). -/
  trace : List TraceRecord
deriving DecidableEq, Repr

/-- Where the machine stops outside the spec's own outcomes. The spec's `FAULT` (R261) is none of these: it is a next
state whose `status` says so. -/
inductive Fault where
  /-- Raised by the fetch step when `pc` is below `4N` and no multiple of 4: `Fetch(pc)` is not defined there (R51). No
  state reachable from reset has such a `pc` (R27), and the cycle refuses one that has it first (R268), so no step answers
  this. Safe: the machine stops (log 8). -/
  | undefinedFetch (pc : Word)
deriving DecidableEq, Repr

/-- Where the model gives no behaviour. -/
inductive Refusal where
  /-- Raised by `exec` for an instruction that has no meaning yet. Safe. -/
  | notModelled (mnemonic : String)
  /-- Raised by every meaning when ID/EX does not hold the instruction it is asked to execute. `step` never asks so.
  It is an internal inconsistency, which R268 says to refuse. Safe (log 6). -/
  | notInExecute
  /-- Raised by the memory step when EX/MEM asserts MemRead for no load or MemWrite for no store, where R216 names no
  width. No decoded stage register does (R113); R268 says to refuse it. Safe (log 7). -/
  | inconsistentSignals
  /-- Raised by the step and by every meaning in a state that violates an invariant of R268: `x[0]` not 0, `pc` no multiple of
  4 in `[0, 4N]`, IF/ID holding the word 0, or an EX tag naming a load. R268 says to refuse it and to give it no behaviour. No
  state reachable from reset is one. Safe (log 14). -/
  | inconsistentState
deriving DecidableEq, Repr

/-- `reset(params)` (R280, R283): the state of R42 before cycle 1. -/
def State.launch (p : Params) : State where
  params := p
  x := Regs.ofWords p.initRegs
  pc := 0
  ifid := none
  idex := none
  exmem := none
  memwb := none
  dmem := Memory.ofCells p.dmemSize p.initDmem
  cycle := 0
  status := .running
  diags := []
  trace := []

/-- The machine right after reset, with the launch parameters of `Config.resetParams` (logs 2, 3, 4). -/
def State.reset : State := State.launch Config.resetParams

end Sys2Proof.Machine
end

