-- ==== Sys2Proof/Machine/Decoder.lean ====
section
/-! DEFINITION. The decoder as the pipeline uses it (R110 to R116): from a word and its address to a stage register
with its control signals, or to a bubble. -/

namespace Sys2Proof.Machine

/-- The control-signal table (R113). -/
def controlsOf : Fmt → Controls
  | .r => ⟨true, false, false, false, false, false⟩
  | .i => ⟨true, true, false, false, false, false⟩
  | .l => ⟨true, true, true, false, true, false⟩
  | .s => ⟨false, true, false, true, false, false⟩
  | .b => ⟨false, false, false, false, false, true⟩
  | .u => ⟨true, true, false, false, false, false⟩

/-- All control signals false: a bubble's, and an unrecognized word's in the trace (R113, R247). -/
def noControls : Controls := ⟨false, false, false, false, false, false⟩

/-- Which formats read source 1 (R114). -/
def usesSource1 : Fmt → Bool
  | .r => true
  | .i => true
  | .l => true
  | .s => true
  | .b => true
  | .u => false

/-- Which formats read source 2 (R114). -/
def usesSource2 : Fmt → Bool
  | .r => true
  | .i => false
  | .l => false
  | .s => true
  | .b => true
  | .u => false

/-- `fields_r(w, pc)` (R111): the stage register of an operation read from its word, with tags NONE and value
fields 0. -/
def stageOf (op : Op) (pc w : Word) : Stage :=
  let f := fieldsOf op.layout w
  let fmt := op.layout.fmt
  { pc := pc, word := w, op := op, fmt := fmt,
    rd := f.rd, rs1 := f.rs1, rs2 := f.rs2, funct3 := f.funct3, funct7 := f.funct7, imm := f.imm,
    uses1 := usesSource1 fmt, uses2 := usesSource2 fmt, ctrl := controlsOf fmt,
    tag1 := .none, tag2 := .none, alu := 0, sdata := 0, mdata := 0 }

/-- `decode(w, pc)` (R110): the decoded stage register, or `none` for `BUBBLE`, and the diagnostic flag. -/
def decodeStage (sub : Subset) (w pc : Word) : Option Stage × Bool :=
  if w = 0 then (none, false)
  else match matchRow sub w with
    | some r => (some (stageOf r.op pc w), false)
    | none => (none, true)

/-- The instruction a stage register holds: its operation with its decoded operands. -/
def Stage.instr (d : Stage) : Instr := d.op.instr ⟨d.rd, d.rs1, d.rs2, d.funct3, d.funct7, d.imm⟩

/-- The decoded view of IF/ID (R31, R116): the candidate to leave decode, and the diagnostic flag (R211). -/
def candidate (s : State) : Option Stage × Bool :=
  match s.ifid with
  | none => (none, false)
  | some f => decodeStage s.params.subset f.word f.pc

end Sys2Proof.Machine
end

