-- ==== Sys2Proof/Machine/Ops.lean ====
section
/-! DEFINITION. The named operations over registers and data memory: writeback (R212), checked data access
(R57 to R60) and taking a fault (R261 to R263). -/

namespace Sys2Proof.Machine

/-! ## Stops and faults -/

/-- Why a stage action does not complete its cycle. -/
inductive Stop where
  /-- `raise Fault(kind, pc, info)` (R9, R261). -/
  | raise (kind : FaultKind) (pc info : Word)
  /-- A stop of the machine outside the spec's outcomes. -/
  | fault (f : Fault)
  /-- No behaviour is given. -/
  | refuse (r : Refusal)
deriving DecidableEq, Repr

/-- The numeric cause codes of the fault kinds (R262). -/
def FaultKind.code : FaultKind → Nat
  | .misalignedData => 1
  | .dmemRange => 2
  | .misalignedTarget => 3
  | .targetRange => 4

/-- Taking a fault (R261, R263): the status and the cycle number are written, the trace and the diagnostics stay as the
earlier cycles left them, and the registers, the data memory, `pc` and the latches are unspecified: free values
(log 9). -/
def takeFault (s : State) (kind : FaultKind) (pc info : Word) : State :=
  { s with
    status := .fault kind pc info
    cycle := s.cycle + 1
    x := Regs.ofWords (Config.unspecified 0 s)
    pc := Config.unspecified 1 s
    ifid := Config.unspecified 2 s
    idex := Config.unspecified 3 s
    exmem := Config.unspecified 4 s
    memwb := Config.unspecified 5 s
    dmem := Memory.ofCells s.params.dmemSize (Config.unspecified 6 s) }

/-- The outcome of a cycle that a stage action stopped. -/
def stopOutcome (s : State) : Stop → Host.Outcome State Fault Refusal
  | .raise kind pc info => .next (takeFault s kind pc info)
  | .fault f => .fault f
  | .refuse r => .refused r

/-! ## Writeback -/

/-- `wbval` (R34): the loaded value or the ALU result. -/
def wbval (d : Stage) : Word := if d.ctrl.memToReg then d.mdata else d.alu

/-- The register file after the writeback step (R212), the one that execute reads in the same cycle (R213). -/
def writeback (s : State) : Regs :=
  match s.memwb with
  | none => s.x
  | some d => if d.ctrl.regWrite && d.rd != 0 then Regs.write s.x d.rd (wbval d) else s.x

/-! ## Data access -/

/-- The checks of a data access, misalignment first (R57 to R60, R264). The sum does not wrap (R60). -/
def accessFault (s : State) (a : Word) (n : Width) : Option FaultKind :=
  if a.toNat % n.bytes ≠ 0 then some .misalignedData
  else if a.toNat + n.bytes > s.params.dmemSize then some .dmemRange
  else none

/-- `MemRead(a, n)` for the instruction at `pc` (R57). -/
def memRead (s : State) (pc a : Word) (n : Width) : Except Stop Word :=
  match accessFault s a n with
  | some kind => .error (.raise kind pc a)
  | none => .ok (Memory.readLE s.dmem a.toNat n)

/-- `MemWrite(a, n, v)` for the instruction at `pc` (R58). A store that faults writes no byte (R62). -/
def memWrite (s : State) (pc a : Word) (n : Width) (v : Word) : Except Stop Memory :=
  match accessFault s a n with
  | some kind => .error (.raise kind pc a)
  | none => .ok (Memory.writeLE s.dmem a.toNat v n)

end Sys2Proof.Machine
end

