-- ==== Sys2Proof/Machine/MemoryStage.lean ====
section
/-! DEFINITION. The memory step (R216): what each load and store does while it is in EX/MEM (R170, R176). -/

namespace Sys2Proof.Machine

/-- A load's memory action (R170): read `n` bytes at the effective address and extend them. -/
def loadAction (n : Width) (ext : Word → Word) (s : State) (d : Stage) : Except Stop Word :=
  match memRead s d.pc d.alu n with
  | .error e => .error e
  | .ok v => .ok (ext v)

/-- A store's memory action (R176): write the low `n` bytes of the store data at the effective address. -/
def storeAction (n : Width) (s : State) (d : Stage) : Except Stop Memory :=
  memWrite s d.pc d.alu n d.sdata

/-- LB (R171): a byte, sign-extended. -/
def memLb (s : State) (d : Stage) : Except Stop Word := loadAction .byte (sext 8) s d

/-- LH (R172): a halfword, sign-extended. -/
def memLh (s : State) (d : Stage) : Except Stop Word := loadAction .half (sext 16) s d

/-- LW (R173): a word. -/
def memLw (s : State) (d : Stage) : Except Stop Word := loadAction .word id s d

/-- LBU (R174): a byte, zero-extended. -/
def memLbu (s : State) (d : Stage) : Except Stop Word := loadAction .byte (zext 8) s d

/-- LHU (R175): a halfword, zero-extended. -/
def memLhu (s : State) (d : Stage) : Except Stop Word := loadAction .half (zext 16) s d

/-- SB (R177): the low byte. -/
def memSb (s : State) (d : Stage) : Except Stop Memory := storeAction .byte s d

/-- SH (R178): the low halfword. -/
def memSh (s : State) (d : Stage) : Except Stop Memory := storeAction .half s d

/-- SW (R179): the whole word. -/
def memSw (s : State) (d : Stage) : Except Stop Memory := storeAction .word s d

/-- The value `ext_op(MemRead(alu, n_op))` of the load in EX/MEM (R216). An operation that is no load never asserts
MemRead (R113); it is refused (R268, log 7). -/
def loadOf (s : State) (d : Stage) : Except Stop Word :=
  match d.op with
  | .add => .error (.refuse .inconsistentSignals)
  | .sub => .error (.refuse .inconsistentSignals)
  | .sll => .error (.refuse .inconsistentSignals)
  | .slt => .error (.refuse .inconsistentSignals)
  | .sltu => .error (.refuse .inconsistentSignals)
  | .xor => .error (.refuse .inconsistentSignals)
  | .srl => .error (.refuse .inconsistentSignals)
  | .sra => .error (.refuse .inconsistentSignals)
  | .or => .error (.refuse .inconsistentSignals)
  | .and => .error (.refuse .inconsistentSignals)
  | .addi => .error (.refuse .inconsistentSignals)
  | .slti => .error (.refuse .inconsistentSignals)
  | .sltiu => .error (.refuse .inconsistentSignals)
  | .xori => .error (.refuse .inconsistentSignals)
  | .ori => .error (.refuse .inconsistentSignals)
  | .andi => .error (.refuse .inconsistentSignals)
  | .slli => .error (.refuse .inconsistentSignals)
  | .srli => .error (.refuse .inconsistentSignals)
  | .srai => .error (.refuse .inconsistentSignals)
  | .lb => memLb s d
  | .lh => memLh s d
  | .lw => memLw s d
  | .lbu => memLbu s d
  | .lhu => memLhu s d
  | .sb => .error (.refuse .inconsistentSignals)
  | .sh => .error (.refuse .inconsistentSignals)
  | .sw => .error (.refuse .inconsistentSignals)
  | .beq => .error (.refuse .inconsistentSignals)
  | .bne => .error (.refuse .inconsistentSignals)
  | .blt => .error (.refuse .inconsistentSignals)
  | .bge => .error (.refuse .inconsistentSignals)
  | .bltu => .error (.refuse .inconsistentSignals)
  | .bgeu => .error (.refuse .inconsistentSignals)
  | .lui => .error (.refuse .inconsistentSignals)
  | .auipc => .error (.refuse .inconsistentSignals)

/-- The data memory after `MemWrite(alu, n_op, sdata)` of the store in EX/MEM (R216). An operation that is no store
never asserts MemWrite (R113); it is refused (R268, log 7). -/
def storeOf (s : State) (d : Stage) : Except Stop Memory :=
  match d.op with
  | .add => .error (.refuse .inconsistentSignals)
  | .sub => .error (.refuse .inconsistentSignals)
  | .sll => .error (.refuse .inconsistentSignals)
  | .slt => .error (.refuse .inconsistentSignals)
  | .sltu => .error (.refuse .inconsistentSignals)
  | .xor => .error (.refuse .inconsistentSignals)
  | .srl => .error (.refuse .inconsistentSignals)
  | .sra => .error (.refuse .inconsistentSignals)
  | .or => .error (.refuse .inconsistentSignals)
  | .and => .error (.refuse .inconsistentSignals)
  | .addi => .error (.refuse .inconsistentSignals)
  | .slti => .error (.refuse .inconsistentSignals)
  | .sltiu => .error (.refuse .inconsistentSignals)
  | .xori => .error (.refuse .inconsistentSignals)
  | .ori => .error (.refuse .inconsistentSignals)
  | .andi => .error (.refuse .inconsistentSignals)
  | .slli => .error (.refuse .inconsistentSignals)
  | .srli => .error (.refuse .inconsistentSignals)
  | .srai => .error (.refuse .inconsistentSignals)
  | .lb => .error (.refuse .inconsistentSignals)
  | .lh => .error (.refuse .inconsistentSignals)
  | .lw => .error (.refuse .inconsistentSignals)
  | .lbu => .error (.refuse .inconsistentSignals)
  | .lhu => .error (.refuse .inconsistentSignals)
  | .sb => memSb s d
  | .sh => memSh s d
  | .sw => memSw s d
  | .beq => .error (.refuse .inconsistentSignals)
  | .bne => .error (.refuse .inconsistentSignals)
  | .blt => .error (.refuse .inconsistentSignals)
  | .bge => .error (.refuse .inconsistentSignals)
  | .bltu => .error (.refuse .inconsistentSignals)
  | .bgeu => .error (.refuse .inconsistentSignals)
  | .lui => .error (.refuse .inconsistentSignals)
  | .auipc => .error (.refuse .inconsistentSignals)

/-- The value the memory step puts in `mdata`: the load's, else 0 (R216). -/
def memData (s : State) (d : Stage) : Except Stop Word :=
  if d.ctrl.memRead then loadOf s d else .ok 0

/-- The data memory after the memory step: the store's, else unchanged (R216). -/
def memAfter (s : State) (d : Stage) : Except Stop Memory :=
  if d.ctrl.memWrite then storeOf s d else .ok s.dmem

/-- The memory step (R216): the new MEM/WB and the new data memory, or the stop the access raises. -/
def memoryStep (s : State) : Except Stop (Option Stage × Memory) :=
  match s.exmem with
  | none => .ok (none, s.dmem)
  | some d =>
    match memData s d with
    | .error e => .error e
    | .ok v =>
      match memAfter s d with
      | .error e => .error e
      | .ok m => .ok (some { d with mdata := v }, m)

end Sys2Proof.Machine
end

