-- ==== Sys2Proof/Machine/Operands.lean ====
section
/-! DEFINITION. Operand selection in the execute step: the forwarding multiplexer (R214) and the ALU's second input
(R112, R217). -/

namespace Sys2Proof.Machine

/-- The value EX forwarding delivers: `EXMEM.alu`, 0 in a bubble (R30, R214). -/
def exValue (s : State) : Word :=
  match s.exmem with
  | none => 0
  | some d => d.alu

/-- The value MEM forwarding delivers: `wbval(MEMWB)`, 0 in a bubble (R30, R214). -/
def memValue (s : State) : Word :=
  match s.memwb with
  | none => 0
  | some d => wbval d

/-- `Opnd_k` (R214): 0 for a source the instruction does not use; else the forwarded value its tag names, or the
register file as writeback leaves it (R213). -/
def operand (s : State) (uses : Bool) (tag : Tag) (r : RegIx) : Word :=
  if uses then
    match tag with
    | .ex => exValue s
    | .mem => memValue s
    | .none => Regs.read (writeback s) r
  else 0

/-- `a = Opnd_1` of the instruction in ID/EX (R117, R214). -/
def operand1 (s : State) (d : Stage) : Word := operand s d.uses1 d.tag1 d.rs1

/-- `b = Opnd_2` of the instruction in ID/EX (R117, R214). -/
def operand2 (s : State) (d : Stage) : Word := operand s d.uses2 d.tag2 d.rs2

/-- The ALU's second input: `ALUSrc ? imm : b` (R112, R217). -/
def aluInput2 (d : Stage) (b : Word) : Word := if d.ctrl.aluSrc then d.imm else b

end Sys2Proof.Machine
end

