-- ==== Sys2Proof/Machine/Pipeline.lean ====
section
/-! DEFINITION. The clock cycle (50_pipeline.md): hazard unit, forwarding unit, per-cycle decision, decode and fetch
steps, trace, and their composition (R250). -/

namespace Sys2Proof.Machine

/-! ## Forwarding unit -/

/-- `writes(L, r)` (R218): the latch's instruction writes register `r`. -/
def writesReg (l : Option Stage) (r : RegIx) : Bool :=
  match l with
  | none => false
  | some d => d.ctrl.regWrite && d.rd != 0 && d.rd == r

/-- `Fwd_k(D, E, M)` (R218): EX before MEM (R219). -/
def forwardTag (uses : Bool) (r : RegIx) (e m : Option Stage) : Tag :=
  if uses then
    if writesReg e r then .ex
    else if writesReg m r then .mem
    else .none
  else .none

/-- The stage register with its two tags computed against the older latches (R220). -/
def withTags (d : Stage) (e m : Option Stage) : Stage :=
  { d with tag1 := forwardTag d.uses1 d.rs1 e m, tag2 := forwardTag d.uses2 d.rs2 e m }

/-! ## Hazard unit and decision -/

/-- `Hazard(cand, X)` (R221): the instruction in execute is a load whose non-zero destination the candidate reads. -/
def hazard (cand x : Option Stage) : Bool :=
  match x, cand with
  | some l, some c =>
    l.ctrl.memRead && l.rd != 0 && ((c.uses1 && c.rs1 == l.rd) || (c.uses2 && c.rs2 == l.rd))
  | _, _ => false

/-- The per-cycle decision (R36, R211). -/
inductive Decision where
  | normal
  | stall
  | flush (target : Word)
deriving DecidableEq, Repr

/-- The cycle's decision (R211), from the branch resolution unit's target, if the branch in ID/EX is taken. -/
def decisionOf (s : State) (target : Option Word) : Decision :=
  match target with
  | some t => .flush t
  | none => if hazard (candidate s).1 s.idex then .stall else .normal

/-! ## Decode and fetch -/

/-- `Fetch(pc)` (R51): the program word at a byte address, defined at multiples of 4 below `4N`. -/
def fetchWord (p : Params) (pc : Word) : Option Word :=
  if pc.toNat % 4 = 0 then p.prog[pc.toNat / 4]? else none

/-- The fetch step of a NORMAL cycle (R228, R229): the new `pc` and IF/ID. The word 0 puts BUBBLE in IF/ID (R95). -/
def fetchStep (s : State) : Except Stop (Word × Option Fetched) :=
  if s.pc.toNat < s.params.progEnd then
    match fetchWord s.params s.pc with
    | some w => .ok (s.pc + 4, if w = 0 then none else some ⟨s.pc, w⟩)
    | none => .error (.fault (.undefinedFetch s.pc))
  else .ok (s.pc, none)

/-- What the decision sets (R230): `pc`, IF/ID, ID/EX before its tags, and the diagnostics of the cycle. -/
structure FrontEnd where
  pc : Word
  ifid : Option Fetched
  idex : Option Stage
  diags : List Diag
deriving DecidableEq, Repr

/-- The diagnostic of cycle `c` for the word in IF/ID (R227, R266). -/
def diagOf (s : State) (c : Nat) : List Diag :=
  match s.ifid with
  | none => []
  | some f => if (candidate s).2 then [⟨c, f.pc, f.word⟩] else []

/-- The decode and fetch steps under each decision (R222, R225, R227 to R230). -/
def frontEnd (s : State) (c : Nat) : Decision → Except Stop FrontEnd
  | .normal =>
    match fetchStep s with
    | .error e => .error e
    | .ok (pc, ifid) => .ok ⟨pc, ifid, (candidate s).1, diagOf s c⟩
  | .stall => .ok ⟨s.pc, s.ifid, none, []⟩
  | .flush t => .ok ⟨t, none, none, []⟩

/-! ## Trace -/

/-- The record of an occupied IF/ID (R247): the fields of `decode(word, pc)`, tags NONE; an unrecognized word has no
`op`, and its register and function fields are 0. -/
def ifidRecord (sub : Subset) (c : Nat) (f : Fetched) : SlotRecord :=
  match (decodeStage sub f.word f.pc).1 with
  | some d =>
    ⟨c, f.pc, f.word, .ifid, some d.op, opcodeOf f.word, d.funct3, d.funct7, d.rd, d.rs1, d.rs2, d.ctrl, .none, .none⟩
  | none => ⟨c, f.pc, f.word, .ifid, none, opcodeOf f.word, 0, 0, 0, 0, 0, noControls, .none, .none⟩

/-- The record of an occupied ID/EX, EX/MEM or MEM/WB (R247). -/
def stageRecord (c : Nat) (l : Latch) (d : Stage) : SlotRecord :=
  ⟨c, d.pc, d.word, l, some d.op, opcodeOf d.word, d.funct3, d.funct7, d.rd, d.rs1, d.rs2, d.ctrl, d.tag1, d.tag2⟩

/-- The records of the occupied latches at the end of cycle `c`, in slot order (R245). -/
def slotRecords (sub : Subset) (c : Nat) (ifid : Option Fetched) (idex exmem memwb : Option Stage) :
    List SlotRecord :=
  (ifid.map (ifidRecord sub c)).toList ++ (idex.map (stageRecord c .idex)).toList
    ++ (exmem.map (stageRecord c .exmem)).toList ++ (memwb.map (stageRecord c .memwb)).toList

/-- The trace records of cycle `c` (R245): the slots', or one placeholder when there is none (R246). -/
def traceRecords (sub : Subset) (c : Nat) (ifid : Option Fetched) (idex exmem memwb : Option Stage) :
    List TraceRecord :=
  match slotRecords sub c ifid idex exmem memwb with
  | [] => [.placeholder c]
  | r :: rs => (r :: rs).map .slot

/-! ## Internal inconsistencies (R268) -/

/-- `pc` is a multiple of 4 in `[0, 4N]` (R27). -/
def pcInProgram (s : State) : Bool := decide (s.pc.toNat % 4 = 0 ∧ s.pc.toNat ≤ s.params.progEnd)

/-- An occupied IF/ID has a nonzero word (R31). -/
def ifidNonzero (s : State) : Bool :=
  match s.ifid with
  | none => true
  | some f => f.word != 0

/-- An EX tag never names a load (R236). -/
def exTagNamesNoLoad (s : State) : Bool :=
  match s.idex, s.exmem with
  | some d, some e => !(e.ctrl.memRead && (d.tag1 == .ex || d.tag2 == .ex))
  | _, _ => true

/-- The invariants R268 lists hold (those a State can violate). A state without them gets no behaviour (log 14). -/
def invariantsHold (s : State) : Bool :=
  decide (s.x[0] = 0) && pcInProgram s && ifidNonzero s && exTagNamesNoLoad s

/-! ## The cycle -/

/-- What the execute step produces (R217): the new EX/MEM, and the target of a taken branch (R224). -/
structure Executed where
  exmem : Option Stage
  target : Option Word
deriving DecidableEq, Repr

/-- The state at the end of a completed cycle (R220, R234, R250). -/
def completeCycle (s : State) (memwb : Option Stage) (dmem : Memory) (exmem : Option Stage) (f : FrontEnd) :
    State :=
  let c := s.cycle + 1
  let idex := f.idex.map fun d => withTags d exmem memwb
  { s with
    x := writeback s
    pc := f.pc
    ifid := f.ifid
    idex := idex
    exmem := exmem
    memwb := memwb
    dmem := dmem
    cycle := c
    diags := s.diags ++ f.diags
    trace := s.trace ++ traceRecords s.params.subset c f.ifid idex exmem memwb }

/-- One cycle (R250), given what its execute step answers: writeback, memory, execute, decode, fetch. The memory step's
fault is taken before the execute step's (R264). An inconsistent state is refused (R268). -/
def cycle (s : State) (executed : Except Stop Executed) : Host.Outcome State Fault Refusal :=
  if invariantsHold s = false then .refused .inconsistentState
  else match memoryStep s with
  | .error e => stopOutcome s e
  | .ok (memwb, dmem) =>
    match executed with
    | .error e => stopOutcome s e
    | .ok x =>
      match frontEnd s (s.cycle + 1) (decisionOf s x.target) with
      | .error e => stopOutcome s e
      | .ok f => .next (completeCycle s memwb dmem x.exmem f)

/-- The cycle in which ID/EX is a bubble: execute passes the bubble on (R217). -/
def bubbleCycle (s : State) : Host.Outcome State Fault Refusal := cycle s (.ok ⟨none, none⟩)

/-- The cycle in which instruction `i` is in execute (R217): `ex` is its execute step, applied to its stage register and
its two operands (R214). Refused when ID/EX does not hold `i` (R268, log 6). -/
def executeCycle (i : Instr) (s : State) (ex : Stage → Word → Word → Except Stop Executed) :
    Host.Outcome State Fault Refusal :=
  match s.idex with
  | none => .refused .notInExecute
  | some d => if d.instr = i then cycle s (ex d (operand1 s d) (operand2 s d)) else .refused .notInExecute

end Sys2Proof.Machine
end

