-- ==== Sys2Proof/Machine/AluImm.lean ====
section
/-! DEFINITION. The register-immediate and upper-immediate instructions (42_alu_imm.md). A meaning is the cycle in which the instruction is in execute. -/

namespace Sys2Proof.Machine

/-- The execute step of the register-immediate family (R150): `alu <- f(a, imm)`, `sdata <- 0`. The ALU's second
input is `imm`, since ALUSrc = 1. -/
def immStep (f : Word → Word → Word) (d : Stage) (a b : Word) : Except Stop Executed :=
  .ok ⟨some { d with alu := f a (aluInput2 d b), sdata := 0 }, none⟩

/-- The execute step of the upper-immediate family (R160): `alu <- f(imm, pc)`, `sdata <- 0`. No source is read. `pc` is
the instruction's own address (R28). -/
def upperStep (f : Word → Word → Word) (d : Stage) (_a b : Word) : Except Stop Executed :=
  .ok ⟨some { d with alu := f (aluInput2 d b) d.pc, sdata := 0 }, none⟩

/-- ADDI (R150, R151): the sum modulo 2^32. -/
def execAddi (rd rs1 : RegIx) (imm : Word) (s : State) : Host.Outcome State Fault Refusal :=
  executeCycle (.addi rd rs1 imm) s (immStep fun a imm => a + imm)

/-- SLTI (R150, R152): 1 when `a <s imm`, else 0. -/
def execSlti (rd rs1 : RegIx) (imm : Word) (s : State) : Host.Outcome State Fault Refusal :=
  executeCycle (.slti rd rs1 imm) s (immStep fun a imm => boolWord (lessSigned a imm))

/-- SLTIU (R150, R153): 1 when `a <u imm`, the immediate sign-extended first, else 0. -/
def execSltiu (rd rs1 : RegIx) (imm : Word) (s : State) : Host.Outcome State Fault Refusal :=
  executeCycle (.sltiu rd rs1 imm) s (immStep fun a imm => boolWord (lessUnsigned a imm))

/-- XORI (R150, R154): bitwise exclusive or. -/
def execXori (rd rs1 : RegIx) (imm : Word) (s : State) : Host.Outcome State Fault Refusal :=
  executeCycle (.xori rd rs1 imm) s (immStep fun a imm => a ^^^ imm)

/-- ORI (R150, R155): bitwise or. -/
def execOri (rd rs1 : RegIx) (imm : Word) (s : State) : Host.Outcome State Fault Refusal :=
  executeCycle (.ori rd rs1 imm) s (immStep fun a imm => a ||| imm)

/-- ANDI (R150, R156): bitwise and. -/
def execAndi (rd rs1 : RegIx) (imm : Word) (s : State) : Host.Outcome State Fault Refusal :=
  executeCycle (.andi rd rs1 imm) s (immStep fun a imm => a &&& imm)

/-- SLLI (R150, R157): a shift left by the shift amount. -/
def execSlli (rd rs1 : RegIx) (imm : Word) (s : State) : Host.Outcome State Fault Refusal :=
  executeCycle (.slli rd rs1 imm) s (immStep fun a imm => a <<< imm.toNat)

/-- SRLI (R150, R158): a logical shift right by the shift amount. -/
def execSrli (rd rs1 : RegIx) (imm : Word) (s : State) : Host.Outcome State Fault Refusal :=
  executeCycle (.srli rd rs1 imm) s (immStep fun a imm => a >>> imm.toNat)

/-- SRAI (R150, R159): an arithmetic shift right by the shift amount. -/
def execSrai (rd rs1 : RegIx) (imm : Word) (s : State) : Host.Outcome State Fault Refusal :=
  executeCycle (.srai rd rs1 imm) s (immStep fun a imm => a.sshiftRight imm.toNat)

/-- LUI (R160, R161): the upper immediate. -/
def execLui (rd : RegIx) (imm : Word) (s : State) : Host.Outcome State Fault Refusal :=
  executeCycle (.lui rd imm) s (upperStep fun imm _ => imm)

/-- AUIPC (R160, R162): the instruction's own address plus the upper immediate. -/
def execAuipc (rd : RegIx) (imm : Word) (s : State) : Host.Outcome State Fault Refusal :=
  executeCycle (.auipc rd imm) s (upperStep fun imm pc => pc + imm)

end Sys2Proof.Machine
end

