-- ==== Sys2Proof/Machine/AluReg.lean ====
section
/-! DEFINITION. The register-register ALU instructions (41_alu_reg.md). A meaning is the cycle in which the instruction is in execute. -/

namespace Sys2Proof.Machine

/-- The execute step of the family (R130): `alu <- f(a, b)`, `sdata <- b`. -/
def regStep (f : Word → Word → Word) (d : Stage) (a b : Word) : Except Stop Executed :=
  .ok ⟨some { d with alu := f a (aluInput2 d b), sdata := b }, none⟩

/-- ADD (R130, R131): the sum modulo 2^32. -/
def execAdd (rd rs1 rs2 : RegIx) (s : State) : Host.Outcome State Fault Refusal :=
  executeCycle (.add rd rs1 rs2) s (regStep fun a b => a + b)

/-- SUB (R130, R132): the difference modulo 2^32. -/
def execSub (rd rs1 rs2 : RegIx) (s : State) : Host.Outcome State Fault Refusal :=
  executeCycle (.sub rd rs1 rs2) s (regStep fun a b => a - b)

/-- SLL (R130, R133): a shift left by `b[4:0]`. -/
def execSll (rd rs1 rs2 : RegIx) (s : State) : Host.Outcome State Fault Refusal :=
  executeCycle (.sll rd rs1 rs2) s (regStep fun a b => a <<< shiftAmount b)

/-- SLT (R130, R134): 1 when `a <s b`, else 0. -/
def execSlt (rd rs1 rs2 : RegIx) (s : State) : Host.Outcome State Fault Refusal :=
  executeCycle (.slt rd rs1 rs2) s (regStep fun a b => boolWord (lessSigned a b))

/-- SLTU (R130, R135): 1 when `a <u b`, else 0. -/
def execSltu (rd rs1 rs2 : RegIx) (s : State) : Host.Outcome State Fault Refusal :=
  executeCycle (.sltu rd rs1 rs2) s (regStep fun a b => boolWord (lessUnsigned a b))

/-- XOR (R130, R136): bitwise exclusive or. -/
def execXor (rd rs1 rs2 : RegIx) (s : State) : Host.Outcome State Fault Refusal :=
  executeCycle (.xor rd rs1 rs2) s (regStep fun a b => a ^^^ b)

/-- SRL (R130, R137): a logical shift right by `b[4:0]`. -/
def execSrl (rd rs1 rs2 : RegIx) (s : State) : Host.Outcome State Fault Refusal :=
  executeCycle (.srl rd rs1 rs2) s (regStep fun a b => a >>> shiftAmount b)

/-- SRA (R130, R138): an arithmetic shift right by `b[4:0]`. -/
def execSra (rd rs1 rs2 : RegIx) (s : State) : Host.Outcome State Fault Refusal :=
  executeCycle (.sra rd rs1 rs2) s (regStep fun a b => a.sshiftRight (shiftAmount b))

/-- OR (R130, R139): bitwise or. -/
def execOr (rd rs1 rs2 : RegIx) (s : State) : Host.Outcome State Fault Refusal :=
  executeCycle (.or rd rs1 rs2) s (regStep fun a b => a ||| b)

/-- AND (R130, R140): bitwise and. -/
def execAnd (rd rs1 rs2 : RegIx) (s : State) : Host.Outcome State Fault Refusal :=
  executeCycle (.and rd rs1 rs2) s (regStep fun a b => a &&& b)

end Sys2Proof.Machine
end

