-- ==== Sys2Proof/Machine/Branch.lean ====
section
/-! DEFINITION. The conditional branches (44_branch.md): the branch resolution unit (R224) and the six conditions. -/

namespace Sys2Proof.Machine

/-- The check of a taken branch's target (R200, R224): misaligned first (R264), then above `4N`; `4N` is legal (R190). -/
def resolveTarget (p : Params) (pc target : Word) : Except Stop Word :=
  if target.toNat % 4 ≠ 0 then .error (.raise .misalignedTarget pc target)
  else if target.toNat > p.progEnd then .error (.raise .targetRange pc target)
  else .ok target

/-- The execute step of a branch (R190, R224): evaluate the condition on the forwarded operands; if it is taken, the
target is `pc + imm` modulo 2^32. `alu` and `sdata` are 0 (R33). -/
def branchStep (cond : Word → Word → Bool) (s : State) (d : Stage) (a b : Word) : Except Stop Executed :=
  let done := some { d with alu := 0, sdata := 0 }
  if d.ctrl.branch && cond a b then
    match resolveTarget s.params d.pc (d.pc + d.imm) with
    | .error e => .error e
    | .ok t => .ok ⟨done, some t⟩
  else .ok ⟨done, none⟩

/-- BEQ (R190, R191): taken when equal. -/
def execBeq (rs1 rs2 : RegIx) (imm : Word) (s : State) : Host.Outcome State Fault Refusal :=
  executeCycle (.beq rs1 rs2 imm) s (branchStep (fun a b => a == b) s)

/-- BNE (R190, R192): taken when not equal. -/
def execBne (rs1 rs2 : RegIx) (imm : Word) (s : State) : Host.Outcome State Fault Refusal :=
  executeCycle (.bne rs1 rs2 imm) s (branchStep (fun a b => a != b) s)

/-- BLT (R190, R193): taken when `s(a) < s(b)`. -/
def execBlt (rs1 rs2 : RegIx) (imm : Word) (s : State) : Host.Outcome State Fault Refusal :=
  executeCycle (.blt rs1 rs2 imm) s (branchStep (fun a b => lessSigned a b) s)

/-- BGE (R190, R194): taken when `s(a) >= s(b)`. -/
def execBge (rs1 rs2 : RegIx) (imm : Word) (s : State) : Host.Outcome State Fault Refusal :=
  executeCycle (.bge rs1 rs2 imm) s (branchStep (fun a b => !lessSigned a b) s)

/-- BLTU (R190, R195): taken when `u(a) < u(b)`. -/
def execBltu (rs1 rs2 : RegIx) (imm : Word) (s : State) : Host.Outcome State Fault Refusal :=
  executeCycle (.bltu rs1 rs2 imm) s (branchStep (fun a b => lessUnsigned a b) s)

/-- BGEU (R190, R196): taken when `u(a) >= u(b)`. -/
def execBgeu (rs1 rs2 : RegIx) (imm : Word) (s : State) : Host.Outcome State Fault Refusal :=
  executeCycle (.bgeu rs1 rs2 imm) s (branchStep (fun a b => !lessUnsigned a b) s)

end Sys2Proof.Machine
end

