-- ==== Sys2Proof/Machine/LoadStore.lean ====
section
/-! DEFINITION. Loads and stores in execute (43_load_store.md): the cycle that computes the effective address. What they do one cycle later, in the memory step, is in Machine/MemoryStage.lean. -/

namespace Sys2Proof.Machine

/-- The execute step of a load (R170): `alu <- a + imm`, the effective address modulo 2^32, and `sdata <- 0`. -/
def loadStep (d : Stage) (a b : Word) : Except Stop Executed :=
  .ok ⟨some { d with alu := a + aluInput2 d b, sdata := 0 }, none⟩

/-- The execute step of a store (R176): `alu <- a + imm`, the effective address modulo 2^32, and `sdata <- b`. -/
def storeStep (d : Stage) (a b : Word) : Except Stop Executed :=
  .ok ⟨some { d with alu := a + aluInput2 d b, sdata := b }, none⟩

/-- LB (R170, R171); its memory step is `memLb`. -/
def execLb (rd rs1 : RegIx) (imm : Word) (s : State) : Host.Outcome State Fault Refusal :=
  executeCycle (.lb rd rs1 imm) s loadStep

/-- LH (R170, R172); its memory step is `memLh`. -/
def execLh (rd rs1 : RegIx) (imm : Word) (s : State) : Host.Outcome State Fault Refusal :=
  executeCycle (.lh rd rs1 imm) s loadStep

/-- LW (R170, R173); its memory step is `memLw`. -/
def execLw (rd rs1 : RegIx) (imm : Word) (s : State) : Host.Outcome State Fault Refusal :=
  executeCycle (.lw rd rs1 imm) s loadStep

/-- LBU (R170, R174); its memory step is `memLbu`. -/
def execLbu (rd rs1 : RegIx) (imm : Word) (s : State) : Host.Outcome State Fault Refusal :=
  executeCycle (.lbu rd rs1 imm) s loadStep

/-- LHU (R170, R175); its memory step is `memLhu`. -/
def execLhu (rd rs1 : RegIx) (imm : Word) (s : State) : Host.Outcome State Fault Refusal :=
  executeCycle (.lhu rd rs1 imm) s loadStep

/-- SB (R176, R177); its memory step is `memSb`. -/
def execSb (rs1 rs2 : RegIx) (imm : Word) (s : State) : Host.Outcome State Fault Refusal :=
  executeCycle (.sb rs1 rs2 imm) s storeStep

/-- SH (R176, R178); its memory step is `memSh`. -/
def execSh (rs1 rs2 : RegIx) (imm : Word) (s : State) : Host.Outcome State Fault Refusal :=
  executeCycle (.sh rs1 rs2 imm) s storeStep

/-- SW (R176, R179); its memory step is `memSw`. -/
def execSw (rs1 rs2 : RegIx) (imm : Word) (s : State) : Host.Outcome State Fault Refusal :=
  executeCycle (.sw rs1 rs2 imm) s storeStep

end Sys2Proof.Machine
end

