-- ==== Sys2Proof/Machine/Fetch.lean ====
section
/-! DEFINITION. The termination tests of a cycle (R232, R233), and placing an instruction word so that the next cycle
executes it (the host's `withFetchWord`, log 10). -/

namespace Sys2Proof.Machine

/-- Natural termination (R232): `pc` has passed the last instruction and all four latches hold bubbles. -/
def finished (s : State) : Bool :=
  decide (s.params.progEnd ≤ s.pc.toNat) && s.ifid.isNone && s.idex.isNone && s.exmem.isNone && s.memwb.isNone

/-- The program with `w` as its word of index `k`, filled up with bubble words where it was shorter. -/
def placeWord (prog : List Word) (k : Nat) (w : Word) : List Word :=
  (prog ++ List.replicate (k + 1 - prog.length) 0).set k w

/-- The state in which the word `w` stands in the program at `pc` and has been fetched and decoded (R228, R227): an
instruction is in ID/EX, its tags set (R220), an unrecognized word is in IF/ID, and `pc` is the next address. The next
cycle executes that instruction. -/
def placeInstruction (s : State) (w : Word) : State :=
  let placed := { s with
    params := { s.params with prog := placeWord s.params.prog (s.pc.toNat / 4) w }
    pc := s.pc + 4 }
  match decodeStage s.params.subset w s.pc with
  | (some d, _) => { placed with ifid := none, idex := some (withTags d s.exmem s.memwb) }
  | (none, true) => { placed with ifid := some ⟨s.pc, w⟩, idex := none }
  | (none, false) => { placed with ifid := none, idex := none }

end Sys2Proof.Machine
end

