-- ==== Sys2Proof/Machine/Step.lean ====
section
/-! DEFINITION. One step of the machine: one clock cycle (R250). -/

namespace Sys2Proof.Machine

/-- `step` (R250). A final state steps to itself (R38, 93_implementation_defined.md I8). A running state that
violates an invariant of R268 is refused. Any other first makes the termination tests (R232, R233), then runs the cycle of the instruction in execute. -/
def step (s : State) : Host.Outcome State Fault Refusal :=
  if s.status ≠ .running then .next s
  else if invariantsHold s = false then .refused .inconsistentState
  else if finished s then .next { s with status := .halted }
  else if s.params.cycleCap ≤ s.cycle then .next { s with status := .nonconvergent }
  else match s.idex with
    | none => bubbleCycle s
    | some d => exec d.instr s

/-- The state with an instruction word placed so that the next step executes it (log 10). -/
def State.withFetchWord (s : State) (nbits w : Nat) : State :=
  placeInstruction s (BitVec.ofNat 32 (w % 2 ^ nbits))

end Sys2Proof.Machine
end

