-- ==== Sys2Proof/Machine/Sequential.lean ====
section
/-! DEFINITION. The reference of R285: "executing the admitted instructions one at a time in program order", with no
pipeline. It is written from the instruction rules, not from the meanings, and states what the pipeline must agree with
(log 13). -/

namespace Sys2Proof.Machine

/-- What a one-at-a-time execution holds: registers, the next instruction's address, data memory, and the address and
word of each diagnostic (R285). -/
structure Arch where
  x : Regs
  pc : Word
  dmem : Memory
  diags : List (Word × Word)
deriving DecidableEq, Repr

/-- What one instruction of a one-at-a-time execution answers. -/
inductive ArchResult where
  | next (a : Arch)
  /-- `pc` has passed the last instruction. -/
  | done
  /-- `FAULT(kind, pc, info)` (R262). -/
  | fault (kind : FaultKind) (pc info : Word)
  /-- There is no word at `pc` (R51). -/
  | stuck
deriving DecidableEq, Repr

/-- On to the following instruction. -/
def archNext (s : Arch) : ArchResult := .next { s with pc := s.pc + 4 }

/-- `x[rd] <- v`, and on. -/
def archSet (s : Arch) (rd : RegIx) (v : Word) : ArchResult := archNext { s with x := Regs.write s.x rd v }

/-- A data access of `n` bytes at `a` (R59, R60), `k` being what follows when it is allowed. -/
def archAccess (p : Params) (s : Arch) (a : Word) (n : Nat) (k : ArchResult) : ArchResult :=
  if a.toNat % n ≠ 0 then .fault .misalignedData s.pc a
  else if p.dmemSize < a.toNat + n then .fault .dmemRange s.pc a
  else k

/-- A branch (R190, R200). -/
def archBranch (p : Params) (s : Arch) (taken : Bool) (imm : Word) : ArchResult :=
  if taken then
    let target := s.pc + imm
    if target.toNat % 4 ≠ 0 then .fault .misalignedTarget s.pc target
    else if p.progEnd < target.toNat then .fault .targetRange s.pc target
    else .next { s with pc := target }
  else archNext s

/-- One instruction, whole: the register it writes, the bytes it stores, where it goes (R131 to R140, R151 to R162, R171
to R179, R191 to R196). -/
def archExec (p : Params) (s : Arch) (i : Instr) : ArchResult :=
  let r := Regs.read s.x
  let b := fun a : Word => Memory.read s.dmem a.toNat
  match i with
  | .add rd rs1 rs2 => archSet s rd (r rs1 + r rs2)
  | .sub rd rs1 rs2 => archSet s rd (r rs1 - r rs2)
  | .sll rd rs1 rs2 => archSet s rd (r rs1 <<< ((r rs2).toNat % 32))
  | .slt rd rs1 rs2 => archSet s rd (if (r rs1).toInt < (r rs2).toInt then 1 else 0)
  | .sltu rd rs1 rs2 => archSet s rd (if (r rs1).toNat < (r rs2).toNat then 1 else 0)
  | .xor rd rs1 rs2 => archSet s rd (r rs1 ^^^ r rs2)
  | .srl rd rs1 rs2 => archSet s rd (r rs1 >>> ((r rs2).toNat % 32))
  | .sra rd rs1 rs2 => archSet s rd ((r rs1).sshiftRight ((r rs2).toNat % 32))
  | .or rd rs1 rs2 => archSet s rd (r rs1 ||| r rs2)
  | .and rd rs1 rs2 => archSet s rd (r rs1 &&& r rs2)
  | .addi rd rs1 imm => archSet s rd (r rs1 + imm)
  | .slti rd rs1 imm => archSet s rd (if (r rs1).toInt < imm.toInt then 1 else 0)
  | .sltiu rd rs1 imm => archSet s rd (if (r rs1).toNat < imm.toNat then 1 else 0)
  | .xori rd rs1 imm => archSet s rd (r rs1 ^^^ imm)
  | .ori rd rs1 imm => archSet s rd (r rs1 ||| imm)
  | .andi rd rs1 imm => archSet s rd (r rs1 &&& imm)
  | .slli rd rs1 imm => archSet s rd (r rs1 <<< imm.toNat)
  | .srli rd rs1 imm => archSet s rd (r rs1 >>> imm.toNat)
  | .srai rd rs1 imm => archSet s rd ((r rs1).sshiftRight imm.toNat)
  | .lb rd rs1 imm =>
    let a := r rs1 + imm
    archAccess p s a 1 (archSet s rd ((b a).signExtend 32))
  | .lh rd rs1 imm =>
    let a := r rs1 + imm
    archAccess p s a 2 (archSet s rd ((b (a + 1) ++ b a).signExtend 32))
  | .lw rd rs1 imm =>
    let a := r rs1 + imm
    archAccess p s a 4 (archSet s rd (b (a + 3) ++ b (a + 2) ++ b (a + 1) ++ b a))
  | .lbu rd rs1 imm =>
    let a := r rs1 + imm
    archAccess p s a 1 (archSet s rd ((b a).setWidth 32))
  | .lhu rd rs1 imm =>
    let a := r rs1 + imm
    archAccess p s a 2 (archSet s rd ((b (a + 1) ++ b a).setWidth 32))
  | .sb rs1 rs2 imm =>
    let a := r rs1 + imm
    archAccess p s a 1 (archNext { s with dmem := Memory.writeLE s.dmem a.toNat (r rs2) .byte })
  | .sh rs1 rs2 imm =>
    let a := r rs1 + imm
    archAccess p s a 2 (archNext { s with dmem := Memory.writeLE s.dmem a.toNat (r rs2) .half })
  | .sw rs1 rs2 imm =>
    let a := r rs1 + imm
    archAccess p s a 4 (archNext { s with dmem := Memory.writeLE s.dmem a.toNat (r rs2) .word })
  | .beq rs1 rs2 imm => archBranch p s (r rs1 == r rs2) imm
  | .bne rs1 rs2 imm => archBranch p s (r rs1 != r rs2) imm
  | .blt rs1 rs2 imm => archBranch p s (decide ((r rs1).toInt < (r rs2).toInt)) imm
  | .bge rs1 rs2 imm => archBranch p s (decide ((r rs2).toInt ≤ (r rs1).toInt)) imm
  | .bltu rs1 rs2 imm => archBranch p s (decide ((r rs1).toNat < (r rs2).toNat)) imm
  | .bgeu rs1 rs2 imm => archBranch p s (decide ((r rs2).toNat ≤ (r rs1).toNat)) imm
  | .lui rd imm => archSet s rd imm
  | .auipc rd imm => archSet s rd (s.pc + imm)

/-- The next word of the program, executed whole: the word 0 does nothing (R95), an unrecognized word leaves a
diagnostic (R265), an instruction has its effect. -/
def archStep (p : Params) (s : Arch) : ArchResult :=
  if p.progEnd ≤ s.pc.toNat then .done
  else match fetchWord p s.pc with
    | none => .stuck
    | some w =>
      match decode p.subset w with
      | .error .bubble => archNext s
      | .error .unrecognized => archNext { s with diags := s.diags ++ [(s.pc, w)] }
      | .ok i => archExec p s i

/-- The state before the first instruction (R280). -/
def archStart (p : Params) : Arch :=
  { x := Regs.ofWords p.initRegs, pc := 0, dmem := Memory.ofCells p.dmemSize p.initDmem, diags := [] }

/-- `n` words executed one at a time, if the execution goes on that long. -/
def archRun (p : Params) : Nat → Arch → Option Arch
  | 0, s => some s
  | n + 1, s =>
    match archStep p s with
    | .next t => archRun p n t
    | _ => none

end Sys2Proof.Machine
end

