-- ==== Sys2Proof/Safety.lean ====
section
/-! DEFINITION. The terms claims are stated in: which states are consistent (R268), what a run is (R283), what a program
can observe of a register (R241), and an instruction on its own in the pipeline. -/

namespace Sys2Proof.Machine

/-! ## Consistent states (R268) -/

/-- The run stopped with `FAULT` (R261). -/
def faulted (s : State) : Bool :=
  match s.status with
  | .fault _ _ _ => true
  | _ => false

/-- What the decoder gave a stage register: its tags and value fields cleared (R111). -/
def plainStage (d : Stage) : Stage :=
  { d with tag1 := .none, tag2 := .none, alu := 0, sdata := 0, mdata := 0 }

/-- A stage register's fields are those the decoder reads from its word (R32, R111, R113, R114). -/
def decodedStage (sub : Subset) (d : Stage) : Bool := (decodeStage sub d.word d.pc).1 == some (plainStage d)

/-- An occupied latch holds the decoded word that stands in the program at its address (R28, R35). -/
def latchSound (p : Params) (l : Option Stage) : Bool :=
  match l with
  | none => true
  | some d => decodedStage p.subset d && fetchWord p d.pc == some d.word

/-- An occupied IF/ID holds a nonzero word of the program (R31, R28). -/
def fetchedSound (s : State) : Bool :=
  match s.ifid with
  | none => true
  | some f => f.word != 0 && fetchWord s.params f.pc == some f.word

/-- ID/EX carries the tags the forwarding unit computes against the present EX/MEM and MEM/WB, and no values yet
(R220, R111). -/
def idexSound (s : State) : Bool :=
  match s.idex with
  | none => true
  | some d => d == withTags (plainStage d) s.exmem s.memwb

/-- `mdata` is 0 in EX/MEM, and in MEM/WB for every non-load (R34). -/
def valuesSound (s : State) : Bool :=
  (match s.exmem with
    | none => true
    | some d => d.mdata == 0)
  && (match s.memwb with
    | none => true
    | some d => d.ctrl.memRead || d.mdata == 0)

/-- The pipeline's part of the invariants of R268. -/
def pipelineSound (s : State) : Bool :=
  pcInProgram s && fetchedSound s && latchSound s.params s.idex && latchSound s.params s.exmem
    && latchSound s.params s.memwb && idexSound s && valuesSound s && exTagNamesNoLoad s

/-- The invariants of R268: launch parameters in their domains (R7), `x[0] = 0` (R235), the data memory in canonical
form within `DMEM_SIZE` (R55), and, unless the run faulted (R263), a sound pipeline. -/
def consistent (s : State) : Bool :=
  s.params.wf && s.x[0] == 0 && Memory.wf s.params.dmemSize s.dmem && (faulted s || pipelineSound s)

/-! ## Runs (R283, R284) -/

/-- The state that `k` steps from `s` answer, if every one of them answers a state. -/
def runTo (k : Nat) (s : State) : Option State :=
  match k with
  | 0 => some s
  | k + 1 =>
    match step s with
    | .next t => runTo k t
    | _ => none

/-- `s` runs, and the next step is a cycle: no invariant of R268 is violated and neither termination test applies (R232,
R233). -/
def mayCycle (s : State) : Prop :=
  s.status = .running ∧ invariantsHold s = true ∧ finished s = false ∧ s.cycle < s.params.cycleCap

/-- The cycle from `s` is completed and leaves `t` (R234): the run goes on. -/
def completes (s t : State) : Prop := mayCycle s ∧ step s = .next t ∧ t.status = .running

/-! ## Registers as a program sees them -/

/-- The value of register `r` once the instructions in EX/MEM and MEM/WB have written theirs: the youngest of the two that
writes `r`, else the register file (R213, R219, R241). A load in EX/MEM has no value yet; see R236. -/
def newestValue (s : State) (r : RegIx) : Word :=
  if r = 0 then 0
  else if writesReg s.exmem r then exValue s
  else if writesReg s.memwb r then memValue s
  else Regs.read s.x r

/-! ## Instruction classes -/

/-- The bytes a load or store moves (R61). -/
def accessBytes : Op → Option Nat
  | .lb => some 1
  | .lh => some 2
  | .lw => some 4
  | .lbu => some 1
  | .lhu => some 2
  | .sb => some 1
  | .sh => some 2
  | .sw => some 4
  | _ => none

/-- The condition of a branch on its two operands (R191 to R196). -/
def branchCondition : Op → Word → Word → Option Bool
  | .beq, a, b => some (decide (a = b))
  | .bne, a, b => some (decide (a ≠ b))
  | .blt, a, b => some (decide (a.toInt < b.toInt))
  | .bge, a, b => some (decide (b.toInt ≤ a.toInt))
  | .bltu, a, b => some (decide (a.toNat < b.toNat))
  | .bgeu, a, b => some (decide (b.toNat ≤ a.toNat))
  | _, _, _ => none

/-- The target of the branch in ID/EX when it is taken (R224): its condition holds on its two operands (R214), and the target
is its own address plus its immediate. -/
def takenTarget (s : State) : Option Word :=
  match s.idex with
  | none => none
  | some d =>
    if d.ctrl.branch && branchCondition d.op (operand1 s d) (operand2 s d) == some true then some (d.pc + d.imm)
    else none

/-- The seven instructions of the CORE subset (R3). -/
def coreOps : List Op := [.add, .addi, .lw, .sw, .beq, .bne, .lui]

/-- A branch target that does not fault (R200). -/
def goodTarget (p : Params) (t : Word) : Prop := t.toNat % 4 = 0 ∧ t.toNat ≤ p.progEnd

/-- R221 by its fields: ID/EX holds the load `x` with a destination that is not `x0`, and the decoded view `c` of IF/ID reads that
register as source 1 or as source 2. -/
def loadUsePair (s : State) (x c : Stage) : Prop :=
  s.idex = some x ∧ (∃ f, s.ifid = some f ∧ decodeStage s.params.subset f.word f.pc = (some c, false)) ∧
  x.ctrl.memRead = true ∧ x.rd ≠ 0 ∧ ((c.uses1 = true ∧ c.rs1 = x.rd) ∨ (c.uses2 = true ∧ c.rs2 = x.rd))

/-! ## What the execute step computes -/

/-- The `result` of an instruction (R117) from its address and its two operands: what it puts in `EXMEM.alu` (R131 to R140, R151 to
R162, R170, R176, R190). Written on numbers, not with the meanings' operations. -/
def executeAlu (i : Instr) (pc a b : Word) : Word :=
  match i with
  | .add _ _ _ => BitVec.ofNat 32 (a.toNat + b.toNat)
  | .sub _ _ _ => BitVec.ofInt 32 (a.toInt - b.toInt)
  | .sll _ _ _ => BitVec.ofNat 32 (a.toNat * 2 ^ (b.toNat % 32))
  | .slt _ _ _ => if a.toInt < b.toInt then 1 else 0
  | .sltu _ _ _ => if a.toNat < b.toNat then 1 else 0
  | .xor _ _ _ => a ^^^ b
  | .srl _ _ _ => BitVec.ofNat 32 (a.toNat / 2 ^ (b.toNat % 32))
  | .sra _ _ _ => BitVec.ofInt 32 (a.toInt / 2 ^ (b.toNat % 32))
  | .or _ _ _ => a ||| b
  | .and _ _ _ => a &&& b
  | .addi _ _ imm => BitVec.ofInt 32 (a.toInt + imm.toInt)
  | .slti _ _ imm => if a.toInt < imm.toInt then 1 else 0
  | .sltiu _ _ imm => if a.toNat < imm.toNat then 1 else 0
  | .xori _ _ imm => a ^^^ imm
  | .ori _ _ imm => a ||| imm
  | .andi _ _ imm => a &&& imm
  | .slli _ _ imm => BitVec.ofNat 32 (a.toNat * 2 ^ imm.toNat)
  | .srli _ _ imm => BitVec.ofNat 32 (a.toNat / 2 ^ imm.toNat)
  | .srai _ _ imm => BitVec.ofInt 32 (a.toInt / 2 ^ imm.toNat)
  | .lb _ _ imm => BitVec.ofInt 32 (a.toNat + imm.toInt)
  | .lh _ _ imm => BitVec.ofInt 32 (a.toNat + imm.toInt)
  | .lw _ _ imm => BitVec.ofInt 32 (a.toNat + imm.toInt)
  | .lbu _ _ imm => BitVec.ofInt 32 (a.toNat + imm.toInt)
  | .lhu _ _ imm => BitVec.ofInt 32 (a.toNat + imm.toInt)
  | .sb _ _ imm => BitVec.ofInt 32 (a.toNat + imm.toInt)
  | .sh _ _ imm => BitVec.ofInt 32 (a.toNat + imm.toInt)
  | .sw _ _ imm => BitVec.ofInt 32 (a.toNat + imm.toInt)
  | .beq _ _ _ => 0
  | .bne _ _ _ => 0
  | .blt _ _ _ => 0
  | .bge _ _ _ => 0
  | .bltu _ _ _ => 0
  | .bgeu _ _ _ => 0
  | .lui _ imm => imm
  | .auipc _ imm => BitVec.ofNat 32 (pc.toNat + imm.toNat)

/-- What an instruction puts in `EXMEM.sdata` (R33): operand 2 of an R-format instruction (R130) or a store (R176), else 0 (R150,
R160, R170, R190). -/
def executeSdata (op : Op) (b : Word) : Word :=
  if op.layout = .r ∨ op.layout = .s then b else 0

/-! ## Retirement accounting (R237) -/

/-- What happened to the words a run fetched: how many non-bubble words entered IF/ID, how many of them a flush discarded, how
many were unrecognized at decode, and how many instructions left MEM/WB through writeback (R12, R237). -/
structure Ledger where
  fetched : Nat
  flushed : Nat
  unrecognized : Nat
  retired : Nat
deriving DecidableEq, Repr

/-- The ledger of the one cycle from `s`, which leaves `t`. -/
def cycleLedger (s t : State) : Ledger :=
  let d := decisionOf s (takenTarget s)
  { fetched := (decide (d = .normal) && t.ifid.isSome).toNat
    flushed := (decide (d ≠ .normal ∧ d ≠ .stall) && s.ifid.isSome).toNat
    unrecognized := (decide (d = .normal) && (candidate s).2).toNat
    retired := s.memwb.isSome.toNat }

/-- The ledger of the completed cycles among `k` steps from `s`. -/
def ledger (k : Nat) (s : State) : Ledger :=
  match k with
  | 0 => ⟨0, 0, 0, 0⟩
  | k + 1 =>
    match step s with
    | .next t =>
      let rest := ledger k t
      if t.cycle = s.cycle then rest
      else
        let now := cycleLedger s t
        ⟨now.fetched + rest.fetched, now.flushed + rest.flushed, now.unrecognized + rest.unrecognized,
          now.retired + rest.retired⟩
    | _ => ⟨0, 0, 0, 0⟩

/-! ## The pipeline beside one-at-a-time execution (R285) -/

/-- Where the correct path goes after the instruction in `e`, on registers `x`: a taken branch's target, else the next word. -/
def nextPc (x : Regs) (e : Stage) : Word :=
  if branchCondition e.op (Regs.read x e.rs1) (Regs.read x e.rs2) = some true then e.pc + e.imm else e.pc + 4

/-- `n` words from address `q` on, none of them an admitted instruction: the address after them, and the address and word of each
unrecognized one. -/
def skipWords (p : Params) : Nat → Word → Option (Word × List (Word × Word))
  | 0, q => some (q, [])
  | n + 1, q =>
    match fetchWord p q with
    | none => none
    | some w =>
      match decode p.subset w with
      | .ok _ => none
      | .error .bubble => skipWords p n (q + 4)
      | .error .unrecognized => (skipWords p n (q + 4)).map fun r => (r.1, (q, w) :: r.2)

/-- The address the decode step comes to next: IF/ID's word, or else the word to fetch. -/
def decodePc (s : State) : Word :=
  match s.ifid with
  | none => s.pc
  | some f => f.pc

/-- The one-at-a-time state `a` stands just before the instruction in EX/MEM (log 13). Its registers are those after writeback, its data
memory the machine's. EX/MEM holds what that instruction computes on those registers; from where it goes on, `n` words that are no
instruction lead to the instruction in ID/EX, and from the word after that, `m` words 0 lead to decode, which fetch follows. The
machine's diagnostics are those of `a` and of the `n` words. -/
def tracks (s : State) (a : Arch) : Prop :=
  a.x = writeback s ∧ a.dmem = s.dmem ∧ (∀ f, s.ifid = some f → s.pc = f.pc + 4) ∧
  ∃ (q : Word) (n m : Nat) (ds : List (Word × Word)),
    (s.exmem = none → a.pc = q) ∧
    (∀ e, s.exmem = some e →
      a.pc = e.pc ∧ q = nextPc a.x e ∧ goodTarget s.params q ∧
      e.alu = executeAlu e.instr e.pc (Regs.read a.x e.rs1) (Regs.read a.x e.rs2) ∧
      e.sdata = executeSdata e.op (Regs.read a.x e.rs2)) ∧
    (s.diags.map fun g => (g.pc, g.word)) = a.diags ++ ds ∧
    (s.idex = none → skipWords s.params n q = some (decodePc s, ds)) ∧
    (∀ d, s.idex = some d →
      skipWords s.params n q = some (d.pc, ds) ∧ skipWords s.params m (d.pc + 4) = some (decodePc s, []))

/-! ## One instruction on its own in the pipeline -/

/-- Instruction `i` stands decoded in ID/EX as `d`; every other latch is a bubble; nothing is left to fetch; and the run
may go on for three more cycles. -/
def alone (s : State) (i : Instr) (d : Stage) : Prop :=
  s.status = .running ∧ invariantsHold s = true ∧ s.ifid = none ∧ s.idex = some d ∧ s.exmem = none ∧ s.memwb = none ∧
  s.params.progEnd ≤ s.pc.toNat ∧ s.cycle + 3 ≤ s.params.cycleCap ∧
  decodedStage s.params.subset d = true ∧ d.instr = i ∧ d.tag1 = .none ∧ d.tag2 = .none

/-- The pipeline has drained and the run goes on: three cycles after `s`, same `pc`, same diagnostics. -/
def drainedAfter (s t : State) : Prop :=
  t.status = .running ∧ t.cycle = s.cycle + 3 ∧ t.pc = s.pc ∧ t.diags = s.diags ∧ t.params = s.params ∧
  t.ifid = none ∧ t.idex = none ∧ t.exmem = none ∧ t.memwb = none

/-- `exec i s` answers a next state whose EX/MEM holds `alu` and `sdata` (the execute step); two more steps, the memory step
and the writeback step, complete; and then register `rd`, unless it is `x0`, holds `v`, every other register and every byte
of data memory is as it was in `s`. -/
def retiresTo (s : State) (i : Instr) (alu sdata : Word) (rd : RegIx) (v : Word) : Prop :=
  ∃ t₁ t₂ t₃ : State, exec i s = .next t₁ ∧ step t₁ = .next t₂ ∧ step t₂ = .next t₃ ∧
    (∃ e, t₁.exmem = some e ∧ e.alu = alu ∧ e.sdata = sdata) ∧
    (∀ r, Regs.read t₃.x r = if r = rd ∧ r ≠ 0 then v else Regs.read s.x r) ∧
    (∀ a, Memory.read t₃.dmem a = Memory.read s.dmem a) ∧
    drainedAfter s t₃

/-- `exec i s` answers a next state whose EX/MEM holds the effective address and the store data; the next step, the memory
step, stores the low `n` bytes of `v` at address `a`, byte `a + k` being `v[8k+7:8k]`, and no other byte changes; the step
after it completes; and every register is as it was in `s`. -/
def storesTo (s : State) (i : Instr) (a : Word) (n : Nat) (v : Word) : Prop :=
  ∃ t₁ t₂ t₃ : State, exec i s = .next t₁ ∧ step t₁ = .next t₂ ∧ step t₂ = .next t₃ ∧
    (∃ e, t₁.exmem = some e ∧ e.alu = a ∧ e.sdata = v) ∧
    (∀ k, k < n → Memory.read t₂.dmem (a.toNat + k) = v.extractLsb' (8 * k) 8) ∧
    (∀ k, k < a.toNat ∨ a.toNat + n ≤ k → Memory.read t₂.dmem k = Memory.read s.dmem k) ∧
    t₃.dmem = t₂.dmem ∧
    (∀ r, Regs.read t₃.x r = Regs.read s.x r) ∧
    drainedAfter s t₃

/-- The branch `i` on its own with condition `taken`. Taken to a good target: `exec i s` answers a next state with `pc` at
`target`, IF/ID and ID/EX flushed. Not taken: `exec i s` answers a next state with `pc` where it was. Either way EX/MEM holds
the branch with value fields 0, and no register, byte or diagnostic changes. -/
def branchesTo (s : State) (i : Instr) (d : Stage) (taken : Prop) (target : Word) : Prop :=
  ((taken ∧ goodTarget s.params target) ∨ ¬ taken →
    ∃ t : State, exec i s = .next t ∧ t.exmem = some { d with alu := 0, sdata := 0 } ∧
      t.ifid = none ∧ t.idex = none ∧ t.memwb = none ∧ t.x = s.x ∧ t.dmem = s.dmem ∧ t.diags = s.diags ∧
      t.status = .running ∧ t.cycle = s.cycle + 1 ∧
      (taken → t.pc = target) ∧ (¬ taken → t.pc = s.pc))

end Sys2Proof.Machine
end

