-- ==== Sys2Proof/Certificates/Slice0/Obligations.lean ====
section
/-! DEFINITION. The statements for the provers. -/

open Sys2Proof Sys2Proof.Machine

/-! ## Encoding and decoding -/

/-- R104: decoding an encoded instruction gives it back, for every instruction the subset admits and every operand its
encoding admits. -/
def Obligations.DecodeInvertsEncode : Prop :=
  ∀ (sub : Subset) (i : Instr), (sub = .full ∨ i.op ∈ coreOps) → i.wf = true →
    ∃ w, encode i = some w ∧ decode sub w = .ok i

/-- R97, R101: a word that decodes to an instruction is that instruction's only word, and the instruction is well
formed. -/
def Obligations.EncodeInvertsDecode : Prop :=
  ∀ (sub : Subset) (w : Word) (i : Instr), decode sub w = .ok i → i.wf = true ∧ encode i = some w

/-- R94: the rows are pairwise disjoint. -/
def Obligations.NoWordMatchesTwoRows : Prop :=
  rows.length = 35 ∧
  ∀ (w : Word) (q r : Row), q ∈ rows → r ∈ rows → q.accepts w = true → r.accepts w = true → q = r

/-- R3, R96: CORE admits the words of its seven instructions and no other word. -/
def Obligations.CoreAdmitsItsSevenInstructions : Prop :=
  ∀ (w : Word) (i : Instr), decode .core w = .ok i ↔ decode .full w = .ok i ∧ i.op ∈ coreOps

/-- R99: the families the hardware lacks are unrecognized, under both subsets. -/
def Obligations.AbsentFamiliesAreUnrecognized : Prop :=
  ∀ (sub : Subset) (w : Word), w ≠ 0 →
    (opcodeOf w ∈ [0x6F#7, 0x67#7, 0x0F#7, 0x73#7, 0x2F#7, 0x07#7, 0x27#7, 0x0B#7, 0x2B#7, 0x5B#7, 0x7B#7]
      ∨ (0x43 ≤ (opcodeOf w).toNat ∧ (opcodeOf w).toNat ≤ 0x53)
      ∨ (opcodeOf w = 0x33#7 ∧ funct7Of w = 1#7)
      ∨ w.extractLsb' 0 2 ≠ 3#2) →
    decode sub w = .error .unrecognized

/-- Words written out from the layouts of R82 to R87, one of each, decode to their instructions (R110). -/
def Obligations.WrittenOutWordsDecode : Prop :=
  decode .full 0b0100000_00010_00001_000_00011_0110011#32 = .ok (.sub 3 1 2) ∧
  decode .full 0b111111111111_00001_000_00011_0010011#32 = .ok (.addi 3 1 (-1)) ∧
  decode .full 0b0100000_00100_00001_101_00011_0010011#32 = .ok (.srai 3 1 4) ∧
  decode .full 0b000000000010_00010_001_00011_0000011#32 = .ok (.lh 3 2 2) ∧
  decode .full 0b1000000_11111_11111_010_00000_0100011#32 = .ok (.sw 31 31 (-2048)) ∧
  decode .full 0b1_111111_00010_00001_001_1100_1_1100011#32 = .ok (.bne 1 2 (-8)) ∧
  decode .full 0b00010010001101000101_00011_0110111#32 = .ok (.lui 3 0x12345000)

/-- R111, R113, R114: what the decoder puts in a stage register: the operation of the admitted row the word matches, and, format by
format, the fields from the bits of the word, 0 where the
format has none, the control signals, the sources it reads, tags NONE and value fields 0. -/
def Obligations.DecodedStageFollowsItsFormat : Prop :=
  ∀ (sub : Subset) (w pc : Word) (d : Stage) (dg : Bool), decodeStage sub w pc = (some d, dg) →
    let has := fun (rd rs1 rs2 : RegIx) (f3 : BitVec 3) (f7 : BitVec 7) (imm : Word) =>
      d.rd = rd ∧ d.rs1 = rs1 ∧ d.rs2 = rs2 ∧ d.funct3 = f3 ∧ d.funct7 = f7 ∧ d.imm = imm
    let rd := w.extractLsb' 7 5
    let f3 := w.extractLsb' 12 3
    let rs1 := w.extractLsb' 15 5
    let rs2 := w.extractLsb' 20 5
    let f7 := w.extractLsb' 25 7
    (∃ r ∈ rows, sub.admits r = true ∧ r.accepts w = true ∧ r.op = d.op) ∧
    dg = false ∧ d.pc = pc ∧ d.word = w ∧ d.tag1 = .none ∧ d.tag2 = .none ∧ d.alu = 0 ∧ d.sdata = 0 ∧ d.mdata = 0 ∧
    match d.fmt with
    | .r => d.op ∈ [Op.add, .sub, .sll, .slt, .sltu, .xor, .srl, .sra, .or, .and] ∧ has rd rs1 rs2 f3 f7 0 ∧
        d.ctrl = ⟨true, false, false, false, false, false⟩ ∧ d.uses1 = true ∧ d.uses2 = true
    | .i => d.ctrl = ⟨true, true, false, false, false, false⟩ ∧ d.uses1 = true ∧ d.uses2 = false ∧
        ((d.op ∈ [Op.addi, .slti, .sltiu, .xori, .ori, .andi] ∧ has rd rs1 0 f3 0 ((w.extractLsb' 20 12).signExtend 32)) ∨
          (d.op ∈ [Op.slli, .srli, .srai] ∧ has rd rs1 0 f3 f7 ((w.extractLsb' 20 5).setWidth 32)))
    | .l => d.op ∈ [Op.lb, .lh, .lw, .lbu, .lhu] ∧ has rd rs1 0 f3 0 ((w.extractLsb' 20 12).signExtend 32) ∧
        d.ctrl = ⟨true, true, true, false, true, false⟩ ∧ d.uses1 = true ∧ d.uses2 = false
    | .s => d.op ∈ [Op.sb, .sh, .sw] ∧ has 0 rs1 rs2 f3 0 ((f7 ++ rd).signExtend 32) ∧
        d.ctrl = ⟨false, true, false, true, false, false⟩ ∧ d.uses1 = true ∧ d.uses2 = true
    | .b => d.op ∈ [Op.beq, .bne, .blt, .bge, .bltu, .bgeu] ∧
        has 0 rs1 rs2 f3 0 ((w.extractLsb' 31 1 ++ w.extractLsb' 7 1 ++ w.extractLsb' 25 6 ++ w.extractLsb' 8 4 ++
          0#1).signExtend 32) ∧
        d.ctrl = ⟨false, false, false, false, false, true⟩ ∧ d.uses1 = true ∧ d.uses2 = true
    | .u => d.op ∈ [Op.lui, .auipc] ∧ has rd 0 0 0 0 (w.extractLsb' 12 20 ++ 0#12) ∧
        d.ctrl = ⟨true, true, false, false, false, false⟩ ∧ d.uses1 = false ∧ d.uses2 = false

/-- R115: stores and branches have no destination and are never a forwarding source nor a hazard source, bits 11..7 of their words
being immediate bits; U-format instructions never take a forwarded value and never stall. -/
def Obligations.DestinationsAndSourcesByFormat : Prop :=
  ∀ (sub : Subset) (w pc : Word) (d : Stage) (dg : Bool), decodeStage sub w pc = (some d, dg) →
    ((d.fmt = .s ∨ d.fmt = .b) → d.rd = 0 ∧ d.ctrl.regWrite = false ∧
      (∀ r, writesReg (some d) r = false) ∧ (∀ c, hazard c (some d) = false)) ∧
    (d.fmt = .s → d.imm.extractLsb' 0 5 = w.extractLsb' 7 5) ∧
    (d.fmt = .b → d.imm.extractLsb' 1 4 = w.extractLsb' 8 4 ∧ d.imm.extractLsb' 11 1 = w.extractLsb' 7 1) ∧
    (d.fmt = .u → (∀ e m, (withTags d e m).tag1 = .none ∧ (withTags d e m).tag2 = .none) ∧
      (∀ x, hazard (some d) x = false))

/-! ## Registers and data memory -/

/-- R21: register 0 reads 0 whatever is stored, a write of it has no effect, and a write of another register changes that
register alone. -/
def Obligations.RegisterZeroIsHardWired : Prop :=
  ∀ (x : Regs) (v : Word), Regs.read x 0 = 0 ∧ Regs.write x 0 v = x ∧
    ∀ i j : RegIx, i ≠ 0 → Regs.read (Regs.write x i v) j = if j = i then v else Regs.read x j

/-- R57: the two checks in their order, and then the bytes, byte `a` least significant. -/
def Obligations.MemReadChecksThenReads : Prop :=
  ∀ (s : State) (pc a : Word) (n : Width),
    (a.toNat % n.bytes ≠ 0 → memRead s pc a n = .error (.raise .misalignedData pc a)) ∧
    (a.toNat % n.bytes = 0 → s.params.dmemSize < a.toNat + n.bytes →
      memRead s pc a n = .error (.raise .dmemRange pc a)) ∧
    (a.toNat % n.bytes = 0 → a.toNat + n.bytes ≤ s.params.dmemSize →
      ∃ v, memRead s pc a n = .ok v ∧ v.toNat < 2 ^ (8 * n.bytes) ∧
        ∀ k, k < n.bytes → v.extractLsb' (8 * k) 8 = Memory.read s.dmem (a.toNat + k))

/-- R58: the same checks in the same order, and then the bytes stored; no other byte changes. -/
def Obligations.MemWriteChecksThenWrites : Prop :=
  ∀ (s : State) (pc a : Word) (n : Width) (v : Word),
    (a.toNat % n.bytes ≠ 0 → memWrite s pc a n v = .error (.raise .misalignedData pc a)) ∧
    (a.toNat % n.bytes = 0 → s.params.dmemSize < a.toNat + n.bytes →
      memWrite s pc a n v = .error (.raise .dmemRange pc a)) ∧
    (Memory.wf s.params.dmemSize s.dmem = true → a.toNat % n.bytes = 0 → a.toNat + n.bytes ≤ s.params.dmemSize →
      ∃ m, memWrite s pc a n v = .ok m ∧ Memory.wf s.params.dmemSize m = true ∧
        (∀ k, k < n.bytes → Memory.read m (a.toNat + k) = v.extractLsb' (8 * k) 8) ∧
        (∀ k, k < a.toNat ∨ a.toNat + n.bytes ≤ k → Memory.read m k = Memory.read s.dmem k))

/-- R65, R67: a load of bytes that a store wrote sees them in little-endian order: reading `n` aligned bytes at offset `k`
inside a stored `m`-byte value gives that part of the value. -/
def Obligations.LoadAfterStoreReadsTheStoredBytes : Prop :=
  ∀ (s : State) (pc pc' a b : Word) (m n : Width) (v : Word) (mem : Memory) (k : Nat),
    Memory.wf s.params.dmemSize s.dmem = true →
    memWrite s pc a m v = .ok mem → b.toNat = a.toNat + k → k % n.bytes = 0 → k + n.bytes ≤ m.bytes →
      ∃ r, memRead { s with dmem := mem } pc' b n = .ok r ∧ r.toNat < 2 ^ (8 * n.bytes) ∧
        ∀ j, j < n.bytes → r.extractLsb' (8 * j) 8 = v.extractLsb' (8 * (k + j)) 8

/-! ## Reset -/

/-- R280, R42: the state at the start of a run, for launch parameters in their domains. -/
def Obligations.LaunchGivesTheResetState : Prop :=
  ∀ p : Params, p.wf = true →
    let s := State.launch p
    (∀ i : RegIx, Regs.read s.x i = p.initRegs[i.toNat]'i.isLt) ∧ Regs.read s.x 0 = 0 ∧ s.pc = 0 ∧
    s.ifid = none ∧ s.idex = none ∧ s.exmem = none ∧ s.memwb = none ∧
    ((p.initDmem.map Prod.fst).Nodup → (∀ c ∈ p.initDmem, Memory.read s.dmem c.1 = c.2) ∧
      (∀ a, a ∉ p.initDmem.map Prod.fst → Memory.read s.dmem a = 0)) ∧
    s.cycle = 0 ∧ s.status = .running ∧ s.diags = [] ∧ s.trace = [] ∧ s.params = p

/-- The reset state is consistent. -/
def Obligations.ResetStateIsConsistent : Prop := consistent State.reset = true

/-- Every launch state is consistent (R268, R42). -/
def Obligations.LaunchStatesAreConsistent : Prop := ∀ p : Params, p.wf = true → consistent (State.launch p) = true

/-! ## Invariants -/

/-- R268: every step from a consistent state answers a consistent state. Of a next state that has faulted, where R263 leaves `x` and
`dmem` unspecified, that `x[0]` is 0 and that the data memory is in form within `DMEM_SIZE` is the model's choice (log 9). -/
def Obligations.EveryStepKeepsConsistency : Prop :=
  ∀ s t : State, consistent s = true → step s = .next t → consistent t = true

/-- R268: a consistent state is never stuck: its step answers a state, not a fault or a refusal of the model. -/
def Obligations.ConsistentStatesAlwaysStep : Prop :=
  ∀ s : State, consistent s = true → ∃ t, step s = .next t

/-- R235, R21: no step changes register 0. Of a step that faults, after which R263 leaves `x` unspecified, this is the model's choice
(log 9). -/
def Obligations.RegisterZeroNeverChanges : Prop :=
  ∀ s t : State, s.x[0] = 0 → step s = .next t → t.x[0] = 0 ∧ Regs.read t.x 0 = 0

/-- R27: along every run `pc` is a multiple of 4 in `[0, 4N]`; and R236: an EX tag never names a load. After a fault both are
unspecified (R263). -/
def Obligations.RunsKeepPcInProgramAndExTagsOffLoads : Prop :=
  ∀ (p : Params) (k : Nat) (t : State), p.wf = true → runTo k (State.launch p) = some t → faulted t = false →
    t.pc.toNat % 4 = 0 ∧ t.pc.toNat ≤ 4 * p.prog.length ∧
    ∀ d e, t.idex = some d → t.exmem = some e → (d.tag1 = .ex ∨ d.tag2 = .ex) → e.ctrl.memRead = false

/-- R43: the program and the other launch parameters are never written. -/
def Obligations.LaunchParametersAreNeverWritten : Prop :=
  ∀ s t : State, step s = .next t → t.params = s.params

/-! ## The step -/

/-- A step runs the decoded instruction: when ID/EX holds the decoded word of instruction `i`, the run goes on and the cycle cap
is not reached, the step is `exec` of `i`. -/
def Obligations.StepRunsTheInstructionInExecute : Prop :=
  ∀ (s : State) (d : Stage) (i : Instr), s.status = .running → s.cycle < s.params.cycleCap →
    s.idex = some d → decodedStage s.params.subset d = true → decode s.params.subset d.word = .ok i →
      step s = exec i s

/-- R288: a word fetched in one completed NORMAL cycle and not stalled or flushed is in ID/EX two cycles later, and the third
step executes the instruction it decodes to. -/
def Obligations.FetchedWordExecutesTwoCyclesLater : Prop :=
  ∀ (s t u : State) (w : Word) (i : Instr), completes s t → completes t u →
    decisionOf s (takenTarget s) = .normal → decisionOf t (takenTarget t) = .normal →
    s.pc.toNat < s.params.progEnd → fetchWord s.params s.pc = some w → decode s.params.subset w = .ok i →
    u.cycle < u.params.cycleCap →
      t.ifid = some ⟨s.pc, w⟩ ∧ (∃ d, u.idex = some d ∧ d.pc = s.pc ∧ d.word = w ∧ d.instr = i) ∧ step u = exec i u

/-- The host's placed word (log 10): from reset, the step after placing the word of a well-formed instruction executes it. -/
def Obligations.PlacedWordRunsNext : Prop :=
  ∀ (i : Instr) (w : Word), encode i = some w →
    step (State.reset.withFetchWord 32 w.toNat) = exec i (State.reset.withFetchWord 32 w.toNat)

/-- R268: a running state that violates an invariant the rule lists is refused, by `step` and by every meaning. -/
def Obligations.InconsistentStatesAreRefused : Prop :=
  ∀ s : State, s.status = .running →
    (s.x[0] ≠ 0 ∨ s.pc.toNat % 4 ≠ 0 ∨ s.params.progEnd < s.pc.toNat ∨ (∃ f, s.ifid = some f ∧ f.word = 0)
      ∨ (∃ d e, s.idex = some d ∧ s.exmem = some e ∧ e.ctrl.memRead = true ∧ (d.tag1 = .ex ∨ d.tag2 = .ex))) →
    step s = .refused .inconsistentState ∧ ∀ d, s.idex = some d → exec d.instr s = .refused .inconsistentState

/-- R232, R233: the termination tests, HALTED before the cap, and nothing else changes. -/
def Obligations.TerminationTests : Prop :=
  ∀ s : State, s.status = .running → invariantsHold s = true →
    ((s.params.progEnd ≤ s.pc.toNat ∧ s.ifid = none ∧ s.idex = none ∧ s.exmem = none ∧ s.memwb = none) →
      step s = .next { s with status := .halted }) ∧
    (¬ (s.params.progEnd ≤ s.pc.toNat ∧ s.ifid = none ∧ s.idex = none ∧ s.exmem = none ∧ s.memwb = none) →
      s.params.cycleCap ≤ s.cycle → step s = .next { s with status := .nonconvergent })

/-- R38: once the status is final, no further cycle runs. -/
def Obligations.FinalStatesStay : Prop := ∀ s : State, s.status ≠ .running → step s = .next s

/-- R240: every run stops: within `CYCLE_CAP` cycles and one step, in HALTED, in NONCONVERGENT at the cap, or in FAULT. -/
def Obligations.EveryRunStops : Prop :=
  ∀ p : Params, p.wf = true → ∃ t : State,
    Host.Core.run Sys2Proof.core (p.cycleCap + 1) (State.launch p) = .next t ∧ t.cycle ≤ p.cycleCap ∧
      (t.status = .halted ∨ (t.status = .nonconvergent ∧ t.cycle = p.cycleCap) ∨ faulted t = true)

/-- R237: in a run that halts, the instructions retired by writeback are the non-bubble words fetched into IF/ID, less those
discarded by flushes, less the unrecognized words. -/
def Obligations.RetiredIsFetchedLessDiscarded : Prop :=
  ∀ (p : Params) (k : Nat) (t : State), p.wf = true → runTo k (State.launch p) = some t → t.status = .halted →
    let l := ledger k (State.launch p)
    l.retired + l.flushed + l.unrecognized = l.fetched

/-- R285: for every program, the final registers, data memory and diagnostics of a HALTED run, and the fault of a faulting run,
are those of executing the admitted instructions one at a time in program order. -/
def Obligations.PipelineAgreesWithSequentialExecution : Prop :=
  ∀ (p : Params) (k : Nat) (t : State), p.wf = true → runTo k (State.launch p) = some t →
    (t.status = .halted → ∃ n u, archRun p n (archStart p) = some u ∧ archStep p u = .done ∧
      u.x = t.x ∧ u.dmem = t.dmem ∧ u.diags = t.diags.map fun g => (g.pc, g.word)) ∧
    (∀ kind pc info, t.status = .fault kind pc info →
      ∃ n u, archRun p n (archStart p) = some u ∧ archStep p u = .fault kind pc info)

/-- R285, the start: before cycle 1 the pipeline stands beside the one-at-a-time execution before its first instruction. -/
def Obligations.LaunchTracksSequentialExecution : Prop :=
  ∀ p : Params, p.wf = true → tracks (State.launch p) (archStart p)

/-- R285, the step: a completed cycle keeps the relation between the pipeline and one-at-a-time execution, which meanwhile executes
some number of whole words. -/
def Obligations.EveryCycleTracksSequentialExecution : Prop :=
  ∀ (s t : State) (a : Arch), consistent s = true → tracks s a → completes s t →
    ∃ n b, archRun s.params n a = some b ∧ tracks t b

/-- R285, the end: where the relation holds, a pipeline that has finished stands beside an execution that comes to its end with the
same registers, data memory and diagnostics, and a cycle that faults beside one that comes to the same fault. -/
def Obligations.TrackedRunsEndTogether : Prop :=
  ∀ (s : State) (a : Arch), consistent s = true → s.status = .running → tracks s a →
    (finished s = true → ∃ n b, archRun s.params n a = some b ∧ archStep s.params b = .done ∧
      b.x = s.x ∧ b.dmem = s.dmem ∧ b.diags = s.diags.map fun g => (g.pc, g.word)) ∧
    (∀ t kind pc info, step s = .next t → t.status = .fault kind pc info →
      ∃ n b, archRun s.params n a = some b ∧ archStep s.params b = .fault kind pc info)

/-! ## The stages of a completed cycle -/

/-- R212, R22: in a completed cycle a register changes only if the instruction in MEM/WB writes it, and then holds that
instruction's writeback value. -/
def Obligations.RegistersChangeOnlyByWriteback : Prop :=
  ∀ s t : State, completes s t → ∀ r : RegIx,
    Regs.read t.x r = if writesReg s.memwb r then memValue s else Regs.read s.x r

/-- R216, R170 to R175: a load in EX/MEM leaves in MEM/WB what it read, extended as its rule says; an instruction that is no load
leaves `mdata` 0; every other field is copied. -/
def Obligations.MemoryStepLoads : Prop :=
  ∀ (s t : State) (e : Stage), completes s t → s.exmem = some e → decodedStage s.params.subset e = true →
    let b := fun k => Memory.read s.dmem (e.alu.toNat + k)
    ∃ v, t.memwb = some { e with mdata := v } ∧
      (e.op = .lb → v = BitVec.ofInt 32 (b 0).toInt) ∧
      (e.op = .lh → v = BitVec.ofInt 32 (b 1 ++ b 0).toInt) ∧
      (e.op = .lw → v = b 3 ++ b 2 ++ b 1 ++ b 0) ∧
      (e.op = .lbu → v = BitVec.ofNat 32 (b 0).toNat) ∧
      (e.op = .lhu → v = BitVec.ofNat 32 (b 1 ++ b 0).toNat) ∧
      (e.ctrl.memRead = false → v = 0)

/-- R216, R176 to R179: in a completed cycle the data memory changes only by the store in EX/MEM, in exactly the bytes it
stores. -/
def Obligations.MemoryStepStores : Prop :=
  ∀ s t : State, completes s t → Memory.wf s.params.dmemSize s.dmem = true →
    (s.exmem = none → t.dmem = s.dmem ∧ t.memwb = none) ∧
    ∀ e, s.exmem = some e → decodedStage s.params.subset e = true →
      (e.ctrl.memWrite = false → t.dmem = s.dmem) ∧
      ∀ n, e.ctrl.memWrite = true → accessBytes e.op = some n →
        (∀ k, k < n → Memory.read t.dmem (e.alu.toNat + k) = e.sdata.extractLsb' (8 * k) 8) ∧
        (∀ a, a < e.alu.toNat ∨ e.alu.toNat + n ≤ a → Memory.read t.dmem a = Memory.read s.dmem a)

/-- R28, R217: in a completed cycle the instruction in ID/EX moves to EX/MEM with its address, word, decoded fields, control
signals and tags unchanged, and a bubble moves as a bubble. -/
def Obligations.ExecuteMovesIdExToExMem : Prop :=
  ∀ s t : State, completes s t →
    (s.idex = none → t.exmem = none) ∧
    ∀ d, s.idex = some d → ∃ alu sdata, t.exmem = some { d with alu := alu, sdata := sdata }

/-- R230: what the decision sets, for each of its four rows: `pc`, IF/ID, ID/EX (whose tags are R220's) and the diagnostics. -/
def Obligations.DecisionSetsTheFrontEnd : Prop :=
  ∀ s t : State, completes s t →
    match decisionOf s (takenTarget s) with
    | .normal =>
      t.idex = ((candidate s).1.map fun d => withTags d t.exmem t.memwb) ∧
      t.diags = s.diags ++ diagOf s t.cycle ∧
      (s.pc.toNat < s.params.progEnd → t.pc = s.pc + 4 ∧
        ∃ w, fetchWord s.params s.pc = some w ∧ t.ifid = if w = 0 then none else some ⟨s.pc, w⟩) ∧
      (s.params.progEnd ≤ s.pc.toNat → t.pc = s.pc ∧ t.ifid = none)
    | .stall => t.pc = s.pc ∧ t.ifid = s.ifid ∧ t.idex = none ∧ t.diags = s.diags
    | .flush target => t.pc = target ∧ t.ifid = none ∧ t.idex = none ∧ t.diags = s.diags

/-- R220: at the end of a completed cycle ID/EX carries the tags computed against the new EX/MEM and MEM/WB; EX/MEM and MEM/WB carry
the tags their instructions had. -/
def Obligations.TagsFollowTheNewLatches : Prop :=
  ∀ s t : State, completes s t →
    (∀ d, t.idex = some d → d.tag1 = forwardTag d.uses1 d.rs1 t.exmem t.memwb ∧
      d.tag2 = forwardTag d.uses2 d.rs2 t.exmem t.memwb) ∧
    (∀ d e, s.idex = some d → t.exmem = some e → e.tag1 = d.tag1 ∧ e.tag2 = d.tag2) ∧
    (∀ e m, s.exmem = some e → t.memwb = some m → m.tag1 = e.tag1 ∧ m.tag2 = e.tag2)

/-- R246: a completed cycle counts one and appends between one and four records of its own number; the record is a
placeholder exactly when no latch is occupied. -/
def Obligations.CompletedCycleAppendsOneToFourRecords : Prop :=
  ∀ s t : State, completes s t → t.cycle = s.cycle + 1 ∧ ∃ rs, t.trace = s.trace ++ rs ∧
    1 ≤ rs.length ∧ rs.length ≤ 4 ∧
    (∀ r ∈ rs, match r with
      | .slot q => q.cycle = t.cycle
      | .placeholder c => c = t.cycle) ∧
    (rs = [.placeholder t.cycle] ↔ t.ifid = none ∧ t.idex = none ∧ t.exmem = none ∧ t.memwb = none)

/-- R245 to R247: a completed cycle appends to the trace exactly one record for each occupied latch, in the order IF/ID, ID/EX, EX/MEM,
MEM/WB, each with the latch's address, word, operation, function and register fields, control signals and tags; and exactly the
placeholder when no latch is occupied. -/
def Obligations.TraceShowsTheOccupiedLatches : Prop :=
  ∀ s t : State, completes s t →
    let stage := fun (l : Latch) (d : Stage) (tag1 tag2 : Tag) => TraceRecord.slot ⟨t.cycle, d.pc, d.word, l, some d.op,
      d.word.extractLsb' 0 7, d.funct3, d.funct7, d.rd, d.rs1, d.rs2, d.ctrl, tag1, tag2⟩
    let unrecognized := fun f : Fetched => TraceRecord.slot ⟨t.cycle, f.pc, f.word, .ifid, none, f.word.extractLsb' 0 7,
      0, 0, 0, 0, 0, ⟨false, false, false, false, false, false⟩, .none, .none⟩
    ∃ r₁ r₂ r₃ r₄ : List TraceRecord,
      t.trace = s.trace ++ (if r₁ ++ r₂ ++ r₃ ++ r₄ = [] then [.placeholder t.cycle] else r₁ ++ r₂ ++ r₃ ++ r₄) ∧
      (t.ifid = none → r₁ = []) ∧
      (∀ f, t.ifid = some f →
        (decode t.params.subset f.word = .error .unrecognized ∧ r₁ = [unrecognized f]) ∨
        (∃ d, decodeStage t.params.subset f.word f.pc = (some d, false) ∧ r₁ = [stage .ifid d .none .none])) ∧
      (t.idex = none → r₂ = []) ∧ (∀ d, t.idex = some d → r₂ = [stage .idex d d.tag1 d.tag2]) ∧
      (t.exmem = none → r₃ = []) ∧ (∀ d, t.exmem = some d → r₃ = [stage .exmem d d.tag1 d.tag2]) ∧
      (t.memwb = none → r₄ = []) ∧ (∀ d, t.memwb = some d → r₄ = [stage .memwb d d.tag1 d.tag2])

/-! ## Hazards, forwarding, flush -/

/-- R214, R218, R219, R236: in a consistent state each operand of the instruction in ID/EX is the newest value of its register, and
0 for a source it does not use. -/
def Obligations.OperandsAreTheNewestValues : Prop :=
  ∀ (s : State) (d : Stage), consistent s = true → faulted s = false → s.idex = some d →
    operand1 s d = (if d.uses1 then newestValue s d.rs1 else 0) ∧
    operand2 s d = (if d.uses2 then newestValue s d.rs2 else 0)

/-- R215: where the tag is MEM, the forwarded value equals what writeback has just put in the register file. -/
def Obligations.MemTagAgreesWithWriteback : Prop :=
  ∀ (s : State) (d : Stage), consistent s = true → faulted s = false → s.idex = some d →
    (d.tag1 = .mem → memValue s = Regs.read (writeback s) d.rs1) ∧
    (d.tag2 = .mem → memValue s = Regs.read (writeback s) d.rs2)

/-- R221, R222: in a consistent state of a run that has not faulted, the decision is STALL exactly when the instruction in ID/EX is a load
with a destination that is not `x0` and the candidate in IF/ID reads that register; then `pc` and IF/ID are held, a bubble goes into
ID/EX, and the load moves on into EX/MEM, with no diagnostic. -/
def Obligations.LoadUseHazardStalls : Prop :=
  ∀ s : State, consistent s = true → faulted s = false →
    (decisionOf s (takenTarget s) = .stall ↔ ∃ x c : Stage, s.idex = some x ∧
      (∃ f, s.ifid = some f ∧ decodeStage s.params.subset f.word f.pc = (some c, false)) ∧
      x.ctrl.memRead = true ∧ x.rd ≠ 0 ∧ ((c.uses1 = true ∧ c.rs1 = x.rd) ∨ (c.uses2 = true ∧ c.rs2 = x.rd))) ∧
    ∀ (t : State) (x c : Stage), completes s t → loadUsePair s x c →
      t.pc = s.pc ∧ t.ifid = s.ifid ∧ t.idex = none ∧ t.diags = s.diags ∧
      ∃ e, t.exmem = some e ∧ e.pc = x.pc ∧ e.word = x.word ∧ e.ctrl.memRead = true

/-- R223: a stall lasts exactly one cycle. The next completed cycle does not stall, and the retained consumer enters ID/EX with tag
MEM for the loaded register on each source that reads it. -/
def Obligations.StallLastsOneCycle : Prop :=
  ∀ (s t u : State) (x c : Stage), completes s t → completes t u → consistent s = true → loadUsePair s x c →
    t.idex = none ∧ decisionOf t (takenTarget t) = .normal ∧
    ∃ d, u.idex = some d ∧ d.pc = c.pc ∧ d.word = c.word ∧
      (d.uses1 = true → d.rs1 = x.rd → d.tag1 = .mem) ∧ (d.uses2 = true → d.rs2 = x.rd → d.tag2 = .mem)

/-- R225: a taken branch flushes in its own cycle: IF/ID and ID/EX become bubbles, `pc` takes the target, EX/MEM receives the branch,
and no diagnostic is emitted. -/
def Obligations.TakenBranchFlushes : Prop :=
  ∀ (s t : State) (target : Word), completes s t → takenTarget s = some target →
    t.pc = target ∧ t.ifid = none ∧ t.idex = none ∧ t.diags = s.diags ∧
    ∃ d, s.idex = some d ∧ t.exmem = some { d with alu := 0, sdata := 0 }

/-- R226: a taken branch costs exactly two bubble cycles in execute: the branch executes in the cycle from `s`, ID/EX is a bubble in
the next two, and the instruction at the target executes in the third. -/
def Obligations.TakenBranchCostsTwoBubbles : Prop :=
  ∀ (s t u v : State) (target w : Word) (i : Instr), completes s t → completes t u → completes u v →
    takenTarget s = some target → target.toNat < s.params.progEnd →
    fetchWord s.params target = some w → decode s.params.subset w = .ok i →
      t.idex = none ∧ u.idex = none ∧ ∃ d, v.idex = some d ∧ d.pc = target ∧ d.instr = i

/-- R266: an unrecognized word in IF/ID that is not flushed becomes a bubble in ID/EX and leaves exactly one diagnostic, with the
cycle's number, its address and its bits; a flushed one leaves none. -/
def Obligations.UnrecognizedWordLeavesOneDiagnostic : Prop :=
  ∀ (s t : State) (f : Fetched), completes s t → s.ifid = some f →
    decode s.params.subset f.word = .error .unrecognized →
      t.idex = none ∧
      (takenTarget s = none → t.diags = s.diags ++ [⟨s.cycle + 1, f.pc, f.word⟩]) ∧
      (∀ target, takenTarget s = some target → t.diags = s.diags)

/-! ## Faults -/

/-- R261, R262, R264: a load or store in EX/MEM whose address is misaligned, or else whose bytes are not all inside the data memory,
ends the run: the status and the cycle number are written, trace and diagnostics stay, and no further cycle runs. It comes before
anything the instruction in ID/EX may raise. -/
def Obligations.BadDataAccessEndsTheRun : Prop :=
  ∀ (s : State) (e : Stage) (n : Nat), mayCycle s → s.exmem = some e → decodedStage s.params.subset e = true →
    accessBytes e.op = some n →
    (e.alu.toNat % n ≠ 0 ∨ s.params.dmemSize < e.alu.toNat + n) →
      ∃ t, step s = .next t ∧ t.cycle = s.cycle + 1 ∧ t.trace = s.trace ∧ t.diags = s.diags ∧ t.params = s.params ∧
        t.status = .fault (if e.alu.toNat % n ≠ 0 then .misalignedData else .dmemRange) e.pc e.alu ∧
        step t = .next t

/-- R200, R262: a taken branch to a target that is not a multiple of 4, or else above `4N`, ends the run, when the memory step of
the cycle does not. -/
def Obligations.BadBranchTargetEndsTheRun : Prop :=
  ∀ (s : State) (d : Stage) (target : Word) (m : Option Stage × Memory), mayCycle s → s.idex = some d →
    takenTarget s = some target → memoryStep s = .ok m → ¬ goodTarget s.params target →
      ∃ t, step s = .next t ∧ exec d.instr s = .next t ∧ t.cycle = s.cycle + 1 ∧ t.trace = s.trace ∧
        t.diags = s.diags ∧ t.params = s.params ∧
        t.status = .fault (if target.toNat % 4 ≠ 0 then .misalignedTarget else .targetRange) d.pc target ∧
        step t = .next t

/-- R262, R265: a run faults only so: in a consistent state, a cycle that ends in FAULT has a misaligned or out-of-range access in
EX/MEM, or a taken branch with a bad target in ID/EX, and the status names it. -/
def Obligations.FaultsComeOnlyFromBadAccessesAndTargets : Prop :=
  ∀ s t : State, consistent s = true → mayCycle s → step s = .next t → faulted t = true →
    (∃ e n, s.exmem = some e ∧ accessBytes e.op = some n ∧
      (e.alu.toNat % n ≠ 0 ∨ s.params.dmemSize < e.alu.toNat + n) ∧
      t.status = .fault (if e.alu.toNat % n ≠ 0 then .misalignedData else .dmemRange) e.pc e.alu) ∨
    (∃ d target, s.idex = some d ∧ takenTarget s = some target ∧ ¬ goodTarget s.params target ∧
      t.status = .fault (if target.toNat % 4 ≠ 0 then .misalignedTarget else .targetRange) d.pc target)

/-! ## What each instruction does -/

/-- R130 to R140: each register-register instruction on its own. -/
def Obligations.RegisterRegisterInstructionsRetire : Prop :=
  ∀ (s : State) (d : Stage) (rd rs1 rs2 : RegIx),
    let a := Regs.read s.x rs1
    let b := Regs.read s.x rs2
    let gives := fun (i : Instr) (v : Word) => alone s i d → retiresTo s i v b rd v
    gives (.add rd rs1 rs2) (BitVec.ofNat 32 (a.toNat + b.toNat)) ∧
    gives (.sub rd rs1 rs2) (BitVec.ofInt 32 (a.toInt - b.toInt)) ∧
    gives (.sll rd rs1 rs2) (BitVec.ofNat 32 (a.toNat * 2 ^ (b.toNat % 32))) ∧
    gives (.slt rd rs1 rs2) (if a.toInt < b.toInt then 1 else 0) ∧
    gives (.sltu rd rs1 rs2) (if a.toNat < b.toNat then 1 else 0) ∧
    gives (.xor rd rs1 rs2) (a ^^^ b) ∧
    gives (.srl rd rs1 rs2) (BitVec.ofNat 32 (a.toNat / 2 ^ (b.toNat % 32))) ∧
    gives (.sra rd rs1 rs2) (BitVec.ofInt 32 (a.toInt / 2 ^ (b.toNat % 32))) ∧
    gives (.or rd rs1 rs2) (a ||| b) ∧
    gives (.and rd rs1 rs2) (a &&& b)

/-- R150 to R159: each register-immediate instruction on its own. -/
def Obligations.RegisterImmediateInstructionsRetire : Prop :=
  ∀ (s : State) (d : Stage) (rd rs1 : RegIx) (imm : Word),
    let a := Regs.read s.x rs1
    let gives := fun (i : Instr) (v : Word) => alone s i d → retiresTo s i v 0 rd v
    gives (.addi rd rs1 imm) (BitVec.ofInt 32 (a.toInt + imm.toInt)) ∧
    gives (.slti rd rs1 imm) (if a.toInt < imm.toInt then 1 else 0) ∧
    gives (.sltiu rd rs1 imm) (if a.toNat < imm.toNat then 1 else 0) ∧
    gives (.xori rd rs1 imm) (a ^^^ imm) ∧
    gives (.ori rd rs1 imm) (a ||| imm) ∧
    gives (.andi rd rs1 imm) (a &&& imm) ∧
    gives (.slli rd rs1 imm) (BitVec.ofNat 32 (a.toNat * 2 ^ imm.toNat)) ∧
    gives (.srli rd rs1 imm) (BitVec.ofNat 32 (a.toNat / 2 ^ imm.toNat)) ∧
    gives (.srai rd rs1 imm) (BitVec.ofInt 32 (a.toInt / 2 ^ imm.toNat))

/-- R160 to R162: LUI and AUIPC on their own. AUIPC adds its own address. -/
def Obligations.UpperImmediateInstructionsRetire : Prop :=
  ∀ (s : State) (d : Stage) (rd : RegIx) (imm : Word),
    (alone s (.lui rd imm) d → imm.toNat % 4096 = 0 ∧ retiresTo s (.lui rd imm) imm 0 rd imm) ∧
    (alone s (.auipc rd imm) d →
      let v := BitVec.ofNat 32 (d.pc.toNat + imm.toNat)
      retiresTo s (.auipc rd imm) v 0 rd v)

/-- R170 to R175: each load on its own, at an address that is aligned and inside the data memory. -/
def Obligations.LoadsRetire : Prop :=
  ∀ (s : State) (d : Stage) (rd rs1 : RegIx) (imm : Word),
    let a := Regs.read s.x rs1 + imm
    let b := fun k => Memory.read s.dmem (a.toNat + k)
    let gives := fun (i : Instr) (n : Nat) (v : Word) => alone s i d →
      a.toNat % n = 0 → a.toNat + n ≤ s.params.dmemSize → retiresTo s i a 0 rd v
    gives (.lb rd rs1 imm) 1 (BitVec.ofInt 32 (b 0).toInt) ∧
    gives (.lh rd rs1 imm) 2 (BitVec.ofInt 32 (b 1 ++ b 0).toInt) ∧
    gives (.lw rd rs1 imm) 4 (b 3 ++ b 2 ++ b 1 ++ b 0) ∧
    gives (.lbu rd rs1 imm) 1 (BitVec.ofNat 32 (b 0).toNat) ∧
    gives (.lhu rd rs1 imm) 2 (BitVec.ofNat 32 (b 1 ++ b 0).toNat)

/-- R176 to R179: each store on its own, at an address that is aligned and inside the data memory. -/
def Obligations.StoresRetire : Prop :=
  ∀ (s : State) (d : Stage) (rs1 rs2 : RegIx) (imm : Word), Memory.wf s.params.dmemSize s.dmem = true →
    let a := Regs.read s.x rs1 + imm
    let gives := fun (i : Instr) (n : Nat) => alone s i d →
      a.toNat % n = 0 → a.toNat + n ≤ s.params.dmemSize → storesTo s i a n (Regs.read s.x rs2)
    gives (.sb rs1 rs2 imm) 1 ∧ gives (.sh rs1 rs2 imm) 2 ∧ gives (.sw rs1 rs2 imm) 4

/-- R190 to R197: each branch on its own, taken to a good target or not taken. -/
def Obligations.BranchesResolve : Prop :=
  ∀ (s : State) (d : Stage) (rs1 rs2 : RegIx) (imm : Word),
    let a := Regs.read s.x rs1
    let b := Regs.read s.x rs2
    let gives := fun (i : Instr) (taken : Prop) => alone s i d → branchesTo s i d taken (d.pc + imm)
    gives (.beq rs1 rs2 imm) (a = b) ∧
    gives (.bne rs1 rs2 imm) (a ≠ b) ∧
    gives (.blt rs1 rs2 imm) (a.toInt < b.toInt) ∧
    gives (.bge rs1 rs2 imm) (b.toInt ≤ a.toInt) ∧
    gives (.bltu rs1 rs2 imm) (a.toNat < b.toNat) ∧
    gives (.bgeu rs1 rs2 imm) (b.toNat ≤ a.toNat)

/-- R117, R214, R217: every instruction completes its execute cycle in any pipeline, on its forwarded operands: when ID/EX holds it
decoded, the memory step does not stop, no invariant of R268 is violated, and, if it is a branch that is taken, its target is good, `exec`
answers a next state in which the run goes on, EX/MEM holds the instruction with the result and the store data it computes on the two
operands its tags select, and registers and data memory are those of the writeback and memory steps. -/
def Obligations.EveryInstructionCompletesInAnyPipeline : Prop :=
  ∀ (i : Instr) (s : State) (d : Stage) (m : Option Stage × Memory),
    s.idex = some d → decodedStage s.params.subset d = true → d.instr = i → memoryStep s = .ok m →
    invariantsHold s = true → (∀ target, takenTarget s = some target → goodTarget s.params target) →
      let opnd := fun (uses : Bool) (tag : Tag) (r : RegIx) =>
        if uses = false then (0 : Word)
        else match tag with
          | .ex => (s.exmem.map fun e => e.alu).getD 0
          | .mem => (s.memwb.map fun w => if w.ctrl.memToReg then w.mdata else w.alu).getD 0
          | .none => Regs.read (writeback s) r
      let a := opnd d.uses1 d.tag1 d.rs1
      let b := opnd d.uses2 d.tag2 d.rs2
      ∃ t, exec i s = .next t ∧ t.status = s.status ∧ t.cycle = s.cycle + 1 ∧
        t.exmem = some { d with alu := executeAlu i d.pc a b, sdata := executeSdata d.op b } ∧
        t.memwb = m.1 ∧ t.dmem = m.2 ∧ t.x = writeback s
end

