-- ==== Sys2Proof/Laws/State.lean ====
section
/-! SUPPORT. The record updates of the machine, field by field: the cycle's end, taking a fault, a stage register's tags,
the launch state. -/

namespace Sys2Proof.Machine

section completeCycle
variable (s : State) (m : Option Stage) (mem : Memory) (e : Option Stage) (f : FrontEnd)

@[simp] theorem completeCycle_params : (completeCycle s m mem e f).params = s.params := rfl
@[simp] theorem completeCycle_x : (completeCycle s m mem e f).x = writeback s := rfl
@[simp] theorem completeCycle_pc : (completeCycle s m mem e f).pc = f.pc := rfl
@[simp] theorem completeCycle_ifid : (completeCycle s m mem e f).ifid = f.ifid := rfl
@[simp] theorem completeCycle_idex : (completeCycle s m mem e f).idex = f.idex.map fun d => withTags d e m := rfl
@[simp] theorem completeCycle_exmem : (completeCycle s m mem e f).exmem = e := rfl
@[simp] theorem completeCycle_memwb : (completeCycle s m mem e f).memwb = m := rfl
@[simp] theorem completeCycle_dmem : (completeCycle s m mem e f).dmem = mem := rfl
@[simp] theorem completeCycle_cycle : (completeCycle s m mem e f).cycle = s.cycle + 1 := rfl
@[simp] theorem completeCycle_status : (completeCycle s m mem e f).status = s.status := rfl
@[simp] theorem completeCycle_diags : (completeCycle s m mem e f).diags = s.diags ++ f.diags := rfl
@[simp] theorem completeCycle_trace : (completeCycle s m mem e f).trace =
    s.trace ++ traceRecords s.params.subset (s.cycle + 1) f.ifid
      (f.idex.map fun d => withTags d e m) e m := rfl

end completeCycle

section takeFault
variable (s : State) (k : FaultKind) (pc info : Word)

@[simp] theorem takeFault_params : (takeFault s k pc info).params = s.params := rfl
@[simp] theorem takeFault_x : (takeFault s k pc info).x = Regs.ofWords (Config.unspecified 0 s) := rfl
@[simp] theorem takeFault_pc : (takeFault s k pc info).pc = Config.unspecified 1 s := rfl
@[simp] theorem takeFault_ifid : (takeFault s k pc info).ifid = Config.unspecified 2 s := rfl
@[simp] theorem takeFault_idex : (takeFault s k pc info).idex = Config.unspecified 3 s := rfl
@[simp] theorem takeFault_exmem : (takeFault s k pc info).exmem = Config.unspecified 4 s := rfl
@[simp] theorem takeFault_memwb : (takeFault s k pc info).memwb = Config.unspecified 5 s := rfl
@[simp] theorem takeFault_dmem : (takeFault s k pc info).dmem =
    Memory.ofCells s.params.dmemSize (Config.unspecified 6 s) := rfl
@[simp] theorem takeFault_cycle : (takeFault s k pc info).cycle = s.cycle + 1 := rfl
@[simp] theorem takeFault_status : (takeFault s k pc info).status = .fault k pc info := rfl
@[simp] theorem takeFault_diags : (takeFault s k pc info).diags = s.diags := rfl
@[simp] theorem takeFault_trace : (takeFault s k pc info).trace = s.trace := rfl

end takeFault

section withTags
variable (d : Stage) (e m : Option Stage)

@[simp] theorem withTags_pc : (withTags d e m).pc = d.pc := rfl
@[simp] theorem withTags_word : (withTags d e m).word = d.word := rfl
@[simp] theorem withTags_op : (withTags d e m).op = d.op := rfl
@[simp] theorem withTags_fmt : (withTags d e m).fmt = d.fmt := rfl
@[simp] theorem withTags_rd : (withTags d e m).rd = d.rd := rfl
@[simp] theorem withTags_rs1 : (withTags d e m).rs1 = d.rs1 := rfl
@[simp] theorem withTags_rs2 : (withTags d e m).rs2 = d.rs2 := rfl
@[simp] theorem withTags_funct3 : (withTags d e m).funct3 = d.funct3 := rfl
@[simp] theorem withTags_funct7 : (withTags d e m).funct7 = d.funct7 := rfl
@[simp] theorem withTags_imm : (withTags d e m).imm = d.imm := rfl
@[simp] theorem withTags_uses1 : (withTags d e m).uses1 = d.uses1 := rfl
@[simp] theorem withTags_uses2 : (withTags d e m).uses2 = d.uses2 := rfl
@[simp] theorem withTags_ctrl : (withTags d e m).ctrl = d.ctrl := rfl
@[simp] theorem withTags_tag1 : (withTags d e m).tag1 = forwardTag d.uses1 d.rs1 e m := rfl
@[simp] theorem withTags_tag2 : (withTags d e m).tag2 = forwardTag d.uses2 d.rs2 e m := rfl
@[simp] theorem withTags_alu : (withTags d e m).alu = d.alu := rfl
@[simp] theorem withTags_sdata : (withTags d e m).sdata = d.sdata := rfl
@[simp] theorem withTags_mdata : (withTags d e m).mdata = d.mdata := rfl

end withTags

section launch
variable (p : Params)

@[simp] theorem launch_params : (State.launch p).params = p := rfl
@[simp] theorem launch_x : (State.launch p).x = Regs.ofWords p.initRegs := rfl
@[simp] theorem launch_pc : (State.launch p).pc = 0 := rfl
@[simp] theorem launch_ifid : (State.launch p).ifid = none := rfl
@[simp] theorem launch_idex : (State.launch p).idex = none := rfl
@[simp] theorem launch_exmem : (State.launch p).exmem = none := rfl
@[simp] theorem launch_memwb : (State.launch p).memwb = none := rfl
@[simp] theorem launch_dmem : (State.launch p).dmem = Memory.ofCells p.dmemSize p.initDmem := rfl
@[simp] theorem launch_cycle : (State.launch p).cycle = 0 := rfl
@[simp] theorem launch_status : (State.launch p).status = .running := rfl
@[simp] theorem launch_diags : (State.launch p).diags = [] := rfl
@[simp] theorem launch_trace : (State.launch p).trace = [] := rfl

end launch

end Sys2Proof.Machine
end

