-- ==== Sys2Proof/Laws/Cycle.lean ====
section
/-! SUPPORT. What one step can do, said once: the checked accesses, the memory step, the front end, the cycle, the
execute step of every instruction, and the step. -/

namespace Sys2Proof.Machine

/-! ## Checked accesses (R57, R58) -/

theorem accessFault_none {s : State} {a : Word} {n : Width} :
    accessFault s a n = none ↔ a.toNat % n.bytes = 0 ∧ a.toNat + n.bytes ≤ s.params.dmemSize := by
  unfold accessFault
  split
  · simp_all
  · split
    · simp_all
    · simp_all

theorem accessFault_some {s : State} {a : Word} {n : Width} {k : FaultKind} :
    accessFault s a n = some k ↔ (a.toNat % n.bytes ≠ 0 ∧ k = .misalignedData)
      ∨ (a.toNat % n.bytes = 0 ∧ s.params.dmemSize < a.toNat + n.bytes ∧ k = .dmemRange) := by
  unfold accessFault
  split
  · simp_all [eq_comm]
  · split
    · simp_all [eq_comm]
    · simp_all

theorem memRead_ok {s : State} {pc a v : Word} {n : Width} :
    memRead s pc a n = .ok v ↔ accessFault s a n = none ∧ v = Memory.readLE s.dmem a.toNat n := by
  unfold memRead
  cases accessFault s a n <;> simp [eq_comm]

theorem memRead_error {s : State} {pc a : Word} {n : Width} {e : Stop} :
    memRead s pc a n = .error e ↔ ∃ k, accessFault s a n = some k ∧ e = .raise k pc a := by
  unfold memRead
  cases accessFault s a n <;> simp [eq_comm]

theorem memWrite_ok {s : State} {pc a v : Word} {n : Width} {m : Memory} :
    memWrite s pc a n v = .ok m ↔ accessFault s a n = none ∧ m = Memory.writeLE s.dmem a.toNat v n := by
  unfold memWrite
  cases accessFault s a n <;> simp [eq_comm]

theorem memWrite_error {s : State} {pc a v : Word} {n : Width} {e : Stop} :
    memWrite s pc a n v = .error e ↔ ∃ k, accessFault s a n = some k ∧ e = .raise k pc a := by
  unfold memWrite
  cases accessFault s a n <;> simp [eq_comm]

/-! ## The memory step (R216) -/

/-- The width of a load or store, by operation (R61). -/
def widthOf : Op → Option Width
  | .lb => some .byte
  | .lh => some .half
  | .lw => some .word
  | .lbu => some .byte
  | .lhu => some .half
  | .sb => some .byte
  | .sh => some .half
  | .sw => some .word
  | _ => none

/-- How a load extends what it reads, by operation (R170). -/
def extOf : Op → Option (Word → Word)
  | .lb => some (sext 8)
  | .lh => some (sext 16)
  | .lw => some id
  | .lbu => some (zext 8)
  | .lhu => some (zext 16)
  | _ => none

theorem loadAction_ok {n : Width} {ext : Word → Word} {s : State} {d : Stage} {v : Word} :
    loadAction n ext s d = .ok v ↔ accessFault s d.alu n = none ∧ v = ext (Memory.readLE s.dmem d.alu.toNat n) := by
  unfold loadAction
  cases h : memRead s d.pc d.alu n with
  | error e =>
    obtain ⟨k, hk, -⟩ := memRead_error.1 h
    simp [hk]
  | ok w =>
    obtain ⟨hk, rfl⟩ := memRead_ok.1 h
    simp [hk, eq_comm]

theorem loadAction_error {n : Width} {ext : Word → Word} {s : State} {d : Stage} {e : Stop} :
    loadAction n ext s d = .error e ↔ ∃ k, accessFault s d.alu n = some k ∧ e = .raise k d.pc d.alu := by
  unfold loadAction
  cases h : memRead s d.pc d.alu n with
  | error e' =>
    obtain ⟨k, hk, rfl⟩ := memRead_error.1 h
    simp [hk, eq_comm]
  | ok w =>
    obtain ⟨hk, rfl⟩ := memRead_ok.1 h
    simp [hk]

/-- The memory action of a load, from its width and its extension. -/
theorem loadOf_eq {s : State} {d : Stage} {n : Width} {ext : Word → Word} (hn : widthOf d.op = some n)
    (he : extOf d.op = some ext) : loadOf s d = loadAction n ext s d := by
  unfold loadOf
  cases hop : d.op <;> simp only [hop, widthOf, extOf] at hn he <;> cases hn <;> cases he <;> rfl

/-- The memory action of a store, from its width. -/
theorem storeOf_eq {s : State} {d : Stage} {n : Width} (hn : widthOf d.op = some n) (he : extOf d.op = none) :
    storeOf s d = storeAction n s d := by
  unfold storeOf
  cases hop : d.op <;> simp only [hop, widthOf, extOf] at hn he <;> cases hn <;> cases he <;> rfl

theorem memoryStep_none {s : State} (h : s.exmem = none) : memoryStep s = .ok (none, s.dmem) := by
  unfold memoryStep; rw [h]

/-- What the memory step answers for an occupied EX/MEM. -/
theorem memoryStep_some {s : State} {d : Stage} (h : s.exmem = some d) {m : Option Stage × Memory} :
    memoryStep s = .ok m ↔ ∃ v mem, memData s d = .ok v ∧ memAfter s d = .ok mem ∧ m = (some { d with mdata := v }, mem) := by
  unfold memoryStep
  rw [h]
  dsimp only
  cases h1 : memData s d with
  | error e => simp
  | ok v =>
    cases h2 : memAfter s d with
    | error e => simp
    | ok mem => simp [eq_comm]

theorem memoryStep_error {s : State} {e : Stop} :
    memoryStep s = .error e ↔ ∃ d, s.exmem = some d ∧
      (memData s d = .error e ∨ ∃ v, memData s d = .ok v ∧ memAfter s d = .error e) := by
  unfold memoryStep
  cases h : s.exmem with
  | none => simp
  | some d =>
    cases h1 : memData s d with
    | error e' => simp [h1]
    | ok v => cases h2 : memAfter s d <;> simp [h1, h2]

theorem memData_of_no_read {s : State} {d : Stage} (h : d.ctrl.memRead = false) : memData s d = .ok 0 := by
  unfold memData; rw [h]; rfl

theorem memData_of_read {s : State} {d : Stage} (h : d.ctrl.memRead = true) : memData s d = loadOf s d := by
  unfold memData; rw [h]; rfl

theorem memAfter_of_no_write {s : State} {d : Stage} (h : d.ctrl.memWrite = false) : memAfter s d = .ok s.dmem := by
  unfold memAfter; rw [h]; rfl

theorem memAfter_of_write {s : State} {d : Stage} (h : d.ctrl.memWrite = true) : memAfter s d = storeOf s d := by
  unfold memAfter; rw [h]; rfl

/-! ## The front end (R227 to R230) -/

/-- What the fetch step answers. -/
theorem fetchStep_ok {s : State} {q : Word × Option Fetched} :
    fetchStep s = .ok q ↔ (s.params.progEnd ≤ s.pc.toNat ∧ q = (s.pc, none))
      ∨ (s.pc.toNat < s.params.progEnd ∧ ∃ w, fetchWord s.params s.pc = some w ∧
          q = (s.pc + 4, if w = 0 then none else some ⟨s.pc, w⟩)) := by
  unfold fetchStep
  split
  · rename_i h
    cases hw : fetchWord s.params s.pc <;> simp [h, eq_comm (b := q)]
  · rename_i h
    simp [h, Nat.le_of_not_lt h, eq_comm (b := q)]

theorem fetchStep_error {s : State} {e : Stop} :
    fetchStep s = .error e ↔ s.pc.toNat < s.params.progEnd ∧ fetchWord s.params s.pc = none
      ∧ e = .fault (.undefinedFetch s.pc) := by
  unfold fetchStep
  split
  · rename_i h
    cases hw : fetchWord s.params s.pc <;> simp [h, eq_comm (b := e)]
  · rename_i h
    simp [h]

@[simp] theorem frontEnd_stall {s : State} {c : Nat} : frontEnd s c .stall = .ok ⟨s.pc, s.ifid, none, []⟩ := rfl

@[simp] theorem frontEnd_flush {s : State} {c : Nat} {t : Word} :
    frontEnd s c (.flush t) = .ok ⟨t, none, none, []⟩ := rfl

theorem frontEnd_normal {s : State} {c : Nat} {f : FrontEnd} :
    frontEnd s c .normal = .ok f ↔ ∃ q, fetchStep s = .ok q ∧ f = ⟨q.1, q.2, (candidate s).1, diagOf s c⟩ := by
  unfold frontEnd
  cases fetchStep s <;> simp [eq_comm]

/-- The front end stops only where the fetch step does, never with a fault of the run. -/
theorem frontEnd_error {s : State} {c : Nat} {k : Decision} {e : Stop} (h : frontEnd s c k = .error e) :
    k = .normal ∧ e = .fault (.undefinedFetch s.pc) ∧ s.pc.toNat < s.params.progEnd
      ∧ fetchWord s.params s.pc = none := by
  cases k with
  | normal =>
    unfold frontEnd at h
    cases hf : fetchStep s with
    | ok q => simp [hf] at h
    | error e' =>
      obtain ⟨h1, h2, rfl⟩ := fetchStep_error.1 hf
      simp [hf] at h
      exact ⟨rfl, h.symm, h1, h2⟩
  | stall => simp at h
  | flush t => simp at h

/-! ## The cycle (R250, R264) -/

theorem cycle_refused {s : State} {ex : Except Stop Executed} (hi : invariantsHold s = false) :
    cycle s ex = .refused .inconsistentState := if_pos hi

/-- The cycle of a state that violates no invariant of R268. -/
theorem cycle_eq {s : State} {ex : Except Stop Executed} (hi : invariantsHold s = true) :
    cycle s ex = (match memoryStep s with
      | .error e => stopOutcome s e
      | .ok (memwb, dmem) =>
        match ex with
        | .error e => stopOutcome s e
        | .ok x =>
          match frontEnd s (s.cycle + 1) (decisionOf s x.target) with
          | .error e => stopOutcome s e
          | .ok f => .next (completeCycle s memwb dmem x.exmem f)) := by
  unfold cycle; rw [hi]; rfl

/-- Everything a cycle that answers a state has done: it took the memory step's fault, or else the execute step's, or
completed. -/
theorem cycle_next {s t : State} {ex : Except Stop Executed} (h : cycle s ex = .next t) : invariantsHold s = true ∧
    ((∃ k pc info, memoryStep s = .error (.raise k pc info) ∧ t = takeFault s k pc info)
    ∨ (∃ m k pc info, memoryStep s = .ok m ∧ ex = .error (.raise k pc info) ∧ t = takeFault s k pc info)
    ∨ (∃ m x f, memoryStep s = .ok m ∧ ex = .ok x ∧ frontEnd s (s.cycle + 1) (decisionOf s x.target) = .ok f
        ∧ t = completeCycle s m.1 m.2 x.exmem f)) := by
  cases hi : invariantsHold s with
  | false => rw [cycle_refused hi] at h; cases h
  | true =>
  refine ⟨rfl, ?_⟩
  rw [cycle_eq hi] at h
  cases hm : memoryStep s with
  | error e =>
    cases e with
    | raise k pc info => simp [hm, stopOutcome] at h; exact .inl ⟨k, pc, info, rfl, h.symm⟩
    | fault f => simp [hm, stopOutcome] at h
    | refuse r => simp [hm, stopOutcome] at h
  | ok m =>
    cases hx : ex with
    | error e =>
      cases e with
      | raise k pc info => simp [hm, hx, stopOutcome] at h; exact .inr (.inl ⟨m, k, pc, info, rfl, rfl, h.symm⟩)
      | fault f => simp [hm, hx, stopOutcome] at h
      | refuse r => simp [hm, hx, stopOutcome] at h
    | ok x =>
      cases hf : frontEnd s (s.cycle + 1) (decisionOf s x.target) with
      | error e =>
        obtain ⟨-, rfl, -⟩ := frontEnd_error hf
        simp [hm, hx, hf, stopOutcome] at h
      | ok f => simp [hm, hx, hf] at h; exact .inr (.inr ⟨m, x, f, rfl, rfl, hf, h.symm⟩)

/-- A cycle whose three parts answer completes. -/
theorem cycle_complete {s : State} {x : Executed} {m : Option Stage × Memory} {f : FrontEnd}
    (hi : invariantsHold s = true) (hm : memoryStep s = .ok m) (hf : frontEnd s (s.cycle + 1) (decisionOf s x.target) = .ok f) :
    cycle s (.ok x) = .next (completeCycle s m.1 m.2 x.exmem f) := by
  rw [cycle_eq hi, hm]; simp [hf]

theorem cycle_memory_fault {s : State} {ex : Except Stop Executed} {k : FaultKind} {pc info : Word}
    (hi : invariantsHold s = true) (hm : memoryStep s = .error (.raise k pc info)) :
    cycle s ex = .next (takeFault s k pc info) := by
  rw [cycle_eq hi, hm]; rfl

theorem cycle_execute_fault {s : State} {m : Option Stage × Memory} {k : FaultKind} {pc info : Word}
    (hi : invariantsHold s = true) (hm : memoryStep s = .ok m) :
    cycle s (.error (.raise k pc info)) = .next (takeFault s k pc info) := by
  rw [cycle_eq hi, hm]; rfl

theorem executeCycle_eq {i : Instr} {s : State} {d : Stage} {ex : Stage → Word → Word → Except Stop Executed}
    (hd : s.idex = some d) (hi : d.instr = i) :
    executeCycle i s ex = cycle s (ex d (operand1 s d) (operand2 s d)) := by
  unfold executeCycle; rw [hd]; exact if_pos hi

/-! ## The execute step of every instruction (R217) -/

/-- The execute step of the instruction in ID/EX, by its operation: the families' steps with each instruction's
function. -/
def executeStep (s : State) (d : Stage) : Except Stop Executed :=
  let a := operand1 s d
  let b := operand2 s d
  match d.op with
  | .add => regStep (fun a b => a + b) d a b
  | .sub => regStep (fun a b => a - b) d a b
  | .sll => regStep (fun a b => a <<< shiftAmount b) d a b
  | .slt => regStep (fun a b => boolWord (lessSigned a b)) d a b
  | .sltu => regStep (fun a b => boolWord (lessUnsigned a b)) d a b
  | .xor => regStep (fun a b => a ^^^ b) d a b
  | .srl => regStep (fun a b => a >>> shiftAmount b) d a b
  | .sra => regStep (fun a b => a.sshiftRight (shiftAmount b)) d a b
  | .or => regStep (fun a b => a ||| b) d a b
  | .and => regStep (fun a b => a &&& b) d a b
  | .addi => immStep (fun a imm => a + imm) d a b
  | .slti => immStep (fun a imm => boolWord (lessSigned a imm)) d a b
  | .sltiu => immStep (fun a imm => boolWord (lessUnsigned a imm)) d a b
  | .xori => immStep (fun a imm => a ^^^ imm) d a b
  | .ori => immStep (fun a imm => a ||| imm) d a b
  | .andi => immStep (fun a imm => a &&& imm) d a b
  | .slli => immStep (fun a imm => a <<< imm.toNat) d a b
  | .srli => immStep (fun a imm => a >>> imm.toNat) d a b
  | .srai => immStep (fun a imm => a.sshiftRight imm.toNat) d a b
  | .lb => loadStep d a b
  | .lh => loadStep d a b
  | .lw => loadStep d a b
  | .lbu => loadStep d a b
  | .lhu => loadStep d a b
  | .sb => storeStep d a b
  | .sh => storeStep d a b
  | .sw => storeStep d a b
  | .beq => branchStep (fun a b => a == b) s d a b
  | .bne => branchStep (fun a b => a != b) s d a b
  | .blt => branchStep (fun a b => lessSigned a b) s d a b
  | .bge => branchStep (fun a b => !lessSigned a b) s d a b
  | .bltu => branchStep (fun a b => lessUnsigned a b) s d a b
  | .bgeu => branchStep (fun a b => !lessUnsigned a b) s d a b
  | .lui => upperStep (fun imm _ => imm) d a b
  | .auipc => upperStep (fun imm pc => pc + imm) d a b

/-- The meaning of the instruction in ID/EX is the cycle with its execute step. -/
theorem exec_instr {s : State} {d : Stage} (hd : s.idex = some d) : exec d.instr s = cycle s (executeStep s d) := by
  cases hop : d.op <;> (
    have hi : d.instr = d.op.instr ⟨d.rd, d.rs1, d.rs2, d.funct3, d.funct7, d.imm⟩ := rfl
    rw [hop] at hi
    simp only [executeStep, hop]
    rw [hi]
    exact executeCycle_eq hd hi)

/-- An instruction that is not in ID/EX is refused. -/
theorem executeCycle_refused {i : Instr} {s : State} {ex : Stage → Word → Word → Except Stop Executed}
    (h : ∀ d, s.idex = some d → d.instr ≠ i) : executeCycle i s ex = .refused .notInExecute := by
  unfold executeCycle
  cases hd : s.idex with
  | none => rfl
  | some d => exact if_neg (h d hd)

/-- What a branch's execute step answers. -/
theorem branchStep_ok {cond : Word → Word → Bool} {s : State} {d : Stage} {a b : Word} {x : Executed} :
    branchStep cond s d a b = .ok x ↔ x.exmem = some { d with alu := 0, sdata := 0 } ∧
      (if (d.ctrl.branch && cond a b) = true then (d.pc + d.imm).toNat % 4 = 0
          ∧ (d.pc + d.imm).toNat ≤ s.params.progEnd ∧ x.target = some (d.pc + d.imm)
        else x.target = none) := by
  obtain ⟨e, t⟩ := x
  unfold branchStep resolveTarget
  dsimp only
  split
  · split
    · rename_i h; split at h
      · simp_all
      · split at h
        · simp_all
        · cases h
    · rename_i h; split at h
      · cases h
      · split at h
        · cases h
        · cases h
          simp_all [eq_comm (a := t), eq_comm (a := e)]
  · simp_all [eq_comm (a := t), eq_comm (a := e)]

/-- A branch's execute step stops only on a bad target of a taken branch (R200, R264). -/
theorem branchStep_error {cond : Word → Word → Bool} {s : State} {d : Stage} {a b : Word} {e : Stop} :
    branchStep cond s d a b = .error e ↔ (d.ctrl.branch && cond a b) = true ∧
      (((d.pc + d.imm).toNat % 4 ≠ 0 ∧ e = .raise .misalignedTarget d.pc (d.pc + d.imm))
      ∨ ((d.pc + d.imm).toNat % 4 = 0 ∧ s.params.progEnd < (d.pc + d.imm).toNat
          ∧ e = .raise .targetRange d.pc (d.pc + d.imm))) := by
  unfold branchStep resolveTarget
  dsimp only
  split
  · split
    · rename_i h; split at h
      · cases h; simp_all [eq_comm (a := e)]
      · split at h
        · cases h; simp_all [eq_comm (a := e)]
        · cases h
    · rename_i h; split at h
      · cases h
      · split at h
        · cases h
        · cases h; simp_all
  · simp_all

/-- EX/MEM receives the instruction with new value fields, whichever instruction it is. -/
theorem executeStep_ok {s : State} {d : Stage} {x : Executed} (h : executeStep s d = .ok x) :
    ∃ alu sdata, x.exmem = some { d with alu := alu, sdata := sdata } := by
  unfold executeStep at h
  cases hop : d.op <;> simp only [hop] at h <;>
    first
    | exact ⟨0, 0, hop ▸ (branchStep_ok.1 h).1⟩
    | (simp only [regStep, immStep, upperStep, loadStep, storeStep, Except.ok.injEq] at h
       exact ⟨_, _, by rw [← h, ← hop]⟩)

/-! ## The step -/

/-- The execute step of the cycle from `s`: a bubble passes on, an instruction executes. -/
def executed (s : State) : Except Stop Executed :=
  match s.idex with
  | none => .ok ⟨none, none⟩
  | some d => executeStep s d

/-- A running state that violates an invariant of R268 is refused. -/
theorem step_refused {s : State} (hr : s.status = .running) (hi : invariantsHold s = false) :
    step s = .refused .inconsistentState := by
  unfold step
  rw [if_neg (not_not.2 hr), if_pos hi]

/-- A running state whose cycle is due steps by the cycle. -/
theorem step_cycle {s : State} (hr : s.status = .running) (hf : finished s = false) (hc : s.cycle < s.params.cycleCap) :
    step s = cycle s (executed s) := by
  cases hi : invariantsHold s with
  | false => rw [step_refused hr hi, cycle_refused hi]
  | true =>
    unfold step executed
    rw [if_neg (not_not.2 hr), hi, if_neg Bool.noConfusion, hf, if_neg Bool.false_ne_true, if_neg (Nat.not_le.2 hc)]
    cases hd : s.idex with
    | none => rfl
    | some d => exact exec_instr hd

/-- A running state that is finished halts (R232). -/
theorem step_halts {s : State} (hr : s.status = .running) (hi : invariantsHold s = true) (hf : finished s = true) :
    step s = .next { s with status := .halted } := by
  unfold step
  rw [if_neg (not_not.2 hr), hi, if_neg Bool.noConfusion, hf, if_pos rfl]

/-- A running state at the cycle cap stops (R233). -/
theorem step_capped {s : State} (hr : s.status = .running) (hi : invariantsHold s = true) (hf : finished s = false)
    (hc : s.params.cycleCap ≤ s.cycle) : step s = .next { s with status := .nonconvergent } := by
  unfold step
  rw [if_neg (not_not.2 hr), hi, if_neg Bool.noConfusion, hf, if_neg Bool.false_ne_true, if_pos hc]

/-- Everything a step that answers a state has done. -/
theorem step_cases {s t : State} (h : step s = .next t) :
    (s.status ≠ .running ∧ t = s)
    ∨ (s.status = .running ∧ invariantsHold s = true ∧
        ((finished s = true ∧ t = { s with status := .halted })
        ∨ (finished s = false ∧ s.params.cycleCap ≤ s.cycle ∧ t = { s with status := .nonconvergent })
        ∨ (finished s = false ∧ s.cycle < s.params.cycleCap ∧ cycle s (executed s) = .next t))) := by
  by_cases h1 : s.status = .running
  · cases hi : invariantsHold s with
    | false => rw [step_refused h1 hi] at h; cases h
    | true =>
      refine .inr ⟨h1, rfl, ?_⟩
      cases h2 : finished s with
      | true => rw [step_halts h1 hi h2] at h; cases h; exact .inl ⟨rfl, rfl⟩
      | false =>
        by_cases h3 : s.cycle < s.params.cycleCap
        · rw [step_cycle h1 h2 h3] at h; exact .inr (.inr ⟨rfl, h3, h⟩)
        · rw [step_capped h1 hi h2 (Nat.not_lt.1 h3)] at h; cases h; exact .inr (.inl ⟨rfl, Nat.not_lt.1 h3, rfl⟩)
  · unfold step at h
    rw [if_pos h1] at h
    cases h; exact .inl ⟨h1, rfl⟩

/-- The invariants of R268, one by one. -/
theorem invariantsHold_iff {s : State} : invariantsHold s = true ↔ s.x[0] = 0 ∧
    (s.pc.toNat % 4 = 0 ∧ s.pc.toNat ≤ s.params.progEnd) ∧ (∀ f, s.ifid = some f → f.word ≠ 0) ∧
    (∀ d e, s.idex = some d → s.exmem = some e → e.ctrl.memRead = true → d.tag1 ≠ .ex ∧ d.tag2 ≠ .ex) := by
  have h1 : ifidNonzero s = true ↔ ∀ f, s.ifid = some f → f.word ≠ 0 := by
    unfold ifidNonzero
    cases s.ifid <;> simp
  have h2 : exTagNamesNoLoad s = true ↔
      ∀ d e, s.idex = some d → s.exmem = some e → e.ctrl.memRead = true → d.tag1 ≠ .ex ∧ d.tag2 ≠ .ex := by
    unfold exTagNamesNoLoad
    cases s.idex <;> cases s.exmem <;> simp
    rename_i d e
    cases e.ctrl.memRead <;> simp
  unfold invariantsHold
  simp only [Bool.and_eq_true, decide_eq_true_eq, h1, h2, and_assoc]
  simp [pcInProgram, and_assoc]

/-- A run goes on from the state a step answers. -/
theorem run_next (M : Host.Core) {k : Nat} {s t : M.State} (h : M.step s = .next t) : M.run (k + 1) s = M.run k t := by
  rw [Host.Core.run, h]

theorem finished_iff {s : State} : finished s = true ↔ s.params.progEnd ≤ s.pc.toNat ∧ s.ifid = none ∧ s.idex = none
    ∧ s.exmem = none ∧ s.memwb = none := by
  simp [finished, and_assoc]

end Sys2Proof.Machine
end

