-- ==== Sys2Proof/Laws/Decode.lean ====
section
/-! SUPPORT. Laws of the encoder and the decoder: the fixed bits and the fields of an encoded word, and what a decoded
stage register holds. -/

namespace Sys2Proof

/-! ## Slices of a word given by its fields -/

theorem extract_append_high {n m : Nat} (x : BitVec n) (y : BitVec m) (s l : Nat) (h : m ≤ s) :
    (x ++ y).extractLsb' s l = x.extractLsb' (s - m) l := BitVec.extractLsb'_append_eq_of_le h

theorem extract_append_low {n m : Nat} (x : BitVec n) (y : BitVec m) (s l : Nat) (h : s + l ≤ m) :
    (x ++ y).extractLsb' s l = y.extractLsb' s l := BitVec.extractLsb'_append_eq_of_add_le h

theorem extract_all {n : Nat} (x : BitVec n) : x.extractLsb' 0 n = x := by simp

theorem and_ones3 (x : BitVec 3) : x &&& 7#3 = x := BitVec.and_allOnes
theorem and_ones7 (x : BitVec 7) : x &&& 127#7 = x := BitVec.and_allOnes

theorem and_append6 {a b c d e f : Nat} (x1 y1 : BitVec a) (x2 y2 : BitVec b) (x3 y3 : BitVec c) (x4 y4 : BitVec d)
    (x5 y5 : BitVec e) (x6 y6 : BitVec f) :
    (x1 ++ x2 ++ x3 ++ x4 ++ x5 ++ x6) &&& (y1 ++ y2 ++ y3 ++ y4 ++ y5 ++ y6) =
      (x1 &&& y1) ++ (x2 &&& y2) ++ (x3 &&& y3) ++ (x4 &&& y4) ++ (x5 &&& y5) ++ (x6 &&& y6) := by
  simp only [BitVec.and_append]

theorem and_append8 {a b c d e f g h : Nat} (x1 y1 : BitVec a) (x2 y2 : BitVec b) (x3 y3 : BitVec c)
    (x4 y4 : BitVec d) (x5 y5 : BitVec e) (x6 y6 : BitVec f) (x7 y7 : BitVec g) (x8 y8 : BitVec h) :
    (x1 ++ x2 ++ x3 ++ x4 ++ x5 ++ x6 ++ x7 ++ x8) &&& (y1 ++ y2 ++ y3 ++ y4 ++ y5 ++ y6 ++ y7 ++ y8) =
      (x1 &&& y1) ++ (x2 &&& y2) ++ (x3 &&& y3) ++ (x4 &&& y4) ++ (x5 &&& y5) ++ (x6 &&& y6) ++ (x7 &&& y7)
        ++ (x8 &&& y8) := by
  simp only [BitVec.and_append]

/-! ## The fixed bits of an encoded word

Each lemma asks that the row's word `m` have no bit outside its mask, which `by decide` shows of a literal. -/

theorem encodeR_masked (m : Word) (rd rs1 rs2 : RegIx)
    (h : funct7Of m ++ 0#5 ++ 0#5 ++ funct3Of m ++ 0#5 ++ opcodeOf m = m) :
    encodeR m rd rs1 rs2 &&& 0xFE00707F = m := by
  refine (and_append6 (funct7Of m) 127#7 rs2 0#5 rs1 0#5 (funct3Of m) 7#3 rd 0#5 (opcodeOf m) 127#7).trans ?_
  simp only [BitVec.and_zero, and_ones3, and_ones7]
  exact h

theorem encodeShift_masked (m : Word) (rd rs1 : RegIx) (imm : Word)
    (h : funct7Of m ++ 0#5 ++ 0#5 ++ funct3Of m ++ 0#5 ++ opcodeOf m = m) :
    encodeShift m rd rs1 imm &&& 0xFE00707F = m := encodeR_masked m rd rs1 (imm.extractLsb' 0 5) h

theorem encodeS_masked (m : Word) (rs1 rs2 : RegIx) (imm : Word)
    (h : 0#7 ++ 0#5 ++ 0#5 ++ funct3Of m ++ 0#5 ++ opcodeOf m = m) :
    encodeS m rs1 rs2 imm &&& 0x0000707F = m := by
  refine (and_append6 (imm.extractLsb' 5 7) 0#7 rs2 0#5 rs1 0#5 (funct3Of m) 7#3 (imm.extractLsb' 0 5) 0#5
    (opcodeOf m) 127#7).trans ?_
  simp only [BitVec.and_zero, and_ones3, and_ones7]
  exact h

theorem encodeI_masked (m : Word) (rd rs1 : RegIx) (imm : Word)
    (h : 0#7 ++ 0#5 ++ 0#5 ++ funct3Of m ++ 0#5 ++ opcodeOf m = m) :
    encodeI m rd rs1 imm &&& 0x0000707F = m := by
  have e : encodeI m rd rs1 imm = imm.extractLsb' 5 7 ++ imm.extractLsb' 0 5 ++ rs1 ++ funct3Of m ++ rd
      ++ opcodeOf m := by
    have : imm.extractLsb' 0 12 = imm.extractLsb' 5 7 ++ imm.extractLsb' 0 5 := by
      simpa using (BitVec.extractLsb'_append_extractLsb'_eq_extractLsb' (x := imm) (start₁ := 0) (len₁ := 5)
        (start₂ := 5) (len₂ := 7) rfl).symm
    unfold encodeI; rw [this]
  rw [e]
  refine (and_append6 (imm.extractLsb' 5 7) 0#7 (imm.extractLsb' 0 5) 0#5 rs1 0#5 (funct3Of m) 7#3 rd 0#5
    (opcodeOf m) 127#7).trans ?_
  simp only [BitVec.and_zero, and_ones3, and_ones7]
  exact h

theorem encodeB_masked (m : Word) (rs1 rs2 : RegIx) (imm : Word)
    (h : 0#1 ++ 0#6 ++ 0#5 ++ 0#5 ++ funct3Of m ++ 0#4 ++ 0#1 ++ opcodeOf m = m) :
    encodeB m rs1 rs2 imm &&& 0x0000707F = m := by
  refine (and_append8 (imm.extractLsb' 12 1) 0#1 (imm.extractLsb' 5 6) 0#6 rs2 0#5 rs1 0#5 (funct3Of m) 7#3
    (imm.extractLsb' 1 4) 0#4 (imm.extractLsb' 11 1) 0#1 (opcodeOf m) 127#7).trans ?_
  simp only [BitVec.and_zero, and_ones3, and_ones7]
  exact h

theorem encodeU_masked (m : Word) (rd : RegIx) (imm : Word) (h : 0#20 ++ 0#5 ++ opcodeOf m = m) :
    encodeU m rd imm &&& 0x0000007F = m := by
  have e : ∀ (x : BitVec 20) (y : BitVec 5) (z : BitVec 7),
      (x ++ y ++ z) &&& (0#20 ++ 0#5 ++ 127#7) = 0#20 ++ 0#5 ++ z := by
    intro x y z; simp only [BitVec.and_append, BitVec.and_zero, and_ones7]
  exact (e (imm.extractLsb' 12 20) rd (opcodeOf m)).trans h

/-! ## The fields of an encoded word -/

theorem encodeR_rd (m : Word) (rd rs1 rs2 : RegIx) : rdOf (encodeR m rd rs1 rs2) = rd := by
  show (funct7Of m ++ rs2 ++ rs1 ++ funct3Of m ++ rd ++ opcodeOf m).extractLsb' 7 5 = rd
  simp (disch := decide) only [extract_append_high, extract_append_low]
  exact extract_all rd

theorem encodeR_rs1 (m : Word) (rd rs1 rs2 : RegIx) : rs1Of (encodeR m rd rs1 rs2) = rs1 := by
  show (funct7Of m ++ rs2 ++ rs1 ++ funct3Of m ++ rd ++ opcodeOf m).extractLsb' 15 5 = rs1
  simp (disch := decide) only [extract_append_high, extract_append_low]
  exact extract_all rs1

theorem encodeR_rs2 (m : Word) (rd rs1 rs2 : RegIx) : rs2Of (encodeR m rd rs1 rs2) = rs2 := by
  show (funct7Of m ++ rs2 ++ rs1 ++ funct3Of m ++ rd ++ opcodeOf m).extractLsb' 20 5 = rs2
  simp (disch := decide) only [extract_append_high, extract_append_low]
  exact extract_all rs2

theorem encodeI_rd (m : Word) (rd rs1 : RegIx) (imm : Word) : rdOf (encodeI m rd rs1 imm) = rd := by
  show (imm.extractLsb' 0 12 ++ rs1 ++ funct3Of m ++ rd ++ opcodeOf m).extractLsb' 7 5 = rd
  simp (disch := decide) only [extract_append_high, extract_append_low]
  exact extract_all rd

theorem encodeI_rs1 (m : Word) (rd rs1 : RegIx) (imm : Word) : rs1Of (encodeI m rd rs1 imm) = rs1 := by
  show (imm.extractLsb' 0 12 ++ rs1 ++ funct3Of m ++ rd ++ opcodeOf m).extractLsb' 15 5 = rs1
  simp (disch := decide) only [extract_append_high, extract_append_low]
  exact extract_all rs1

theorem encodeS_rs1 (m : Word) (rs1 rs2 : RegIx) (imm : Word) : rs1Of (encodeS m rs1 rs2 imm) = rs1 := by
  show (imm.extractLsb' 5 7 ++ rs2 ++ rs1 ++ funct3Of m ++ imm.extractLsb' 0 5 ++ opcodeOf m).extractLsb' 15 5 = rs1
  simp (disch := decide) only [extract_append_high, extract_append_low]
  exact extract_all rs1

theorem encodeS_rs2 (m : Word) (rs1 rs2 : RegIx) (imm : Word) : rs2Of (encodeS m rs1 rs2 imm) = rs2 := by
  show (imm.extractLsb' 5 7 ++ rs2 ++ rs1 ++ funct3Of m ++ imm.extractLsb' 0 5 ++ opcodeOf m).extractLsb' 20 5 = rs2
  simp (disch := decide) only [extract_append_high, extract_append_low]
  exact extract_all rs2

theorem encodeB_rs1 (m : Word) (rs1 rs2 : RegIx) (imm : Word) : rs1Of (encodeB m rs1 rs2 imm) = rs1 := by
  show (imm.extractLsb' 12 1 ++ imm.extractLsb' 5 6 ++ rs2 ++ rs1 ++ funct3Of m ++ imm.extractLsb' 1 4
    ++ imm.extractLsb' 11 1 ++ opcodeOf m).extractLsb' 15 5 = rs1
  simp (disch := decide) only [extract_append_high, extract_append_low]
  exact extract_all rs1

theorem encodeB_rs2 (m : Word) (rs1 rs2 : RegIx) (imm : Word) : rs2Of (encodeB m rs1 rs2 imm) = rs2 := by
  show (imm.extractLsb' 12 1 ++ imm.extractLsb' 5 6 ++ rs2 ++ rs1 ++ funct3Of m ++ imm.extractLsb' 1 4
    ++ imm.extractLsb' 11 1 ++ opcodeOf m).extractLsb' 20 5 = rs2
  simp (disch := decide) only [extract_append_high, extract_append_low]
  exact extract_all rs2

theorem encodeU_rd (m : Word) (rd : RegIx) (imm : Word) : rdOf (encodeU m rd imm) = rd := by
  show (imm.extractLsb' 12 20 ++ rd ++ opcodeOf m).extractLsb' 7 5 = rd
  simp (disch := decide) only [extract_append_high, extract_append_low]
  exact extract_all rd

/-! ## The immediates of an encoded word -/

/-- A word in the signed range of 12 bits is the sign extension of its low 12 bits. -/
theorem signExtend_low12 (imm : Word) (h : fitsImm12 imm = true) : (imm.extractLsb' 0 12).signExtend 32 = imm := by
  simp only [fitsImm12, decide_eq_true_eq, BitVec.toInt_eq_toNat_cond] at h
  apply BitVec.eq_of_toInt_eq
  rw [BitVec.toInt_signExtend_of_le (by decide)]
  simp only [BitVec.toInt_eq_toNat_cond, BitVec.extractLsb'_toNat, Nat.shiftRight_zero]
  have := imm.isLt
  split at h <;> split <;> omega

/-- An even word in the signed range of 13 bits is the sign extension of its low 13 bits. -/
theorem signExtend_low13 (imm : Word) (h : fitsOffset imm = true) :
    (imm.extractLsb' 1 12 ++ 0#1).signExtend 32 = imm := by
  have e : imm.extractLsb' 1 12 ++ 0#1 = imm.extractLsb' 0 13 := by
    apply BitVec.eq_of_toNat_eq
    simp only [fitsOffset, decide_eq_true_eq, BitVec.toInt_eq_toNat_cond] at h
    have := imm.isLt
    simp only [BitVec.toNat_append, BitVec.extractLsb'_toNat, BitVec.toNat_ofNat, Nat.zero_mod, Nat.or_zero,
      Nat.shiftLeft_eq, Nat.shiftRight_eq_div_pow]
    split at h <;> omega
  rw [e]
  simp only [fitsOffset, decide_eq_true_eq, BitVec.toInt_eq_toNat_cond] at h
  apply BitVec.eq_of_toInt_eq
  rw [BitVec.toInt_signExtend_of_le (by decide)]
  simp only [BitVec.toInt_eq_toNat_cond, BitVec.extractLsb'_toNat, Nat.shiftRight_zero]
  have := imm.isLt
  split at h <;> split <;> omega

/-- A word with low twelve bits zero is its upper twenty bits over zeros. -/
theorem upper_low12 (imm : Word) (h : fitsUpper imm = true) : imm.extractLsb' 12 20 ++ 0#12 = imm := by
  apply BitVec.eq_of_toNat_eq
  simp only [fitsUpper, decide_eq_true_eq] at h
  have := imm.isLt
  simp only [BitVec.toNat_append, BitVec.extractLsb'_toNat, BitVec.toNat_ofNat, Nat.zero_mod, Nat.or_zero, Nat.shiftLeft_eq, Nat.shiftRight_eq_div_pow]
  omega

/-- A word below 32 is the zero extension of its low five bits. -/
theorem zeroExtend_low5 (imm : Word) (h : fitsShamt imm = true) : (imm.extractLsb' 0 5).setWidth 32 = imm := by
  apply BitVec.eq_of_toNat_eq
  simp only [fitsShamt, decide_eq_true_eq] at h
  simp only [BitVec.toNat_setWidth, BitVec.extractLsb'_toNat, Nat.shiftRight_zero]
  omega

theorem encodeI_imm (m : Word) (rd rs1 : RegIx) (imm : Word) (h : fitsImm12 imm = true) :
    immI (encodeI m rd rs1 imm) = imm := by
  show ((imm.extractLsb' 0 12 ++ rs1 ++ funct3Of m ++ rd ++ opcodeOf m).extractLsb' 20 12).signExtend 32 = imm
  simp (disch := decide) only [extract_append_high]
  rw [show 20 - 7 - 5 - 3 - 5 = 0 from rfl, extract_all, signExtend_low12 imm h]

theorem encodeShift_imm (m : Word) (rd rs1 : RegIx) (imm : Word) (h : fitsShamt imm = true) :
    immShamt (encodeShift m rd rs1 imm) = imm := by
  show ((rs2Of (encodeR m rd rs1 (imm.extractLsb' 0 5)))).setWidth 32 = imm
  rw [encodeR_rs2, zeroExtend_low5 imm h]

theorem encodeS_imm (m : Word) (rs1 rs2 : RegIx) (imm : Word) (h : fitsImm12 imm = true) :
    immS (encodeS m rs1 rs2 imm) = imm := by
  have hi : (encodeS m rs1 rs2 imm).extractLsb' 25 7 = imm.extractLsb' 5 7 := by
    show (imm.extractLsb' 5 7 ++ rs2 ++ rs1 ++ funct3Of m ++ imm.extractLsb' 0 5 ++ opcodeOf m).extractLsb' 25 7 = imm.extractLsb' 5 7
    simp (disch := decide) only [extract_append_high]
    exact extract_all _
  have lo : (encodeS m rs1 rs2 imm).extractLsb' 7 5 = imm.extractLsb' 0 5 := by
    show (imm.extractLsb' 5 7 ++ rs2 ++ rs1 ++ funct3Of m ++ imm.extractLsb' 0 5 ++ opcodeOf m).extractLsb' 7 5 = imm.extractLsb' 0 5
    simp (disch := decide) only [extract_append_high, extract_append_low]
    exact extract_all _
  have e : imm.extractLsb' 5 7 ++ imm.extractLsb' 0 5 = imm.extractLsb' 0 12 :=
    BitVec.extractLsb'_append_extractLsb'_eq_extractLsb' rfl
  unfold immS
  rw [hi, lo, e, signExtend_low12 imm h]

theorem encodeB_imm (m : Word) (rs1 rs2 : RegIx) (imm : Word) (h : fitsOffset imm = true) :
    immB (encodeB m rs1 rs2 imm) = imm := by
  have p1 : (encodeB m rs1 rs2 imm).extractLsb' 31 1 = imm.extractLsb' 12 1 := by
    show (imm.extractLsb' 12 1 ++ imm.extractLsb' 5 6 ++ rs2 ++ rs1 ++ funct3Of m ++ imm.extractLsb' 1 4
      ++ imm.extractLsb' 11 1 ++ opcodeOf m).extractLsb' 31 1 = imm.extractLsb' 12 1
    simp (disch := decide) only [extract_append_high]
    exact extract_all _
  have p2 : (encodeB m rs1 rs2 imm).extractLsb' 7 1 = imm.extractLsb' 11 1 := by
    show (imm.extractLsb' 12 1 ++ imm.extractLsb' 5 6 ++ rs2 ++ rs1 ++ funct3Of m ++ imm.extractLsb' 1 4
      ++ imm.extractLsb' 11 1 ++ opcodeOf m).extractLsb' 7 1 = imm.extractLsb' 11 1
    simp (disch := decide) only [extract_append_high, extract_append_low]
    exact extract_all _
  have p3 : (encodeB m rs1 rs2 imm).extractLsb' 25 6 = imm.extractLsb' 5 6 := by
    show (imm.extractLsb' 12 1 ++ imm.extractLsb' 5 6 ++ rs2 ++ rs1 ++ funct3Of m ++ imm.extractLsb' 1 4
      ++ imm.extractLsb' 11 1 ++ opcodeOf m).extractLsb' 25 6 = imm.extractLsb' 5 6
    simp (disch := decide) only [extract_append_high, extract_append_low]
    exact extract_all _
  have p4 : (encodeB m rs1 rs2 imm).extractLsb' 8 4 = imm.extractLsb' 1 4 := by
    show (imm.extractLsb' 12 1 ++ imm.extractLsb' 5 6 ++ rs2 ++ rs1 ++ funct3Of m ++ imm.extractLsb' 1 4
      ++ imm.extractLsb' 11 1 ++ opcodeOf m).extractLsb' 8 4 = imm.extractLsb' 1 4
    simp (disch := decide) only [extract_append_high, extract_append_low]
    exact extract_all _
  have e1 : imm.extractLsb' 12 1 ++ imm.extractLsb' 11 1 = imm.extractLsb' 11 2 :=
    BitVec.extractLsb'_append_extractLsb'_eq_extractLsb' rfl
  have e2 : imm.extractLsb' 11 2 ++ imm.extractLsb' 5 6 = imm.extractLsb' 5 8 :=
    BitVec.extractLsb'_append_extractLsb'_eq_extractLsb' rfl
  have e3 : imm.extractLsb' 5 8 ++ imm.extractLsb' 1 4 = imm.extractLsb' 1 12 :=
    BitVec.extractLsb'_append_extractLsb'_eq_extractLsb' rfl
  unfold immB
  rw [p1, p2, p3, p4, e1, e2, e3, signExtend_low13 imm h]

theorem encodeU_imm (m : Word) (rd : RegIx) (imm : Word) (h : fitsUpper imm = true) :
    immU (encodeU m rd imm) = imm := by
  show (imm.extractLsb' 12 20 ++ rd ++ opcodeOf m).extractLsb' 12 20 ++ 0#12 = imm
  simp (disch := decide) only [extract_append_high]
  rw [show 12 - 7 - 5 = 0 from rfl, extract_all, upper_low12 imm h]

/-! ## A decoded stage register -/

/-- The admitted row a word matches is one of the 35 rows, is admitted, and accepts the word. -/
theorem matchRow_spec {sub : Subset} {w : Word} {r : Row} (h : matchRow sub w = some r) :
    r ∈ rows ∧ sub.admits r = true ∧ r.accepts w = true := by
  have hp := List.find?_some h
  simp only [Bool.and_eq_true] at hp
  exact ⟨List.mem_of_find?_eq_some h, hp.1, hp.2⟩

/-- A word that decodes to an instruction matched a row (R111). -/
theorem decode_ok {sub : Subset} {w : Word} {i : Instr} (h : decode sub w = .ok i) :
    w ≠ 0 ∧ ∃ r, matchRow sub w = some r ∧ i = r.op.instr (fieldsOf r.op.layout w) := by
  unfold decode at h
  split at h
  · cases h
  · rename_i hw
    split at h
    · rename_i r hr; cases h; exact ⟨hw, r, hr, rfl⟩
    · cases h

/-- A word that decodes to a stage register matched a row (R110, R111). -/
theorem Machine.decodeStage_some {sub : Subset} {w pc : Word} {d : Machine.Stage}
    (h : (Machine.decodeStage sub w pc).1 = some d) :
    w ≠ 0 ∧ ∃ r, matchRow sub w = some r ∧ d = Machine.stageOf r.op pc w := by
  unfold Machine.decodeStage at h
  split at h
  · cases h
  · rename_i hw
    split at h
    · rename_i r hr; cases h; exact ⟨hw, r, hr, rfl⟩
    · cases h

theorem instr_op (op : Op) (f : Fields) : (op.instr f).op = op := by cases op <;> rfl

end Sys2Proof
end

