-- ==== Sys2Proof/Laws/Memory.lean ====
section
/-! SUPPORT. Laws of the data memory: reading after writing, and the canonical form, which every operation keeps. -/

namespace Sys2Proof.Machine

theorem Memory.canonical_cons_head {c : Host.Cell} {m : Memory} :
    Memory.canonical (c :: m) = true ↔
      c.2 ≠ unlistedByte ∧ (∀ d ∈ m.head?, c.1 < d.1) ∧ Memory.canonical m = true := by
  cases m with
  | nil => simp [Memory.canonical]
  | cons d m => simp [Memory.canonical, and_assoc]

/-- The canonical form, cell by cell: no default byte, and every later cell above. -/
theorem Memory.canonical_cons {c : Host.Cell} {m : Memory} :
    Memory.canonical (c :: m) = true ↔
      c.2 ≠ unlistedByte ∧ (∀ d ∈ m, c.1 < d.1) ∧ Memory.canonical m = true := by
  induction m generalizing c with
  | nil => simp [Memory.canonical]
  | cons e m ih =>
    rw [Memory.canonical_cons_head]
    constructor
    · rintro ⟨h0, h1, h2⟩
      have hce : c.1 < e.1 := h1 e (by simp)
      refine ⟨h0, fun d hd => ?_, h2⟩
      rcases List.mem_cons.mp hd with rfl | hd
      · exact hce
      · exact hce.trans ((ih.mp h2).2.1 d hd)
    · rintro ⟨h0, h1, h2⟩
      exact ⟨h0, fun d hd => h1 d (by simp_all), h2⟩

/-- An address below every cell is not listed. -/
theorem Memory.read_below {m : Memory} {a : Nat} (h : ∀ d ∈ m, a < d.1) : Memory.read m a = unlistedByte := by
  induction m with
  | nil => rfl
  | cons c m ih =>
    have hc : a < c.1 := h c (by simp)
    rw [Memory.read, if_neg (by omega)]
    exact ih fun d hd => h d (List.mem_cons_of_mem _ hd)

/-- A written cell is an old one or the one written. -/
theorem Memory.mem_write {m : Memory} {a : Nat} {v : Byte} {d : Host.Cell} (h : d ∈ Memory.write m a v) :
    d ∈ m ∨ d = (a, v) := by
  induction m with
  | nil => simp only [Memory.write] at h; split at h <;> simp_all
  | cons c m ih =>
    simp only [Memory.write] at h
    split at h
    · split at h <;> simp_all; tauto
    · split at h
      · split at h <;> simp_all; tauto
      · rcases List.mem_cons.mp h with rfl | h
        · simp
        · rcases ih h with h | h <;> simp [h]

/-- Writing keeps the canonical form. -/
theorem Memory.write_canonical {m : Memory} (a : Nat) (v : Byte) (h : Memory.canonical m = true) :
    Memory.canonical (Memory.write m a v) = true := by
  induction m with
  | nil => simp only [Memory.write]; split <;> simp_all [Memory.canonical]
  | cons c m ih =>
    obtain ⟨h0, h1, h2⟩ := Memory.canonical_cons.mp h
    simp only [Memory.write]
    split
    · rename_i hac
      split
      · exact h
      · rename_i hv
        refine Memory.canonical_cons.mpr ⟨hv, fun d hd => ?_, h⟩
        rcases List.mem_cons.mp hd with rfl | hd
        · exact hac
        · exact hac.trans (h1 d hd)
    · rename_i hac
      split
      · rename_i heq
        split
        · exact h2
        · rename_i hv
          exact Memory.canonical_cons.mpr ⟨hv, fun d hd => heq ▸ h1 d hd, h2⟩
      · rename_i hne
        refine Memory.canonical_cons.mpr ⟨h0, fun d hd => ?_, ih h2⟩
        rcases Memory.mem_write hd with hd | rfl
        · exact h1 d hd
        · show c.1 < a; omega

/-- Reading after writing (R57, R58): the byte written, and every other byte as before. -/
theorem Memory.read_write {m : Memory} (h : Memory.canonical m = true) (a b : Nat) (v : Byte) :
    Memory.read (Memory.write m a v) b = if b = a then v else Memory.read m b := by
  induction m with
  | nil => simp only [Memory.write]; split <;> simp_all [Memory.read]
  | cons c m ih =>
    obtain ⟨-, h1, h2⟩ := Memory.canonical_cons.mp h
    simp only [Memory.write]
    split
    · rename_i hac
      split
      · rename_i hv
        split
        · rename_i hb
          subst hb
          rw [hv]
          refine Memory.read_below fun d hd => ?_
          rcases List.mem_cons.mp hd with rfl | hd
          · exact hac
          · exact hac.trans (h1 d hd)
        · rfl
      · simp only [Memory.read]
    · split
      · rename_i heq
        split
        · rename_i hv
          split
          · rename_i hb
            rw [hv]
            exact Memory.read_below fun d hd => by have := h1 d hd; omega
          · rename_i hb
            rw [Memory.read, if_neg (by omega)]
        · simp only [Memory.read]
          split
          · rfl
          · rw [if_neg (by omega)]
      · rename_i hne
        simp only [Memory.read, ih h2]
        split
        · rename_i hbc
          rw [if_neg (by omega)]
        · rfl

/-- Two canonical memories that read alike everywhere are the same data. -/
theorem Memory.ext_read {m n : Memory} (hm : Memory.canonical m = true) (hn : Memory.canonical n = true)
    (h : ∀ a, Memory.read m a = Memory.read n a) : m = n := by
  induction m generalizing n with
  | nil =>
    cases n with
    | nil => rfl
    | cons d n =>
      have := h d.1
      simp only [Memory.read, if_true] at this
      exact absurd this.symm (Memory.canonical_cons.mp hn).1
  | cons c m ih =>
    obtain ⟨hc, hcm, hm'⟩ := Memory.canonical_cons.mp hm
    cases n with
    | nil =>
      have := h c.1
      simp only [Memory.read, if_true] at this
      exact absurd this hc
    | cons d n =>
      obtain ⟨hd, hdn, hn'⟩ := Memory.canonical_cons.mp hn
      have hcd : c.1 = d.1 := by
        rcases Nat.lt_trichotomy c.1 d.1 with hlt | heq | hlt
        · have h1 := h c.1
          rw [Memory.read_below (m := d :: n) (a := c.1) ?_] at h1
          · simp only [Memory.read, if_true] at h1
            exact absurd h1 hc
          · intro e he
            rcases List.mem_cons.mp he with rfl | he
            · exact hlt
            · exact hlt.trans (hdn e he)
        · exact heq
        · have h1 := h d.1
          rw [Memory.read_below (m := c :: m) (a := d.1) ?_] at h1
          · simp only [Memory.read, if_true] at h1
            exact absurd h1.symm hd
          · intro e he
            rcases List.mem_cons.mp he with rfl | he
            · exact hlt
            · exact hlt.trans (hcm e he)
      have hbytes : c.2 = d.2 := by
        have h1 := h c.1
        simpa only [Memory.read, if_true, if_pos hcd] using h1
      have hmn : m = n := by
        refine ih hm' hn' fun a => ?_
        by_cases ha : a = c.1
        · subst ha
          rw [Memory.read_below hcm, Memory.read_below fun e he => by have := hdn e he; omega]
        · have h1 := h a
          simpa only [Memory.read, if_neg ha, if_neg (hcd ▸ ha)] using h1
      rw [Prod.ext hcd hbytes, hmn]

/-! ## The canonical form within `DMEM_SIZE` -/

theorem Memory.wf_iff {size : Nat} {m : Memory} :
    Memory.wf size m = true ↔ Memory.canonical m = true ∧ ∀ c ∈ m, c.1 < size := by
  simp [Memory.wf, List.all_eq_true]

theorem Memory.wf_nil (size : Nat) : Memory.wf size [] = true := rfl

theorem Memory.write_wf {size : Nat} {m : Memory} {a : Nat} (v : Byte) (h : Memory.wf size m = true)
    (ha : a < size) : Memory.wf size (Memory.write m a v) = true := by
  obtain ⟨h1, h2⟩ := Memory.wf_iff.mp h
  refine Memory.wf_iff.mpr ⟨Memory.write_canonical a v h1, fun c hc => ?_⟩
  rcases Memory.mem_write hc with hc | rfl
  · exact h2 c hc
  · exact ha

theorem Memory.wf_canonical {size : Nat} {m : Memory} (h : Memory.wf size m = true) : Memory.canonical m = true :=
  (Memory.wf_iff.mp h).1

/-- Nothing is listed at or above the size. -/
theorem Memory.read_beyond {size : Nat} {m : Memory} (h : Memory.wf size m = true) {a : Nat} (ha : size ≤ a) :
    Memory.read m a = unlistedByte := by
  have h2 := (Memory.wf_iff.mp h).2
  clear h
  induction m with
  | nil => rfl
  | cons c m ih =>
    have : c.1 < size := h2 c (by simp)
    rw [Memory.read, if_neg (by omega)]
    exact ih fun d hd => h2 d (List.mem_cons_of_mem _ hd)

theorem Memory.writeLE_wf {size : Nat} {m : Memory} {a : Nat} (v : Word) (n : Width) (h : Memory.wf size m = true)
    (ha : a + n.bytes ≤ size) : Memory.wf size (Memory.writeLE m a v n) = true := by
  cases n <;> simp only [Width.bytes] at ha <;> simp only [Memory.writeLE] <;>
    repeat' first | exact h | refine Memory.write_wf _ ?_ (by omega)

/-- A canonical store (R58): each of its bytes, and no other. -/
theorem Memory.read_writeLE {m : Memory} (h : Memory.canonical m = true) (a : Nat) (v : Word) (n : Width) (b : Nat) :
    Memory.read (Memory.writeLE m a v n) b =
      if a ≤ b ∧ b < a + n.bytes then v.extractLsb' (8 * (b - a)) 8 else Memory.read m b := by
  have hw := fun (m : Memory) (a : Nat) (v : Byte) (h : Memory.canonical m = true) => Memory.write_canonical a v h
  cases n
  · rw [Memory.writeLE, Memory.read_write h, show Width.byte.bytes = 1 from rfl]
    split
    · rename_i hb; subst hb; rw [if_pos (by omega)]; simp
    · rw [if_neg (by omega)]
  · rw [Memory.writeLE, Memory.read_write (hw _ _ _ h), Memory.read_write h]
    rw [show Width.half.bytes = 2 from rfl]
    by_cases h0 : b = a
    · subst h0; rw [if_neg (by omega), if_pos rfl, if_pos (by omega)]; simp
    by_cases h1 : b = a + 1
    · subst h1; rw [if_pos rfl, if_pos (by omega)]; simp
    rw [if_neg h1, if_neg h0, if_neg (by omega)]
  · rw [Memory.writeLE, Memory.read_write (hw _ _ _ (hw _ _ _ (hw _ _ _ h))),
      Memory.read_write (hw _ _ _ (hw _ _ _ h)), Memory.read_write (hw _ _ _ h), Memory.read_write h]
    rw [show Width.word.bytes = 4 from rfl]
    by_cases h0 : b = a
    · subst h0; rw [if_neg (by omega), if_neg (by omega), if_neg (by omega), if_pos rfl, if_pos (by omega)]; simp
    by_cases h1 : b = a + 1
    · subst h1; rw [if_neg (by omega), if_neg (by omega), if_pos rfl, if_pos (by omega)]; simp
    by_cases h2 : b = a + 2
    · subst h2; rw [if_neg (by omega), if_pos rfl, if_pos (by omega)]; simp
    by_cases h3 : b = a + 3
    · subst h3; rw [if_pos rfl, if_pos (by omega)]; simp
    rw [if_neg h3, if_neg h2, if_neg h1, if_neg h0, if_neg (by omega)]

/-- A memory built from a list of cells has the canonical form (R55). -/
theorem Memory.ofCells_wf (size : Nat) (cells : List Host.Cell) : Memory.wf size (Memory.ofCells size cells) = true := by
  suffices ∀ m, Memory.wf size m = true →
      Memory.wf size (cells.foldl (fun m c => if c.1 < size then Memory.write m c.1 c.2 else m) m) = true from
    this [] (Memory.wf_nil size)
  induction cells with
  | nil => exact fun _ h => h
  | cons c cells ih =>
    intro m h
    refine ih _ ?_
    dsimp only
    split
    · exact Memory.write_wf _ h ‹_›
    · exact h

/-! ## Little-endian reads (R57) -/

theorem extract_setWidth {n : Nat} (x : BitVec n) (s l : Nat) (h : s + l ≤ n) (hn : n ≤ 32) :
    (x.setWidth 32).extractLsb' s l = x.extractLsb' s l := by
  ext i hi
  rw [BitVec.getElem_extractLsb', BitVec.getElem_extractLsb', BitVec.getLsbD_setWidth]
  simp [show s + i < 32 by omega]

/-- A read of `n` bytes has no bit above them. -/
theorem Memory.readLE_lt (m : Memory) (a : Nat) (n : Width) : (Memory.readLE m a n).toNat < 2 ^ (8 * n.bytes) := by
  cases n with
  | byte =>
    rw [show (2 ^ (8 * Width.byte.bytes)) = 256 from rfl]
    have := (Memory.read m a).isLt
    simp only [Memory.readLE, BitVec.toNat_setWidth]; omega
  | half =>
    rw [show (2 ^ (8 * Width.half.bytes)) = 65536 from rfl]
    have := (Memory.read m (a + 1) ++ Memory.read m a).isLt
    simp only [Memory.readLE, BitVec.toNat_setWidth]; omega
  | word => exact BitVec.isLt _

/-- Byte `k` of a read is the byte at `a + k`. -/
theorem Memory.readLE_bytes (m : Memory) (a : Nat) (n : Width) (k : Nat) (hk : k < n.bytes) :
    (Memory.readLE m a n).extractLsb' (8 * k) 8 = Memory.read m (a + k) := by
  cases n with
  | byte =>
    have hk : k < 1 := hk
    obtain rfl : k = 0 := by omega
    rw [Memory.readLE, extract_setWidth _ _ _ (by decide) (by decide)]; simp
  | half =>
    have hk : k < 2 := hk
    rw [Memory.readLE, extract_setWidth _ _ _ (by omega) (by decide)]
    obtain rfl | rfl : k = 0 ∨ k = 1 := by omega
    · rw [extract_append_low _ _ _ _ (by decide)]; exact extract_all _
    · rw [extract_append_high _ _ _ _ (by decide)]; exact extract_all _
  | word =>
    have hk : k < 4 := hk
    rw [Memory.readLE]
    obtain rfl | rfl | rfl | rfl : k = 0 ∨ k = 1 ∨ k = 2 ∨ k = 3 := by omega
    all_goals simp (disch := decide) only [extract_append_low, extract_append_high]
    all_goals exact extract_all _

end Sys2Proof.Machine
end

