-- ==== Sys2Proof/Laws/PerInstr.lean ====
section
/-! SUPPORT. A law of every instruction as syntax: its word, as the encoder writes it, matches the row of the opcode
table that names it (R94, R104). -/

namespace Sys2Proof.Laws.RowOfWord

/-- The encoder's word for `i` is accepted by a row of the opcode table whose operation is `i`'s. -/
def Statement (i : Instr) : Prop := ∃ r ∈ rows, r.op = i.op ∧ r.accepts (encodeWord i) = true

/-- The row of number `k` names `i` and accepts its word. -/
theorem of_row {i : Instr} (k : Fin 35) (hop : (rows[k]'k.isLt).op = i.op)
    (h : encodeWord i &&& (rows[k]'k.isLt).mask = (rows[k]'k.isLt).bits) : Statement i :=
  ⟨rows[k]'k.isLt, List.getElem_mem _, hop, by rw [Row.accepts, beq_iff_eq]; exact h⟩

theorem add (rd rs1 rs2 : RegIx) : Statement (.add rd rs1 rs2) :=
  of_row 0 rfl (encodeR_masked _ _ _ _ (by decide))

theorem sub (rd rs1 rs2 : RegIx) : Statement (.sub rd rs1 rs2) :=
  of_row 1 rfl (encodeR_masked _ _ _ _ (by decide))

theorem sll (rd rs1 rs2 : RegIx) : Statement (.sll rd rs1 rs2) :=
  of_row 2 rfl (encodeR_masked _ _ _ _ (by decide))

theorem slt (rd rs1 rs2 : RegIx) : Statement (.slt rd rs1 rs2) :=
  of_row 3 rfl (encodeR_masked _ _ _ _ (by decide))

theorem sltu (rd rs1 rs2 : RegIx) : Statement (.sltu rd rs1 rs2) :=
  of_row 4 rfl (encodeR_masked _ _ _ _ (by decide))

theorem xor (rd rs1 rs2 : RegIx) : Statement (.xor rd rs1 rs2) :=
  of_row 5 rfl (encodeR_masked _ _ _ _ (by decide))

theorem srl (rd rs1 rs2 : RegIx) : Statement (.srl rd rs1 rs2) :=
  of_row 6 rfl (encodeR_masked _ _ _ _ (by decide))

theorem sra (rd rs1 rs2 : RegIx) : Statement (.sra rd rs1 rs2) :=
  of_row 7 rfl (encodeR_masked _ _ _ _ (by decide))

theorem or (rd rs1 rs2 : RegIx) : Statement (.or rd rs1 rs2) :=
  of_row 8 rfl (encodeR_masked _ _ _ _ (by decide))

theorem and (rd rs1 rs2 : RegIx) : Statement (.and rd rs1 rs2) :=
  of_row 9 rfl (encodeR_masked _ _ _ _ (by decide))

theorem addi (rd rs1 : RegIx) (imm : Word) : Statement (.addi rd rs1 imm) :=
  of_row 10 rfl (encodeI_masked _ _ _ _ (by decide))

theorem slti (rd rs1 : RegIx) (imm : Word) : Statement (.slti rd rs1 imm) :=
  of_row 11 rfl (encodeI_masked _ _ _ _ (by decide))

theorem sltiu (rd rs1 : RegIx) (imm : Word) : Statement (.sltiu rd rs1 imm) :=
  of_row 12 rfl (encodeI_masked _ _ _ _ (by decide))

theorem xori (rd rs1 : RegIx) (imm : Word) : Statement (.xori rd rs1 imm) :=
  of_row 13 rfl (encodeI_masked _ _ _ _ (by decide))

theorem ori (rd rs1 : RegIx) (imm : Word) : Statement (.ori rd rs1 imm) :=
  of_row 14 rfl (encodeI_masked _ _ _ _ (by decide))

theorem andi (rd rs1 : RegIx) (imm : Word) : Statement (.andi rd rs1 imm) :=
  of_row 15 rfl (encodeI_masked _ _ _ _ (by decide))

theorem slli (rd rs1 : RegIx) (imm : Word) : Statement (.slli rd rs1 imm) :=
  of_row 16 rfl (encodeShift_masked _ _ _ _ (by decide))

theorem srli (rd rs1 : RegIx) (imm : Word) : Statement (.srli rd rs1 imm) :=
  of_row 17 rfl (encodeShift_masked _ _ _ _ (by decide))

theorem srai (rd rs1 : RegIx) (imm : Word) : Statement (.srai rd rs1 imm) :=
  of_row 18 rfl (encodeShift_masked _ _ _ _ (by decide))

theorem lb (rd rs1 : RegIx) (imm : Word) : Statement (.lb rd rs1 imm) :=
  of_row 19 rfl (encodeI_masked _ _ _ _ (by decide))

theorem lh (rd rs1 : RegIx) (imm : Word) : Statement (.lh rd rs1 imm) :=
  of_row 20 rfl (encodeI_masked _ _ _ _ (by decide))

theorem lw (rd rs1 : RegIx) (imm : Word) : Statement (.lw rd rs1 imm) :=
  of_row 21 rfl (encodeI_masked _ _ _ _ (by decide))

theorem lbu (rd rs1 : RegIx) (imm : Word) : Statement (.lbu rd rs1 imm) :=
  of_row 22 rfl (encodeI_masked _ _ _ _ (by decide))

theorem lhu (rd rs1 : RegIx) (imm : Word) : Statement (.lhu rd rs1 imm) :=
  of_row 23 rfl (encodeI_masked _ _ _ _ (by decide))

theorem sb (rs1 rs2 : RegIx) (imm : Word) : Statement (.sb rs1 rs2 imm) :=
  of_row 24 rfl (encodeS_masked _ _ _ _ (by decide))

theorem sh (rs1 rs2 : RegIx) (imm : Word) : Statement (.sh rs1 rs2 imm) :=
  of_row 25 rfl (encodeS_masked _ _ _ _ (by decide))

theorem sw (rs1 rs2 : RegIx) (imm : Word) : Statement (.sw rs1 rs2 imm) :=
  of_row 26 rfl (encodeS_masked _ _ _ _ (by decide))

theorem beq (rs1 rs2 : RegIx) (imm : Word) : Statement (.beq rs1 rs2 imm) :=
  of_row 27 rfl (encodeB_masked _ _ _ _ (by decide))

theorem bne (rs1 rs2 : RegIx) (imm : Word) : Statement (.bne rs1 rs2 imm) :=
  of_row 28 rfl (encodeB_masked _ _ _ _ (by decide))

theorem blt (rs1 rs2 : RegIx) (imm : Word) : Statement (.blt rs1 rs2 imm) :=
  of_row 29 rfl (encodeB_masked _ _ _ _ (by decide))

theorem bge (rs1 rs2 : RegIx) (imm : Word) : Statement (.bge rs1 rs2 imm) :=
  of_row 30 rfl (encodeB_masked _ _ _ _ (by decide))

theorem bltu (rs1 rs2 : RegIx) (imm : Word) : Statement (.bltu rs1 rs2 imm) :=
  of_row 31 rfl (encodeB_masked _ _ _ _ (by decide))

theorem bgeu (rs1 rs2 : RegIx) (imm : Word) : Statement (.bgeu rs1 rs2 imm) :=
  of_row 32 rfl (encodeB_masked _ _ _ _ (by decide))

theorem lui (rd : RegIx) (imm : Word) : Statement (.lui rd imm) :=
  of_row 33 rfl (encodeU_masked _ _ _ (by decide))

theorem auipc (rd : RegIx) (imm : Word) : Statement (.auipc rd imm) :=
  of_row 34 rfl (encodeU_masked _ _ _ (by decide))

end Sys2Proof.Laws.RowOfWord
end

