-- ==== Sys2Proof/Laws/Registers.lean ====
section
/-! SUPPORT. Laws of the register file: register 0, and reading after writing (R21). -/

namespace Sys2Proof.Machine

@[simp] theorem Regs.read_zero (x : Regs) : Regs.read x 0 = 0 := rfl

@[simp] theorem Regs.write_zero (x : Regs) (v : Word) : Regs.write x 0 v = x := rfl

theorem Regs.read_of_ne (x : Regs) {i : RegIx} (h : i ≠ 0) : Regs.read x i = x[i.toNat]'i.isLt := if_neg h

theorem Regs.write_of_ne (x : Regs) {i : RegIx} (h : i ≠ 0) (v : Word) :
    Regs.write x i v = x.set i.toNat v i.isLt := if_neg h

@[simp] theorem Regs.read_write_self (x : Regs) {i : RegIx} (h : i ≠ 0) (v : Word) :
    Regs.read (Regs.write x i v) i = v := by
  rw [Regs.read_of_ne _ h, Regs.write_of_ne _ h, Vector.getElem_set_self]

theorem Regs.read_write_other (x : Regs) {i j : RegIx} (h : j ≠ i) (v : Word) :
    Regs.read (Regs.write x i v) j = Regs.read x j := by
  by_cases hj : j = 0
  · subst hj; rfl
  by_cases hi : i = 0
  · subst hi; rfl
  have hne : i.toNat ≠ j.toNat := fun e => h (BitVec.eq_of_toNat_eq e.symm)
  rw [Regs.read_of_ne _ hj, Regs.read_of_ne _ hj, Regs.write_of_ne _ hi, Vector.getElem_set_ne _ _ hne]

/-- A write leaves entry 0 as it is. -/
theorem Regs.write_entry_zero (x : Regs) (i : RegIx) (v : Word) : (Regs.write x i v)[0] = x[0] := by
  by_cases hi : i = 0
  · subst hi; rfl
  have : i.toNat ≠ 0 := fun e => hi (BitVec.eq_of_toNat_eq e)
  rw [Regs.write_of_ne _ hi, Vector.getElem_set_ne _ _ this]

@[simp] theorem Regs.ofWords_entry_zero (v : Vector Word 32) : (Regs.ofWords v)[0] = 0 := by
  simp [Regs.ofWords]

theorem Regs.read_ofWords (v : Vector Word 32) {i : RegIx} (h : i ≠ 0) :
    Regs.read (Regs.ofWords v) i = v[i.toNat]'i.isLt := by
  have : 0 ≠ i.toNat := fun e => h (BitVec.eq_of_toNat_eq e.symm)
  rw [Regs.read_of_ne _ h, Regs.ofWords, Vector.getElem_set_ne _ _ this]

end Sys2Proof.Machine
end

