-- ==== Sys2Proof/Laws/Stage.lean ====
section
/-! SUPPORT. What a decoded stage register holds, that moving down the pipeline keeps it decoded, and what a fetch finds. -/

namespace Sys2Proof.Machine

/-! ## Decoded stage registers (R111, R113, R114) -/

/-- A stage register the decoder gave holds its row's operation, that operation's format, control signals and uses, and the
fields of its word. -/
theorem decodedStage_spec {sub : Subset} {d : Stage} (h : decodedStage sub d = true) :
    d.word ≠ 0 ∧ (∃ r, matchRow sub d.word = some r ∧ r.op = d.op) ∧ d.fmt = d.op.layout.fmt ∧
    d.ctrl = controlsOf d.op.layout.fmt ∧ d.uses1 = usesSource1 d.op.layout.fmt ∧
    d.uses2 = usesSource2 d.op.layout.fmt ∧
    (⟨d.rd, d.rs1, d.rs2, d.funct3, d.funct7, d.imm⟩ : Fields) = fieldsOf d.op.layout d.word := by
  unfold decodedStage at h
  obtain ⟨hw, r, hm, e⟩ := decodeStage_some (eq_of_beq h)
  have hop : d.op = r.op := congrArg Stage.op e
  refine ⟨hw, ⟨r, hm, hop.symm⟩, ?_⟩
  rw [hop]
  exact ⟨congrArg Stage.fmt e, congrArg Stage.ctrl e, congrArg Stage.uses1 e, congrArg Stage.uses2 e,
    congrArg (fun d : Stage => (⟨d.rd, d.rs1, d.rs2, d.funct3, d.funct7, d.imm⟩ : Fields)) e⟩

/-- The word of a decoded stage register decodes to its instruction. -/
theorem decodedStage_decode {sub : Subset} {d : Stage} (h : decodedStage sub d = true) :
    decode sub d.word = .ok d.instr := by
  obtain ⟨hw, ⟨r, hm, hop⟩, -, -, -, -, hf⟩ := decodedStage_spec h
  unfold decode Stage.instr
  rw [if_neg hw, hm, hf, ← hop]

/-- What the decoder gives is decoded, and plain. -/
theorem decodeStage_decoded {sub : Subset} {w pc : Word} {d : Stage} (h : (decodeStage sub w pc).1 = some d) :
    decodedStage sub d = true ∧ plainStage d = d ∧ d.word = w ∧ d.pc = pc := by
  obtain ⟨_, r, _, e⟩ := decodeStage_some h
  have hp : plainStage d = d := by rw [e]; rfl
  have hw : d.word = w := by rw [e]; rfl
  have hpc : d.pc = pc := by rw [e]; rfl
  refine ⟨?_, hp, hw, hpc⟩
  unfold decodedStage
  rw [hp, hw, hpc, h]
  exact beq_self_eq_true _

@[simp] theorem decodedStage_withTags (sub : Subset) (d : Stage) (e m : Option Stage) :
    decodedStage sub (withTags d e m) = decodedStage sub d := rfl

@[simp] theorem decodedStage_values (sub : Subset) (d : Stage) (alu sdata : Word) :
    decodedStage sub { d with alu := alu, sdata := sdata } = decodedStage sub d := rfl

@[simp] theorem decodedStage_mdata (sub : Subset) (d : Stage) (v : Word) :
    decodedStage sub { d with mdata := v } = decodedStage sub d := rfl

@[simp] theorem plainStage_withTags (d : Stage) (e m : Option Stage) : plainStage (withTags d e m) = plainStage d := rfl

/-- Only loads read memory, only stores write it, and each has a width (R61, R113). -/
theorem decodedStage_access {sub : Subset} {d : Stage} (h : decodedStage sub d = true) :
    (d.ctrl.memRead = true → ∃ n ext, widthOf d.op = some n ∧ extOf d.op = some ext ∧ d.ctrl.memWrite = false) ∧
    (d.ctrl.memWrite = true → ∃ n, widthOf d.op = some n ∧ extOf d.op = none ∧ d.ctrl.memRead = false) := by
  obtain ⟨-, -, -, hc, -⟩ := decodedStage_spec h
  rw [hc]
  generalize d.op = op
  cases op <;> simp [Op.layout, Layout.fmt, controlsOf, widthOf, extOf]

/-- The memory step of a decoded stage register stops only with a fault of the run, on the checks of its own access. -/
theorem memoryStep_decoded_error {s : State} {d : Stage} {e : Stop} (hd : s.exmem = some d)
    (h : decodedStage s.params.subset d = true) (he : memoryStep s = .error e) :
    ∃ n k, widthOf d.op = some n ∧ accessFault s d.alu n = some k ∧ e = .raise k d.pc d.alu := by
  obtain ⟨hr, hw⟩ := decodedStage_access h
  obtain ⟨d', hd', he⟩ := memoryStep_error.1 he
  obtain rfl : d = d' := Option.some.inj (hd.symm.trans hd')
  rcases he with he | ⟨v, -, he⟩
  · cases hm : d.ctrl.memRead with
    | false => rw [memData_of_no_read hm] at he; cases he
    | true =>
      obtain ⟨n, ext, hn, hx, -⟩ := hr hm
      rw [memData_of_read hm, loadOf_eq hn hx] at he
      obtain ⟨k, hk, rfl⟩ := loadAction_error.1 he
      exact ⟨n, k, hn, hk, rfl⟩
  · cases hm : d.ctrl.memWrite with
    | false => rw [memAfter_of_no_write hm] at he; cases he
    | true =>
      obtain ⟨n, hn, hx, -⟩ := hw hm
      rw [memAfter_of_write hm, storeOf_eq hn hx] at he
      obtain ⟨k, hk, rfl⟩ := memWrite_error.1 he
      exact ⟨n, k, hn, hk, rfl⟩

/-- What the memory step of a decoded stage register answers: for a load what it read, for a store the memory with its bytes
stored, for any other instruction nothing. -/
theorem memoryStep_decoded_ok {s : State} {d : Stage} {m : Option Stage × Memory} (hd : s.exmem = some d)
    (h : decodedStage s.params.subset d = true) (hm : memoryStep s = .ok m) :
    (d.ctrl.memRead = false ∧ d.ctrl.memWrite = false ∧ m = (some { d with mdata := 0 }, s.dmem))
    ∨ (∃ n ext, widthOf d.op = some n ∧ extOf d.op = some ext ∧ d.ctrl.memRead = true ∧ d.ctrl.memWrite = false ∧
        accessFault s d.alu n = none ∧
        m = (some { d with mdata := ext (Memory.readLE s.dmem d.alu.toNat n) }, s.dmem))
    ∨ (∃ n, widthOf d.op = some n ∧ extOf d.op = none ∧ d.ctrl.memRead = false ∧ d.ctrl.memWrite = true ∧
        accessFault s d.alu n = none ∧
        m = (some { d with mdata := 0 }, Memory.writeLE s.dmem d.alu.toNat d.sdata n)) := by
  obtain ⟨hr, hw⟩ := decodedStage_access h
  obtain ⟨v, mem, h1, h2, rfl⟩ := (memoryStep_some hd).1 hm
  cases hmr : d.ctrl.memRead with
  | true =>
    obtain ⟨n, ext, hn, hx, hmw⟩ := hr hmr
    rw [memData_of_read hmr, loadOf_eq hn hx] at h1
    obtain ⟨hf, rfl⟩ := loadAction_ok.1 h1
    rw [memAfter_of_no_write hmw] at h2
    cases h2
    exact .inr (.inl ⟨n, ext, hn, hx, rfl, hmw, hf, rfl⟩)
  | false =>
    rw [memData_of_no_read hmr] at h1
    cases h1
    cases hmw : d.ctrl.memWrite with
    | true =>
      obtain ⟨n, hn, hx, -⟩ := hw hmw
      rw [memAfter_of_write hmw, storeOf_eq hn hx] at h2
      obtain ⟨hf, rfl⟩ := memWrite_ok.1 h2
      exact .inr (.inr ⟨n, hn, hx, rfl, rfl, hf, rfl⟩)
    | false =>
      rw [memAfter_of_no_write hmw] at h2
      cases h2
      exact .inl ⟨rfl, rfl, rfl⟩

/-! ## The branch resolution unit (R224) -/

theorem lessSigned_iff (a b : Word) : lessSigned a b = true ↔ a.toInt < b.toInt := by simp [lessSigned]

theorem lessUnsigned_iff (a b : Word) : lessUnsigned a b = true ↔ a.toNat < b.toNat := by simp [lessUnsigned]

/-- The execute step's answer, branches apart: a branch checks the target it takes, any other instruction answers at once and
takes none. -/
theorem executeStep_shape (s : State) (d : Stage) :
    (∃ c : Word → Word → Bool, (∀ a b, branchCondition d.op a b = some (c a b)) ∧
      executeStep s d = branchStep c s d (operand1 s d) (operand2 s d))
    ∨ ((∀ a b, branchCondition d.op a b = none) ∧
      ∃ alu sdata, executeStep s d = .ok ⟨some { d with alu := alu, sdata := sdata }, none⟩) := by
  cases hop : d.op <;> simp only [executeStep, hop] <;>
    first
    | exact .inr ⟨fun _ _ => rfl, _, _, by rw [← hop]; rfl⟩
    | (refine .inl ⟨_, fun a b => ?_, rfl⟩
       simp only [branchCondition, Option.some.injEq]
       rw [Bool.eq_iff_iff]
       simp [lessSigned, lessUnsigned])

/-- The execute step takes exactly the target `takenTarget` names, and it is a good one. -/
theorem executed_target {s : State} {x : Executed} (h : executed s = .ok x) :
    x.target = takenTarget s ∧ ∀ t, x.target = some t → goodTarget s.params t := by
  unfold executed at h
  unfold takenTarget
  cases hd : s.idex with
  | none => rw [hd] at h; cases h; exact ⟨rfl, fun t ht => by cases ht⟩
  | some d =>
    rw [hd] at h
    dsimp only at h ⊢
    rcases executeStep_shape s d with ⟨c, hc, he⟩ | ⟨hc, alu, sdata, he⟩
    · rw [he] at h
      obtain ⟨-, h⟩ := branchStep_ok.1 h
      rw [hc]
      cases hb : d.ctrl.branch && c (operand1 s d) (operand2 s d) with
      | true =>
        rw [hb, if_pos rfl] at h
        obtain ⟨h1, h2, h3⟩ := h
        have : (d.ctrl.branch && some (c (operand1 s d) (operand2 s d)) == some true) = true := by
          simpa using hb
        rw [if_pos this]
        exact ⟨h3, fun t ht => by rw [h3] at ht; cases ht; exact ⟨h1, h2⟩⟩
      | false =>
        rw [hb, if_neg Bool.false_ne_true] at h
        have : (d.ctrl.branch && some (c (operand1 s d) (operand2 s d)) == some true) = false := by
          simpa using hb
        rw [this, if_neg Bool.false_ne_true]
        exact ⟨h, fun t ht => by rw [h] at ht; cases ht⟩
    · rw [he] at h
      cases h
      rw [hc, show (d.ctrl.branch && (none : Option Bool) == some true) = false by simp, if_neg Bool.false_ne_true]
      exact ⟨rfl, fun t ht => by cases ht⟩

/-- The execute step stops only when the branch in ID/EX is taken to a bad target (R200). -/
theorem executed_error {s : State} {e : Stop} (h : executed s = .error e) :
    ∃ d t, s.idex = some d ∧ takenTarget s = some t ∧ ¬ goodTarget s.params t ∧
      e = .raise (if t.toNat % 4 ≠ 0 then .misalignedTarget else .targetRange) d.pc t := by
  unfold executed at h
  unfold takenTarget
  cases hd : s.idex with
  | none => rw [hd] at h; cases h
  | some d =>
    rw [hd] at h
    dsimp only at h ⊢
    rcases executeStep_shape s d with ⟨c, hc, he⟩ | ⟨hc, alu, sdata, he⟩
    · rw [he] at h
      obtain ⟨hb, h⟩ := branchStep_error.1 h
      have : (d.ctrl.branch && branchCondition d.op (operand1 s d) (operand2 s d) == some true) = true := by
        rw [hc]; simpa using hb
      rw [if_pos this]
      refine ⟨d, _, rfl, rfl, ?_, ?_⟩
      · rcases h with ⟨h, -⟩ | ⟨h1, h2, -⟩
        · exact fun g => h g.1
        · exact fun g => absurd g.2 (Nat.not_le.2 h2)
      · rcases h with ⟨h1, rfl⟩ | ⟨h1, h2, rfl⟩
        · rw [if_pos h1]
        · rw [if_neg (not_not.2 h1)]
    · rw [he] at h; cases h

/-- Where the branch in ID/EX is taken to a bad target the execute step stops (R200). -/
theorem executed_bad_target {s : State} {d : Stage} {t : Word} (hd : s.idex = some d) (ht : takenTarget s = some t)
    (hg : ¬ goodTarget s.params t) :
    executed s = .error (.raise (if t.toNat % 4 ≠ 0 then .misalignedTarget else .targetRange) d.pc t) := by
  cases h : executed s with
  | ok x =>
    obtain ⟨h1, h2⟩ := executed_target h
    exact absurd (h2 t (h1.trans ht)) hg
  | error e =>
    obtain ⟨d', t', hd', ht', -, rfl⟩ := executed_error h
    rw [hd] at hd'; rw [ht] at ht'; cases hd'; cases ht'; rfl

/-! ## Forwarding and hazards (R218, R221) -/

theorem writesReg_some {d : Stage} {r : RegIx} :
    writesReg (some d) r = true ↔ d.ctrl.regWrite = true ∧ d.rd ≠ 0 ∧ d.rd = r := by
  simp [writesReg, and_assoc]

theorem forwardTag_ex {u : Bool} {r : RegIx} {e m : Option Stage} :
    forwardTag u r e m = .ex ↔ u = true ∧ writesReg e r = true := by
  unfold forwardTag
  cases u <;> cases writesReg e r <;> cases writesReg m r <;> simp

theorem forwardTag_mem {u : Bool} {r : RegIx} {e m : Option Stage} :
    forwardTag u r e m = .mem ↔ u = true ∧ writesReg e r = false ∧ writesReg m r = true := by
  unfold forwardTag
  cases u <;> cases writesReg e r <;> cases writesReg m r <;> simp

theorem forwardTag_none {u : Bool} {r : RegIx} {e m : Option Stage} :
    forwardTag u r e m = .none ↔ u = false ∨ (writesReg e r = false ∧ writesReg m r = false) := by
  unfold forwardTag
  cases u <;> cases writesReg e r <;> cases writesReg m r <;> simp

theorem hazard_some {c x : Stage} :
    hazard (some c) (some x) = true ↔ x.ctrl.memRead = true ∧ x.rd ≠ 0 ∧
      ((c.uses1 = true ∧ c.rs1 = x.rd) ∨ (c.uses2 = true ∧ c.rs2 = x.rd)) := by
  simp [hazard, and_assoc]

@[simp] theorem hazard_none_left (x : Option Stage) : hazard none x = false := by cases x <;> rfl

@[simp] theorem hazard_none_right (c : Option Stage) : hazard c none = false := rfl

/-- The register file after writeback (R212): the register the instruction in MEM/WB writes, and no other. -/
theorem read_writeback (s : State) (r : RegIx) :
    Regs.read (writeback s) r = if writesReg s.memwb r = true then memValue s else Regs.read s.x r := by
  unfold writeback memValue
  cases hm : s.memwb with
  | none => rfl
  | some d =>
    dsimp only
    by_cases hw : writesReg (some d) r = true
    · obtain ⟨h1, h2, rfl⟩ := writesReg_some.1 hw
      have : (d.ctrl.regWrite && d.rd != 0) = true := by simpa [h1] using h2
      rw [if_pos hw, if_pos this, Regs.read_write_self _ h2]
    · rw [if_neg hw]
      split
      · rename_i h
        simp only [Bool.and_eq_true, bne_iff_ne] at h
        exact Regs.read_write_other _ (fun e => hw (writesReg_some.2 ⟨h.1, h.2, e.symm⟩)) _
      · rfl

/-- The decision of a cycle (R211). -/
theorem decisionOf_flush {s : State} {o : Option Word} {t : Word} : decisionOf s o = .flush t ↔ o = some t := by
  unfold decisionOf
  cases o with
  | none => cases hazard (candidate s).1 s.idex <;> simp
  | some u => simp

theorem decisionOf_stall {s : State} {o : Option Word} :
    decisionOf s o = .stall ↔ o = none ∧ hazard (candidate s).1 s.idex = true := by
  unfold decisionOf
  cases o with
  | none => cases hazard (candidate s).1 s.idex <;> simp
  | some u => simp

theorem decisionOf_normal {s : State} {o : Option Word} :
    decisionOf s o = .normal ↔ o = none ∧ hazard (candidate s).1 s.idex = false := by
  unfold decisionOf
  cases o with
  | none => cases hazard (candidate s).1 s.idex <;> simp
  | some u => simp

/-! ## Fetch (R51) -/

/-- At a multiple of 4 below `4N` there is a word. -/
theorem fetchWord_defined {p : Params} {pc : Word} (h4 : pc.toNat % 4 = 0) (h : pc.toNat < p.progEnd) :
    ∃ w, fetchWord p pc = some w := by
  unfold fetchWord Params.progEnd at *
  rw [if_pos h4]
  exact ⟨_, List.getElem?_eq_getElem (by omega)⟩

/-- A completed cycle from a running state is the cycle of `completeCycle`. -/
theorem completes_cycle {s t : State} (h : completes s t) :
    ∃ m x f, memoryStep s = .ok m ∧ executed s = .ok x ∧
      frontEnd s (s.cycle + 1) (decisionOf s x.target) = .ok f ∧ t = completeCycle s m.1 m.2 x.exmem f := by
  obtain ⟨⟨h1, -, h2, h3⟩, h4, h5⟩ := h
  rw [step_cycle h1 h2 h3] at h4
  rcases (cycle_next h4).2 with ⟨k, pc, info, -, rfl⟩ | ⟨m, k, pc, info, -, -, rfl⟩ | h
  · cases h5
  · cases h5
  · exact h

end Sys2Proof.Machine
end

