-- ==== Sys2Proof/Laws/Sequential.lean ====
section
/-! SUPPORT. Laws of what the execute step computes, of words that are no instruction, and of one-at-a-time execution: a whole
instruction there is the memory step and the writeback here. -/

namespace Sys2Proof.Machine

/-! ## Results as numbers and as words -/

theorem ofInt_div_two_pow (a : Word) (k : Nat) : BitVec.ofInt 32 (a.toInt / 2 ^ k) = a.sshiftRight k := by
  have : a.sshiftRight k = BitVec.ofInt 32 (a.toInt >>> k) := rfl
  rw [this, Int.shiftRight_eq_div_pow]; norm_cast

theorem ofNat_mul_two_pow (a : Word) (k : Nat) : BitVec.ofNat 32 (a.toNat * 2 ^ k) = a <<< k := by
  apply BitVec.eq_of_toNat_eq; simp [Nat.shiftLeft_eq]

theorem ofNat_div_two_pow (a : Word) (k : Nat) : BitVec.ofNat 32 (a.toNat / 2 ^ k) = a >>> k := by
  apply BitVec.eq_of_toNat_eq; simp [Nat.shiftRight_eq_div_pow]; exact lt_of_le_of_lt (Nat.div_le_self _ _) a.isLt

theorem ofInt_add_toInt (a b : Word) : BitVec.ofInt 32 (a.toInt + b.toInt) = a + b := by apply BitVec.eq_of_toInt_eq; simp

theorem ofInt_toNat_add_toInt (a b : Word) : BitVec.ofInt 32 (a.toNat + b.toInt) = a + b := by
  rw [BitVec.ofInt_add, BitVec.ofInt_toInt]; congr 1; apply BitVec.eq_of_toNat_eq; simp

theorem ofInt_sub_toInt (a b : Word) : BitVec.ofInt 32 (a.toInt - b.toInt) = a - b := by apply BitVec.eq_of_toInt_eq; simp

theorem ofNat_add_toNat (a b : Word) : BitVec.ofNat 32 (a.toNat + b.toNat) = a + b := (BitVec.add_def a b).symm

theorem shiftAmount_eq (b : Word) : shiftAmount b = b.toNat % 32 := by
  unfold shiftAmount; rw [BitVec.extractLsb'_toNat]; rfl

theorem ite_toInt_lt (a b : Word) : (if a.toInt < b.toInt then (1 : Word) else 0) = boolWord (lessSigned a b) := by
  simp [boolWord, lessSigned]

theorem ite_toNat_lt (a b : Word) : (if a.toNat < b.toNat then (1 : Word) else 0) = boolWord (lessUnsigned a b) := by
  simp [boolWord, lessUnsigned]

theorem bne_eq_decide_ne (a b : Word) : (a != b) = decide (a ≠ b) := by
  by_cases h : a = b
  · subst h; simp
  · simp [h]

theorem sext_byte (x : Byte) : sext 8 (x.setWidth 32) = x.signExtend 32 := by
  unfold sext
  rw [show (x.setWidth 32).setWidth 8 = x by simp]

theorem sext_half (x : BitVec 16) : sext 16 (x.setWidth 32) = x.signExtend 32 := by
  unfold sext
  rw [show (x.setWidth 32).setWidth 16 = x by simp]

/-! ## The execute step (R117, R217) -/

/-- What a completed execute step puts in EX/MEM: the result and the store data of its instruction on its two operands. -/
theorem executeStep_values {s : State} {d : Stage} {x : Executed} (hd : decodedStage s.params.subset d = true)
    (h : executeStep s d = .ok x) :
    x.exmem = some { d with
      alu := executeAlu d.instr d.pc (operand1 s d) (operand2 s d), sdata := executeSdata d.op (operand2 s d) } := by
  obtain ⟨_, _, _, hc, _⟩ := decodedStage_spec hd
  have hb : ∀ (c : Word → Word → Bool) (a b : Word), branchStep c s d a b = .ok x →
      x.exmem = some { d with alu := 0, sdata := 0 } := fun c a b h => (branchStep_ok.1 h).1
  unfold executeStep at h
  unfold Stage.instr executeSdata
  cases ho : d.op <;> simp only [ho, Op.layout, Layout.fmt, controlsOf] at hc h ⊢ <;>
    dsimp only [Op.instr, executeAlu, Op.layout] at h ⊢ <;>
  first
  | (rw [hb _ _ _ h]; simp [ho])
  | (cases h; simp [aluInput2, hc, ho, boolWord, lessSigned, lessUnsigned, ofInt_div_two_pow, ofNat_mul_two_pow,
      ofNat_div_two_pow, ofInt_add_toInt, ofInt_toNat_add_toInt, ofNat_add_toNat, ofInt_sub_toInt, shiftAmount_eq])

/-! ## One-at-a-time execution (R285) -/

theorem archRun_one {p : Params} {a b : Arch} (h : archStep p a = .next b) : archRun p 1 a = some b := by
  unfold archRun; rw [h]; rfl

/-- Words executed, then more words executed. -/
theorem archRun_add {p : Params} {n m : Nat} {a b c : Arch} (h1 : archRun p n a = some b)
    (h2 : archRun p m b = some c) : archRun p (n + m) a = some c := by
  induction n generalizing a with
  | zero => simp [archRun] at h1; subst h1; simpa using h2
  | succ n ih =>
    rw [show n + 1 + m = (n + m) + 1 by omega]
    unfold archRun at h1 ⊢
    cases hs : archStep p a with
    | next t => rw [hs] at h1; exact ih h1
    | done => rw [hs] at h1; cases h1
    | fault => rw [hs] at h1; cases h1
    | stuck => rw [hs] at h1; cases h1

/-- A fetched word stands in the program. -/
theorem fetchWord_lt {p : Params} {q w : Word} (h : fetchWord p q = some w) : q.toNat < p.progEnd ∧ q.toNat % 4 = 0 := by
  unfold fetchWord at h; unfold Params.progEnd
  split at h
  · rename_i h4
    have := (List.getElem?_eq_some_iff.1 h).1; omega
  · cases h

/-- Words that are no instruction, executed one at a time: only the address and the diagnostics change. -/
theorem skipWords_run {p : Params} {n : Nat} {q v : Word} {ds : List (Word × Word)} (h : skipWords p n q = some (v, ds))
    (a : Arch) (ha : a.pc = q) :
    archRun p n a = some { a with pc := v, diags := a.diags ++ ds } := by
  induction n generalizing q ds a v with
  | zero => simp [skipWords] at h; obtain ⟨rfl, rfl⟩ := h; subst ha; simp [archRun]
  | succ n ih =>
    unfold skipWords at h
    cases hw : fetchWord p q with
    | none => rw [hw] at h; cases h
    | some w =>
      rw [hw] at h
      have hl := (fetchWord_lt hw).1
      unfold archRun archStep
      rw [ha, if_neg (by omega), hw]
      dsimp only at h ⊢
      cases hd : decode p.subset w with
      | ok i => rw [hd] at h; cases h
      | error r =>
        rw [hd] at h
        cases r with
        | bubble => dsimp only [archNext] at h ⊢; rw [ih h _ (by rw [ha])]
        | unrecognized =>
          dsimp only [archNext] at h ⊢
          cases hr : skipWords p n (q + 4) with
          | none => rw [hr] at h; cases h
          | some r =>
            rw [hr] at h; cases h
            cases r; rw [ih hr _ rfl]; simp

/-- Words skipped, then more words skipped. -/
theorem skipWords_add {p : Params} {n m : Nat} {q v u : Word} {ds es : List (Word × Word)} (h1 : skipWords p n q = some (v, ds))
    (h2 : skipWords p m v = some (u, es)) : skipWords p (n + m) q = some (u, ds ++ es) := by
  induction n generalizing q ds v with
  | zero => simp [skipWords] at h1; obtain ⟨rfl, rfl⟩ := h1; simpa using h2
  | succ n ih =>
    rw [show n + 1 + m = (n + m) + 1 by omega]
    unfold skipWords at h1 ⊢
    cases hw : fetchWord p q with
    | none => rw [hw] at h1; cases h1
    | some w =>
      rw [hw] at h1
      dsimp only at h1 ⊢
      cases hd : decode p.subset w with
      | ok i => rw [hd] at h1; cases h1
      | error r =>
        rw [hd] at h1
        cases r with
        | bubble => exact ih h1 h2
        | unrecognized =>
          dsimp only at h1 ⊢
          cases hr : skipWords p n (q + 4) with
          | none => rw [hr] at h1; cases h1
          | some r => rw [hr] at h1; cases h1; cases r; rw [ih hr h2]; rfl

theorem skipWords_bubble {p : Params} {q : Word} (h : fetchWord p q = some 0) : skipWords p 1 q = some (q + 4, []) := by
  unfold skipWords; rw [h]; simp [decode, skipWords]

theorem skipWords_unrecognized {p : Params} {q w : Word} (h : fetchWord p q = some w) (hd : decode p.subset w = .error .unrecognized) :
    skipWords p 1 q = some (q + 4, [(q, w)]) := by
  unfold skipWords; rw [h]; simp [hd, skipWords]

/-! ## A whole instruction (R212, R216) -/

/-- The checks of a data access on numbers: alignment, then range. -/
theorem accessFault_eq {s : State} {a : Word} {n : Width} : accessFault s a n =
    (if a.toNat % n.bytes ≠ 0 then some .misalignedData
      else if s.params.dmemSize < a.toNat + n.bytes then some .dmemRange else none) := by
  unfold accessFault; rfl

/-- One-at-a-time execution makes the pipeline's checks. -/
theorem archAccess_eq {s : State} {ar : Arch} {a : Word} {n : Width} {k : ArchResult} {pc : Word} (hpc : ar.pc = pc) :
    archAccess s.params ar a n.bytes k =
      match accessFault s a n with
      | none => k
      | some f => .fault f pc a := by
  unfold archAccess
  rw [accessFault_eq]
  subst hpc
  split
  · rfl
  · split <;> rfl

theorem toNat_add_ofNat {a : Word} {k : Nat} (h : a.toNat + k < 2 ^ 32) : (a + BitVec.ofNat 32 k).toNat = a.toNat + k := by
  rw [BitVec.toNat_add, BitVec.toNat_ofNat]; omega

/-- Executing the instruction of `e` whole is its memory step in `s` and then its writeback on `ar.x`; where the memory step
faults it faults. -/
def CommitsTo (s : State) (ar : Arch) (e : Stage) : Prop :=
  (∀ m, memoryStep s = .ok m → ∃ e' b, m.1 = some e' ∧ archStep s.params ar = .next b ∧
    b.x = (if e'.ctrl.regWrite && e'.rd != 0 then Regs.write ar.x e'.rd (wbval e') else ar.x) ∧
    b.dmem = m.2 ∧ b.pc = nextPc ar.x e ∧ b.diags = ar.diags) ∧
  (∀ k pc i, memoryStep s = .error (.raise k pc i) → archStep s.params ar = .fault k pc i)

/-- A decoded instruction in EX/MEM that holds what it computes on `ar` commits to it. -/
theorem archStep_commits {s : State} {ar : Arch} {e : Stage} (hs : s.params.dmemSize ≤ 2 ^ 32) (he : s.exmem = some e)
    (hd : decodedStage s.params.subset e = true) (hw : fetchWord s.params e.pc = some e.word)
    (hpc : ar.pc = e.pc) (hm : ar.dmem = s.dmem)
    (ha : e.alu = executeAlu e.instr e.pc (Regs.read ar.x e.rs1) (Regs.read ar.x e.rs2))
    (hb : e.sdata = executeSdata e.op (Regs.read ar.x e.rs2))
    (hg : goodTarget s.params (nextPc ar.x e)) :
    CommitsTo s ar e := by
  have hlt : ¬ s.params.progEnd ≤ ar.pc.toNat := by rw [hpc]; exact Nat.not_le.2 (fetchWord_lt hw).1
  have hstep : archStep s.params ar = archExec s.params ar e.instr := by
    unfold archStep
    rw [if_neg hlt, hpc, hw]
    dsimp only
    rw [decodedStage_decode hd]
  obtain ⟨_, _, _, hc, _, _, hf⟩ := decodedStage_spec hd
  have wr : ∀ v : Word,
      (if (true && e.rd != 0) = true then Regs.write ar.x e.rd v else ar.x) = Regs.write ar.x e.rd v := by
    intro v
    by_cases h : e.rd = 0
    · rw [h]; rfl
    · rw [if_pos (by simpa using h)]
  have nerr : ∀ n, widthOf e.op = n → n = none → ∀ k pc i, memoryStep s ≠ .error (.raise k pc i) := by
    intro n h1 h2 k pc i hm
    obtain ⟨n', _, h3, _⟩ := memoryStep_decoded_error he hd hm
    rw [h1, h2] at h3; cases h3
  have merr : ∀ n, widthOf e.op = some n → ∀ k pc i, memoryStep s = .error (.raise k pc i) →
      accessFault s e.alu n = some k ∧ pc = e.pc ∧ i = e.alu := by
    intro n h1 k pc i hm
    obtain ⟨n', k', h3, h4, h5⟩ := memoryStep_decoded_error he hd hm
    rw [h1] at h3; cases h3; cases h5
    exact ⟨h4, rfl, rfl⟩
  have alu : widthOf e.op = none → branchCondition e.op (Regs.read ar.x e.rs1) (Regs.read ar.x e.rs2) = none →
      e.ctrl = ⟨true, e.ctrl.aluSrc, false, false, false, false⟩ →
      archExec s.params ar e.instr = archSet ar e.rd e.alu → CommitsTo s ar e := by
    intro h1 h2 h3 h4
    unfold CommitsTo; rw [hstep]
    refine And.intro (fun m hm1 => ?_) (fun k pc i h => absurd h (nerr _ h1 rfl k pc i))
    · rcases memoryStep_decoded_ok he hd hm1 with ⟨_, _, rfl⟩ | ⟨n, ext, hn, _⟩ | ⟨n, hn, _⟩
      · refine ⟨_, _, rfl, h4, ?_, hm, ?_, rfl⟩
        · dsimp only [wbval]; rw [h3]; exact (wr _).symm
        · unfold nextPc; rw [h2, if_neg (by simp), ← hpc]
      · rw [h1] at hn; cases hn
      · rw [h1] at hn; cases hn
  have load : ∀ n ext, widthOf e.op = some n → extOf e.op = some ext →
      e.ctrl = ⟨true, true, true, false, true, false⟩ →
      branchCondition e.op (Regs.read ar.x e.rs1) (Regs.read ar.x e.rs2) = none →
      (∃ k, archExec s.params ar e.instr = archAccess s.params ar e.alu n.bytes k ∧
        (e.alu.toNat % n.bytes = 0 → e.alu.toNat + n.bytes ≤ 2 ^ 32 →
          k = archSet ar e.rd (ext (Memory.readLE ar.dmem e.alu.toNat n)))) →
      CommitsTo s ar e := by
    intro n ext h1 h2 h3 h4 ⟨k, h5, h6⟩
    unfold CommitsTo; rw [hstep, h5, archAccess_eq hpc]
    refine And.intro (fun m hm1 => ?_) (fun k pc i h => ?_)
    · rcases memoryStep_decoded_ok he hd hm1 with ⟨hr, _, rfl⟩ | ⟨n', ext', hn, hx, _, _, hacc, rfl⟩ | ⟨n, hn, hx, _⟩
      · rw [h3] at hr; cases hr
      · rw [h1] at hn; rw [h2] at hx; cases hn; cases hx
        rw [hacc]
        obtain ⟨b1, b2⟩ := accessFault_none.1 hacc
        rw [h6 b1 (by omega)]
        refine ⟨_, _, rfl, rfl, ?_, hm, ?_, rfl⟩
        · dsimp only [wbval]; rw [h3, hm]; exact (wr _).symm
        · unfold nextPc; rw [h4, if_neg (by simp), ← hpc]
      · rw [h2] at hx; cases hx
    · obtain ⟨a1, rfl, rfl⟩ := merr n h1 _ _ _ h
      rw [a1]
  have store : ∀ n, widthOf e.op = some n → extOf e.op = none → e.ctrl = ⟨false, true, false, true, false, false⟩ →
      branchCondition e.op (Regs.read ar.x e.rs1) (Regs.read ar.x e.rs2) = none →
      archExec s.params ar e.instr = archAccess s.params ar e.alu n.bytes
        (archNext { ar with dmem := Memory.writeLE ar.dmem e.alu.toNat e.sdata n }) →
      CommitsTo s ar e := by
    intro n h1 h2 h3 h4 h5
    unfold CommitsTo; rw [hstep, h5, archAccess_eq hpc]
    refine And.intro (fun m hm1 => ?_) (fun k pc i h => ?_)
    · rcases memoryStep_decoded_ok he hd hm1 with ⟨_, hr, rfl⟩ | ⟨n', ext', hn, hx, _⟩ | ⟨n', hn, _, _, _, hacc, rfl⟩
      · rw [h3] at hr; cases hr
      · rw [h2] at hx; cases hx
      · rw [h1] at hn; cases hn
        rw [hacc]
        refine ⟨_, _, rfl, rfl, ?_, by rw [← hm], ?_, rfl⟩
        · dsimp only; rw [h3]; rfl
        · unfold nextPc; rw [h4, if_neg (by simp), ← hpc]
    · obtain ⟨a1, rfl, rfl⟩ := merr n h1 _ _ _ h
      rw [a1]
  have br : ∀ c, widthOf e.op = none → e.ctrl = ⟨false, false, false, false, false, true⟩ →
      branchCondition e.op (Regs.read ar.x e.rs1) (Regs.read ar.x e.rs2) = some c →
      archExec s.params ar e.instr = archBranch s.params ar c e.imm → CommitsTo s ar e := by
    intro c h1 h2 h3 h5
    unfold CommitsTo; rw [hstep, h5]
    refine And.intro (fun m hm1 => ?_) (fun k pc i h => absurd h (nerr _ h1 rfl k pc i))
    rcases memoryStep_decoded_ok he hd hm1 with ⟨_, _, rfl⟩ | ⟨n, ext, hn, _⟩ | ⟨n, hn, _⟩
    · unfold archBranch
      unfold nextPc at hg ⊢
      rw [h3] at hg ⊢
      cases c with
      | true =>
        rw [if_pos rfl] at hg ⊢
        rw [hpc]
        simp only [if_true]
        rw [if_neg (not_not.2 hg.1), if_neg (Nat.not_lt.2 hg.2)]
        exact ⟨_, _, rfl, rfl, by dsimp only; rw [h2]; rfl, hm, rfl, rfl⟩
      | false =>
        rw [if_neg (by simp)]
        dsimp only
        exact ⟨_, _, rfl, rfl, by dsimp only; rw [h2]; rfl, hm, by dsimp only; rw [hpc, if_neg (by simp)], rfl⟩
    · rw [h1] at hn; cases hn
    · rw [h1] at hn; cases hn
  clear hstep
  have n1 : ∀ a : Word, a.toNat + 1 < 2 ^ 32 → (a + 1).toNat = a.toNat + 1 := fun a => toNat_add_ofNat (k := 1)
  have n2 : ∀ a : Word, a.toNat + 2 < 2 ^ 32 → (a + 2).toNat = a.toNat + 2 := fun a => toNat_add_ofNat (k := 2)
  have n3 : ∀ a : Word, a.toNat + 3 < 2 ^ 32 → (a + 3).toNat = a.toNat + 3 := fun a => toNat_add_ofNat (k := 3)
  have hi : e.instr = e.op.instr ⟨e.rd, e.rs1, e.rs2, e.funct3, e.funct7, e.imm⟩ := rfl
  rw [← hpc] at ha
  cases ho : e.op <;> rw [ho] at hi hb hc <;> simp only [Op.instr] at hi <;> rw [hi] at ha <;>
    simp only [executeAlu, ite_toInt_lt, ite_toNat_lt, ofInt_div_two_pow, ofNat_mul_two_pow, ofNat_div_two_pow,
      ofInt_add_toInt, ofInt_toNat_add_toInt, ofNat_add_toNat, ofInt_sub_toInt] at ha <;>
    simp only [Op.layout, Layout.fmt, controlsOf] at hc
  case add | sub | sll | xor | srl | sra | or | and | addi | xori | ori | andi | slli | srli | srai | lui | auipc =>
    exact alu (by rw [ho]; rfl) (by rw [ho]; rfl) (by rw [hc]) (by rw [hi, ha]; rfl)
  case slt | slti => exact alu (by rw [ho]; rfl) (by rw [ho]; rfl) (by rw [hc]) (by rw [hi, ha, ← ite_toInt_lt]; rfl)
  case sltu | sltiu => exact alu (by rw [ho]; rfl) (by rw [ho]; rfl) (by rw [hc]) (by rw [hi, ha, ← ite_toNat_lt]; rfl)
  case lb =>
    exact load .byte _ (by rw [ho]; rfl) (by rw [ho]; rfl) hc (by rw [ho]; rfl)
      ⟨_, by rw [hi, ha]; rfl, fun _ _ => by rw [ha]; exact congrArg _ (sext_byte _).symm⟩
  case lbu =>
    exact load .byte _ (by rw [ho]; rfl) (by rw [ho]; rfl) hc (by rw [ho]; rfl)
      ⟨_, by rw [hi, ha]; rfl, fun _ _ => by rw [ha]; unfold Memory.readLE zext; simp⟩
  case lh =>
    exact load .half _ (by rw [ho]; rfl) (by rw [ho]; rfl) hc (by rw [ho]; rfl)
      ⟨_, by rw [hi, ha]; rfl, fun h1 h2 => by
        rw [ha] at h1 h2 ⊢
        simp only [Width.bytes] at h1 h2
        dsimp only
        rw [n1 _ (by omega)]
        exact congrArg _ (sext_half _).symm⟩
  case lhu =>
    exact load .half _ (by rw [ho]; rfl) (by rw [ho]; rfl) hc (by rw [ho]; rfl)
      ⟨_, by rw [hi, ha]; rfl, fun h1 h2 => by
        rw [ha] at h1 h2 ⊢
        simp only [Width.bytes] at h1 h2
        dsimp only
        rw [n1 _ (by omega)]
        unfold Memory.readLE zext; simp⟩
  case lw =>
    exact load .word _ (by rw [ho]; rfl) (by rw [ho]; rfl) hc (by rw [ho]; rfl)
      ⟨_, by rw [hi, ha]; rfl, fun h1 h2 => by
        rw [ha] at h1 h2 ⊢
        simp only [Width.bytes] at h1 h2
        dsimp only
        rw [n1 _ (by omega), n2 _ (by omega), n3 _ (by omega)]
        rfl⟩
  case sb => exact store .byte (by rw [ho]; rfl) (by rw [ho]; rfl) hc (by rw [ho]; rfl) (by rw [hi, ha, hb]; rfl)
  case sh => exact store .half (by rw [ho]; rfl) (by rw [ho]; rfl) hc (by rw [ho]; rfl) (by rw [hi, ha, hb]; rfl)
  case sw => exact store .word (by rw [ho]; rfl) (by rw [ho]; rfl) hc (by rw [ho]; rfl) (by rw [hi, ha, hb]; rfl)
  case beq => exact br _ (by rw [ho]; rfl) hc (by rw [ho]; rfl) (by rw [hi]; simp only [archExec]; congr 1)
  case bne => exact br _ (by rw [ho]; rfl) hc (by rw [ho]; rfl) (by rw [hi]; simp only [archExec]; rw [bne_eq_decide_ne])
  case blt | bge | bltu | bgeu => exact br _ (by rw [ho]; rfl) hc (by rw [ho]; rfl) (by rw [hi]; rfl)

end Sys2Proof.Machine
end

