-- ==== Sys2Proof/Tests/Slice0.lean ====
section
/-! SUPPORT. The model's own tests. Expected values come from 95_test_vectors.md (its section is named) or are written out by
hand from the rule named; the words of the decode tests are written out from the layouts of R82 to R87 and the fixed bits of
R94. -/

namespace Sys2Proof.Tests

open Sys2Proof.Machine

/-! ## Helpers -/

/-- Registers all zero but `x1` and `x2`. -/
def regs (x1 x2 : Word) : Vector Word 32 := ((Vector.replicate 32 0).set 1 x1).set 2 x2

/-- The launch parameters of 95_test_vectors.md, Conventions, with a program, `x1`, `x2` and bytes set before cycle 1. -/
def params (prog : List Word) (x1 x2 : Word) (mem : List Host.Cell) : Params :=
  { Config.resetParams with prog := prog, initRegs := regs x1 x2, initDmem := mem }

/-- The word `w` decoded in ID/EX at address 0, alone in the pipeline and last in the program. -/
def ready (w x1 x2 : Word) : State :=
  placeInstruction { State.reset with x := regs x1 x2, dmem := bytes } w
where
  /-- The bytes of vectors 2.4, and a word at the top of the memory. -/
  bytes : Memory := [(0x100, 0x80), (0x101, 0xFF), (0x102, 0x7F), (0x103, 0x01), (0x104, 0x44), (0x105, 0x33),
    (0x106, 0x22), (0x107, 0x11), (4095, 0x5A)]

/-- The state one step answers. -/
def after (s : State) : Option State :=
  match step s with
  | .next t => some t
  | _ => none

/-- What the execute step puts in `alu`. -/
def aluOf (s : State) : Option Word := (after s).bind fun t => t.exmem.map fun d => d.alu

/-- The state with the word `w` in EX/MEM, effective address `a` and store data `v`. -/
def inMemory (w a v : Word) : State :=
  { ready w 0 0 with
    idex := none
    exmem := (ready w 0 0).idex.map fun d => { d with alu := a, sdata := v } }

/-- What the memory step puts in `mdata`. -/
def loaded (s : State) : Option Word := (after s).bind fun t => t.memwb.map fun d => d.mdata

/-- Eight bytes at `a` after one step. -/
def stored (s : State) (a : Nat) : Option (List Byte) :=
  (after s).map fun t => (List.range 8).map fun k => Memory.read t.dmem (a + k)

/-- Where a branch at address 0 with offset 8 sends `pc` in a program of three words (vectors 2.6): 8 when it is taken; when it
is not, the word after the fetched one, 8 + 4. -/
def pcAfterBranch (w x1 x2 : Word) : Option Word :=
  (after { ready w x1 x2 with
    params := params [w, 0x00100293, 0x00100313] x1 x2 [], pc := 8, ifid := some ⟨4, 0x00100293⟩ }).map fun t => t.pc

/-- The state after `k` steps from reset. -/
def stateAt (p : Params) (k : Nat) : State := (runTo k (State.launch p)).getD State.reset

/-- The cycle after `k` steps completes. -/
def cycleAt (p : Params) (k : Nat) : Bool :=
  (runTo k (State.launch p)).isSome && (runTo (k + 1) (State.launch p)).isSome
    && decide ((stateAt p k).status = .running) && invariantsHold (stateAt p k) && !finished (stateAt p k)
    && decide ((stateAt p k).cycle < (stateAt p k).params.cycleCap)
    && decide ((stateAt p (k + 1)).status = .running)

theorem runTo_succ {k : Nat} {s t : State} (h : runTo k s = some t) :
    runTo (k + 1) s = match step t with | .next u => some u | _ => none := by
  induction k generalizing s with
  | zero =>
    cases h
    unfold runTo
    cases step t <;> rfl
  | succ k ih =>
    unfold runTo at h ⊢
    cases hs : step s with
    | next u => rw [hs] at h; exact ih h
    | fault r => rw [hs] at h; cases h
    | refused r => rw [hs] at h; cases h

/-- Consecutive states of a run are a step apart. -/
theorem stepAt {p : Params} {k : Nat} (h1 : (runTo k (State.launch p)).isSome = true)
    (h2 : (runTo (k + 1) (State.launch p)).isSome = true) : step (stateAt p k) = .next (stateAt p (k + 1)) := by
  obtain ⟨s, hs⟩ := Option.isSome_iff_exists.mp h1
  have e : stateAt p k = s := by unfold stateAt; rw [hs]; rfl
  have h := runTo_succ hs
  rw [h] at h2
  unfold stateAt at e ⊢
  rw [h, e]
  cases hst : step s with
  | next u => rfl
  | fault r => rw [hst] at h2; cases h2
  | refused r => rw [hst] at h2; cases h2

theorem completesAt {p : Params} {k : Nat} (h : cycleAt p k = true) : completes (stateAt p k) (stateAt p (k + 1)) := by
  unfold cycleAt at h
  simp only [Bool.and_eq_true, decide_eq_true_eq, Bool.not_eq_true'] at h
  exact ⟨⟨h.1.1.1.1.2, h.1.1.1.2, h.1.1.2, h.1.2⟩, stepAt h.1.1.1.1.1.1 h.1.1.1.1.1.2, h.2⟩

/-! ## Well-formedness: what each check refuses -/

theorem test_wf_refuses_imm12_above : (Instr.addi 1 2 2048).wf = false ∧ encode (.addi 1 2 2048) = none := by decide
theorem test_wf_refuses_imm12_below : (Instr.sw 1 2 (-2049)).wf = false ∧ encode (.sw 1 2 (-2049)) = none := by decide
theorem test_wf_refuses_load_offset : (Instr.lw 1 2 4096).wf = false := by decide
theorem test_wf_refuses_shift_of_32 : (Instr.srai 1 2 32).wf = false ∧ encode (.srai 1 2 32) = none := by decide
theorem test_wf_refuses_odd_offset : (Instr.beq 1 2 3).wf = false ∧ encode (.beq 1 2 3) = none := by decide
theorem test_wf_refuses_offset_above : (Instr.bne 1 2 4096).wf = false := by decide
theorem test_wf_refuses_offset_below : (Instr.bne 1 2 (-4098)).wf = false := by decide
theorem test_wf_refuses_low_upper_bits : (Instr.lui 1 0x1FFF).wf = false ∧ encode (.lui 1 0x1FFF) = none := by decide
theorem test_wf_admits_boundaries : (Instr.addi 1 2 2047).wf = true ∧ (Instr.addi 1 2 (-2048)).wf = true ∧
    (Instr.slli 1 2 31).wf = true ∧ (Instr.beq 1 2 4094).wf = true ∧ (Instr.beq 1 2 (-4096)).wf = true ∧
    (Instr.lui 1 0xFFFFF000).wf = true := by decide
theorem test_params_refuse_zero_cap : { Config.resetParams with cycleCap := 0 }.wf = false := by decide
theorem test_params_refuse_odd_memory : { Config.resetParams with dmemSize := 4098 }.wf = false := by decide
theorem test_params_refuse_no_memory : { Config.resetParams with dmemSize := 0 }.wf = false := by decide
theorem test_params_refuse_large_memory : { Config.resetParams with dmemSize := 2 ^ 32 + 4 }.wf = false := by decide
theorem test_params_refuse_nonzero_x0 :
    { Config.resetParams with initRegs := (Vector.replicate 32 0).set 0 1 }.wf = false := by decide
theorem test_params_refuse_byte_beyond : { Config.resetParams with initDmem := [(4096, 1)] }.wf = false := by decide
theorem test_params_refuse_long_program (n : Nat) (h : n = 2 ^ 30) :
    { Config.resetParams with prog := List.replicate n 0 }.wf = false := by
  simp only [Params.wf, List.length_replicate, Bool.and_eq_false_iff, decide_eq_false_iff_not]
  omega
theorem test_params_admit_largest_memory :
    { Config.resetParams with dmemSize := 2 ^ 32, cycleCap := 1, subset := .core }.wf = true := by decide

/-! ## Decoding: one word of every row, written out -/

theorem test_decode_add : decode .full 0b0000000_00010_00001_000_11111_0110011#32 = .ok (.add 31 1 2) := by decide
theorem test_decode_sub : decode .full 0b0100000_00010_00001_000_11111_0110011#32 = .ok (.sub 31 1 2) := by decide
theorem test_decode_sll : decode .full 0b0000000_00010_00001_001_11111_0110011#32 = .ok (.sll 31 1 2) := by decide
theorem test_decode_slt : decode .full 0b0000000_00010_00001_010_11111_0110011#32 = .ok (.slt 31 1 2) := by decide
theorem test_decode_sltu : decode .full 0b0000000_00010_00001_011_11111_0110011#32 = .ok (.sltu 31 1 2) := by decide
theorem test_decode_xor : decode .full 0b0000000_00010_00001_100_11111_0110011#32 = .ok (.xor 31 1 2) := by decide
theorem test_decode_srl : decode .full 0b0000000_00010_00001_101_11111_0110011#32 = .ok (.srl 31 1 2) := by decide
theorem test_decode_sra : decode .full 0b0100000_00010_00001_101_11111_0110011#32 = .ok (.sra 31 1 2) := by decide
theorem test_decode_or : decode .full 0b0000000_00010_00001_110_11111_0110011#32 = .ok (.or 31 1 2) := by decide
theorem test_decode_and : decode .full 0b0000000_00010_00001_111_11111_0110011#32 = .ok (.and 31 1 2) := by decide
theorem test_decode_addi : decode .full 0b111111111110_00001_000_11111_0010011#32 = .ok (.addi 31 1 (-2)) := by decide
theorem test_decode_slti : decode .full 0b111111111110_00001_010_11111_0010011#32 = .ok (.slti 31 1 (-2)) := by decide
theorem test_decode_sltiu : decode .full 0b111111111110_00001_011_11111_0010011#32 = .ok (.sltiu 31 1 (-2)) := by decide
theorem test_decode_xori : decode .full 0b111111111110_00001_100_11111_0010011#32 = .ok (.xori 31 1 (-2)) := by decide
theorem test_decode_ori : decode .full 0b111111111110_00001_110_11111_0010011#32 = .ok (.ori 31 1 (-2)) := by decide
theorem test_decode_andi : decode .full 0b111111111110_00001_111_11111_0010011#32 = .ok (.andi 31 1 (-2)) := by decide
theorem test_decode_slli : decode .full 0b0000000_10001_00001_001_11111_0010011#32 = .ok (.slli 31 1 17) := by decide
theorem test_decode_srli : decode .full 0b0000000_10001_00001_101_11111_0010011#32 = .ok (.srli 31 1 17) := by decide
theorem test_decode_srai : decode .full 0b0100000_10001_00001_101_11111_0010011#32 = .ok (.srai 31 1 17) := by decide
theorem test_decode_lb : decode .full 0b111111111110_00001_000_11111_0000011#32 = .ok (.lb 31 1 (-2)) := by decide
theorem test_decode_lh : decode .full 0b111111111110_00001_001_11111_0000011#32 = .ok (.lh 31 1 (-2)) := by decide
theorem test_decode_lw : decode .full 0b111111111110_00001_010_11111_0000011#32 = .ok (.lw 31 1 (-2)) := by decide
theorem test_decode_lbu : decode .full 0b111111111110_00001_100_11111_0000011#32 = .ok (.lbu 31 1 (-2)) := by decide
theorem test_decode_lhu : decode .full 0b111111111110_00001_101_11111_0000011#32 = .ok (.lhu 31 1 (-2)) := by decide
theorem test_decode_sb : decode .full 0b1111110_00010_00001_000_11011_0100011#32 = .ok (.sb 1 2 (-37)) := by decide
theorem test_decode_sh : decode .full 0b1111110_00010_00001_001_11011_0100011#32 = .ok (.sh 1 2 (-37)) := by decide
theorem test_decode_sw : decode .full 0b1111110_00010_00001_010_11011_0100011#32 = .ok (.sw 1 2 (-37)) := by decide
theorem test_decode_beq : decode .full 0b0_100000_00010_00001_000_0011_1_1100011#32 = .ok (.beq 1 2 3078) := by decide
theorem test_decode_bne : decode .full 0b0_100000_00010_00001_001_0011_1_1100011#32 = .ok (.bne 1 2 3078) := by decide
theorem test_decode_blt : decode .full 0b0_100000_00010_00001_100_0011_1_1100011#32 = .ok (.blt 1 2 3078) := by decide
theorem test_decode_bge : decode .full 0b0_100000_00010_00001_101_0011_1_1100011#32 = .ok (.bge 1 2 3078) := by decide
theorem test_decode_bltu : decode .full 0b0_100000_00010_00001_110_0011_1_1100011#32 = .ok (.bltu 1 2 3078) := by decide
theorem test_decode_bgeu : decode .full 0b0_100000_00010_00001_111_0011_1_1100011#32 = .ok (.bgeu 1 2 3078) := by decide
theorem test_decode_lui : decode .full 0b10000000000000000001_11111_0110111#32 = .ok (.lui 31 0x80001000) := by decide
theorem test_decode_auipc : decode .full 0b10000000000000000001_11111_0010111#32 = .ok (.auipc 31 0x80001000) := by decide

/-- Vectors 2.0: the bubble word, absent rows and rows CORE does not admit. -/
theorem test_decode_rejects :
    decode .full 0 = .error .bubble ∧ decode .full 0x00000073 = .error .unrecognized ∧
    decode .full 0x40001093 = .error .unrecognized ∧ decode .full 0x00003083 = .error .unrecognized ∧
    decode .full 0x00002063 = .error .unrecognized ∧ decode .full 0x02000033 = .error .unrecognized ∧
    decode .full 0xFFFFFFFF = .error .unrecognized ∧ decode .core 0x40000033 = .error .unrecognized ∧
    decode .core 0x7E000FA3 = .error .unrecognized ∧ decode .core 0x00000033 = .ok (.add 0 0 0) := by decide

/-- The host's question, on a placed word and on one bit pattern no row has. -/
theorem test_decodeTableWord : decodeTableWord 32 0x002081B3 = some (.add 3 1 2) ∧ decodeTableWord 32 0x73 = none := by decide

/-! ## What each instruction does: one cycle each -/

/-! Vectors 2.1. -/

theorem test_add_wraps : aluOf (ready 0x002081B3 0x7FFFFFFF 0x00000001) = some 0x80000000 := by decide
theorem test_sub_borrows : aluOf (ready 0x402081B3 0x00000000 0x00000001) = some 0xFFFFFFFF := by decide
theorem test_sll_uses_five_bits : aluOf (ready 0x002091B3 0x00000001 0x00000020) = some 0x00000001 := by decide
theorem test_sll_by_31 : aluOf (ready 0x002091B3 0xFFFFFFFF 0x0000001F) = some 0x80000000 := by decide
theorem test_slt_signed : aluOf (ready 0x0020A1B3 0x80000000 0x7FFFFFFF) = some 0x00000001 := by decide
theorem test_slt_equal : aluOf (ready 0x0020A1B3 0x00000005 0x00000005) = some 0x00000000 := by decide
theorem test_sltu_unsigned : aluOf (ready 0x0020B1B3 0x80000000 0x7FFFFFFF) = some 0x00000000 := by decide
theorem test_sltu_less : aluOf (ready 0x0020B1B3 0x00000000 0xFFFFFFFF) = some 0x00000001 := by decide
theorem test_xor_bits : aluOf (ready 0x0020C1B3 0xFFFFFFFF 0x12345678) = some 0xEDCBA987 := by decide
theorem test_srl_zero_fills : aluOf (ready 0x0020D1B3 0xFFFFFFFF 0x0000001F) = some 0x00000001 := by decide
theorem test_srl_uses_five_bits : aluOf (ready 0x0020D1B3 0x80000000 0x00000021) = some 0x40000000 := by decide
theorem test_sra_sign_fills : aluOf (ready 0x4020D1B3 0x80000000 0x0000003F) = some 0xFFFFFFFF := by decide
theorem test_sra_positive : aluOf (ready 0x4020D1B3 0x7FFFFFFF 0x0000001E) = some 0x00000001 := by decide
theorem test_or_bits : aluOf (ready 0x0020E1B3 0x80000000 0x00000001) = some 0x80000001 := by decide
theorem test_and_bits : aluOf (ready 0x0020F1B3 0xFFFFFFFF 0x80000001) = some 0x80000001 := by decide

/-! Vectors 2.2. -/

theorem test_addi_negative : aluOf (ready 0x80008193 0x00000005 0) = some 0xFFFFF805 := by decide
theorem test_addi_wraps : aluOf (ready 0x00108193 0x7FFFFFFF 0) = some 0x80000000 := by decide
theorem test_slti_signed : aluOf (ready 0x0000A193 0x80000000 0) = some 0x00000001 := by decide
theorem test_slti_not_less : aluOf (ready 0xFFF0A193 0x00000000 0) = some 0x00000000 := by decide
theorem test_sltiu_sign_extends_first : aluOf (ready 0xFFF0B193 0x00000005 0) = some 0x00000001 := by decide
theorem test_sltiu_not_less : aluOf (ready 0xFFF0B193 0xFFFFFFFF 0) = some 0x00000000 := by decide
theorem test_xori_inverts : aluOf (ready 0xFFF0C193 0x12345678 0) = some 0xEDCBA987 := by decide
theorem test_ori_sign_extends : aluOf (ready 0x8000E193 0x80000000 0) = some 0xFFFFF800 := by decide
theorem test_andi_sign_extends : aluOf (ready 0x8000F193 0xFFFFFFFF 0) = some 0xFFFFF800 := by decide
theorem test_slli_by_31 : aluOf (ready 0x01F09193 0xFFFFFFFF 0) = some 0x80000000 := by decide
theorem test_srli_zero_fills : aluOf (ready 0x01F0D193 0xFFFFFFFF 0) = some 0x00000001 := by decide
theorem test_srai_sign_fills : aluOf (ready 0x41F0D193 0x80000000 0) = some 0xFFFFFFFF := by decide

/-! Vectors 2.3; AUIPC adds its own address, here 4 and not the fetch address 8. -/

theorem test_lui_upper : aluOf (ready 0xFFFFF1B7 1 2) = some 0xFFFFF000 := by decide
theorem test_auipc_own_address :
    aluOf (placeInstruction { State.reset with pc := 4 } 0xFFFFF197) = some 0xFFFFF004 := by decide

/-! Vectors 2.4 and 2.5, the memory step; the effective address is the execute step's. -/

theorem test_lb_sign_extends : loaded (inMemory 0x00010183 0x100 0) = some 0xFFFFFF80 := by decide
theorem test_lbu_zero_extends : loaded (inMemory 0x00014183 0x100 0) = some 0x00000080 := by decide
theorem test_lh_sign_extends : loaded (inMemory 0x00011183 0x100 0) = some 0xFFFFFF80 := by decide
theorem test_lhu_zero_extends : loaded (inMemory 0x00015183 0x100 0) = some 0x0000FF80 := by decide
theorem test_lw_little_endian : loaded (inMemory 0x00412183 0x104 0) = some 0x11223344 := by decide
theorem test_lw_address : aluOf (ready 0xFFC12183 0 0x108) = some 0x104 := by decide
theorem test_sb_low_byte :
    stored (inMemory 0x001101A3 0x203 0xAABBCCDD) 0x200 = some [0, 0, 0, 0xDD, 0, 0, 0, 0] := by decide
theorem test_sh_low_half :
    stored (inMemory 0x00111323 0x206 0xAABBCCDD) 0x200 = some [0, 0, 0, 0, 0, 0, 0xDD, 0xCC] := by decide
theorem test_sw_little_endian :
    stored (inMemory 0x00112223 0x204 0xAABBCCDD) 0x200 = some [0, 0, 0, 0, 0xDD, 0xCC, 0xBB, 0xAA] := by decide
theorem test_sw_data_and_address :
    ((after (ready 0x00112223 0xAABBCCDD 0x200)).bind fun t => t.exmem.map fun d => (d.alu, d.sdata))
      = some (0x204, 0xAABBCCDD) := by decide

/-! Vectors 2.6. -/

theorem test_beq_condition : pcAfterBranch 0x00208463 5 5 = some 8 ∧ pcAfterBranch 0x00208463 0xFFFFFFFF 1 = some 12 ∧
    pcAfterBranch 0x00208463 1 0xFFFFFFFF = some 12 := by decide
theorem test_bne_condition : pcAfterBranch 0x00209463 5 5 = some 12 ∧ pcAfterBranch 0x00209463 0xFFFFFFFF 1 = some 8 ∧
    pcAfterBranch 0x00209463 1 0xFFFFFFFF = some 8 := by decide
theorem test_blt_condition : pcAfterBranch 0x0020C463 5 5 = some 12 ∧ pcAfterBranch 0x0020C463 0xFFFFFFFF 1 = some 8 ∧
    pcAfterBranch 0x0020C463 1 0xFFFFFFFF = some 12 := by decide
theorem test_bge_condition : pcAfterBranch 0x0020D463 5 5 = some 8 ∧ pcAfterBranch 0x0020D463 0xFFFFFFFF 1 = some 12 ∧
    pcAfterBranch 0x0020D463 1 0xFFFFFFFF = some 8 := by decide
theorem test_bltu_condition : pcAfterBranch 0x0020E463 5 5 = some 12 ∧ pcAfterBranch 0x0020E463 0xFFFFFFFF 1 = some 12 ∧
    pcAfterBranch 0x0020E463 1 0xFFFFFFFF = some 8 := by decide
theorem test_bgeu_condition : pcAfterBranch 0x0020F463 5 5 = some 8 ∧ pcAfterBranch 0x0020F463 0xFFFFFFFF 1 = some 8 ∧
    pcAfterBranch 0x0020F463 1 0xFFFFFFFF = some 12 := by decide

/-! ## Cycles of the worked programs -/

/-- L1-A: a load, then its consumer. -/
def loadUse : Params := params [0x00012083, 0x00108193] 0 0x100 [(0x100, 0x2A)]

/-- L1-C: the branch loop. -/
def loop : Params := params [0x00300093, 0xFFF08093, 0xFE009EE3] 0 0 []

/-- T4 and T10: an unrecognized word between two instructions. -/
def unrecognized : Params := params [0x00500093, 0x00000073, 0x00008113] 0 0 []

/-- T11: an unrecognized word on the wrong path. -/
def wrongPath : Params := params [0x00000463, 0x00000073, 0x00100093] 0 0 []

/-- Each load and each store in turn, from the bytes of vectors 2.4. -/
def accesses : Params :=
  params [0x00010183, 0x00211183, 0x00012183, 0x00314183, 0x00215183, 0x00110423, 0x00111523, 0x00112623] 0xAABBCCDD 0x100
    ready.bytes

/-- L1-A, cycle 3: the stall. -/
theorem test_stall_holds_the_consumer :
    decisionOf (stateAt loadUse 2) (takenTarget (stateAt loadUse 2)) = .stall ∧
    (stateAt loadUse 3).idex = none ∧ (stateAt loadUse 3).ifid = (stateAt loadUse 2).ifid ∧
    (stateAt loadUse 3).pc = (stateAt loadUse 2).pc := by decide

/-- L1-A: the consumer enters ID/EX with tag MEM, and x3 receives 43. -/
theorem test_stalled_consumer_takes_the_load :
    ((stateAt loadUse 4).idex.map fun d => (d.tag1, d.tag2)) = some (.mem, .none) ∧
    ((stateAt loadUse 5).exmem.map fun d => d.alu) = some 0x2B ∧ (stateAt loadUse 6).x[3] = 0 ∧ (stateAt loadUse 7).x[3] = 0x2B := by decide

/-- L1-C, cycle 5: the flush; the branch's operand came by EX forwarding. -/
theorem test_flush_redirects :
    ((stateAt loop 4).idex.map fun d => d.tag1) = some .ex ∧ (stateAt loop 5).pc = 4 ∧ (stateAt loop 5).ifid = none ∧
    (stateAt loop 5).idex = none := by decide

/-- L1-A: HALTED in cycle 7, whose one record is the placeholder. -/
theorem test_halts_in_cycle_7 :
    (stateAt loadUse 8).status = .halted ∧ (stateAt loadUse 8).cycle = 7 ∧
    (stateAt loadUse 8).trace.getLast? = some (.placeholder 7) := by decide

/-- T10: the diagnostic of cycle 3. -/
theorem test_diagnostic : (stateAt unrecognized 3).diags = [⟨3, 4, 0x73⟩] := by decide

/-- T11: none on the wrong path. -/
theorem test_no_diagnostic_on_wrong_path : (stateAt wrongPath 3).diags = [] ∧ (stateAt wrongPath 3).pc = 8 := by decide

/-- X12: the older instruction's fault is the one reported. -/
theorem test_memory_fault_before_target_fault :
    (stateAt (params [0x00002123, 0x00000163] 0 0 []) 4).status = .fault .misalignedData 0 2 := by decide

/-- X6, X3: misaligned before range; an address that wraps is out of range. -/
theorem test_data_faults :
    (stateAt (params [0x00001137, 0x00212083] 0 0 []) 5).status = .fault .misalignedData 4 0x1002 ∧
    (stateAt (params [0xFFC02083] 0 0 []) 4).status = .fault .dmemRange 0 0xFFFFFFFC := by decide

/-- X7, X8, X9: bad targets, and the legal target `4N`. -/
theorem test_target_faults :
    (stateAt (params [0x00000163] 0 0 []) 3).status = .fault .misalignedTarget 0 2 ∧
    (stateAt (params [0x00000863, 0x00100093] 0 0 []) 3).status = .fault .targetRange 0 16 ∧
    (stateAt (params [0x00000463, 0x00100093] 0 0 []) 3).pc = 8 := by decide

/-- T6, T7: HALTED is tested before the cap. -/
theorem test_cap :
    (stateAt { params [0x13] 0 0 [] with cycleCap := 5 } 6).status = .halted ∧
    (stateAt { params [0x13] 0 0 [] with cycleCap := 4 } 5).status = .nonconvergent := by decide

/-! ## Witnesses: for every obligation with hypotheses, states and operands that meet them -/

/-- `DecodeInvertsEncode`: each format at the ends of its immediate's range, under CORE and under FULL. -/
theorem test_witness_DecodeInvertsEncode :
    (∀ i ∈ [Instr.addi 31 0 2047, .addi 0 31 (-2048), .lw 1 2 (-1), .sw 31 31 2047, .beq 31 31 4094, .bne 1 2 (-4096),
      .lui 31 0xFFFFF000, .add 31 0 31], i.op ∈ coreOps ∧ i.wf = true) ∧
    (∀ i ∈ [Instr.slli 1 2 31, .srai 31 31 0, .sb 1 2 (-2048), .bgeu 0 0 0, .auipc 1 0, .sub 1 2 3], i.wf = true) := by
  decide

/-- `EncodeInvertsDecode`. -/
theorem test_witness_EncodeInvertsDecode :
    decode .core 0x00108193 = .ok (.addi 3 1 1) ∧ decode .full 0x40838533 = .ok (.sub 10 7 8) := by decide

/-- `NoWordMatchesTwoRows`. -/
theorem test_witness_NoWordMatchesTwoRows :
    ∀ r ∈ rows, r ∈ rows ∧ r.accepts r.bits = true := by decide

/-- `AbsentFamiliesAreUnrecognized`: each clause, and both ends of the opcode range 0x43 to 0x53. -/
theorem test_witness_AbsentFamiliesAreUnrecognized :
    opcodeOf 0x0000006F = 0x6F#7 ∧ opcodeOf 0x00100073 = 0x73#7 ∧ (opcodeOf 0x43).toNat = 0x43 ∧
    (opcodeOf 0x53).toNat = 0x53 ∧ (opcodeOf 0x02000033 = 0x33#7 ∧ funct7Of 0x02000033 = 1#7) ∧
    (0x00000001 : Word).extractLsb' 0 2 ≠ 3#2 := by decide

/-- `DecodedStageFollowsItsFormat`: each format, and a shift. -/
theorem test_witness_DecodedStageFollowsItsFormat :
    [(0x002081B3 : Word), 0x00108193, 0x41F0D193, 0x00412183, 0x00112023, 0x00208463, 0xFFFFF1B7].map
      (fun w => (decodeStage .full w 4).1.map fun d => (d.fmt, d.op)) =
    [some (.r, .add), some (.i, .addi), some (.i, .srai), some (.l, .lw), some (.s, .sw), some (.b, .beq),
      some (.u, .lui)] := by decide

/-- `DestinationsAndSourcesByFormat`: a store, a branch and an upper-immediate instruction. -/
theorem test_witness_DestinationsAndSourcesByFormat :
    (decodeStage .full 0x00112023 0).1.any (fun d => d.fmt == .s) = true ∧
    (decodeStage .full 0x00208463 0).1.any (fun d => d.fmt == .b) = true ∧
    (decodeStage .full 0x000081B7 0).1.any (fun d => d.fmt == .u) = true := by decide

/-- `RegisterZeroIsHardWired`: a register that is not `x0`, written and read back, beside another. -/
theorem test_witness_RegisterZeroIsHardWired :
    (31 : RegIx) ≠ 0 ∧ Regs.read (Regs.write (regs 7 8) 31 5) 31 = 5 ∧ Regs.read (Regs.write (regs 7 8) 31 5) 1 = 7 := by
  decide

/-- `MemReadChecksThenReads` and `MemWriteChecksThenWrites`: each clause, at the ends of a 4096-byte memory. -/
theorem test_witness_checked_accesses :
    State.reset.params.dmemSize = 4096 ∧ Memory.wf State.reset.params.dmemSize State.reset.dmem = true ∧
    (4093 % Width.word.bytes ≠ 0 ∧ 1 % Width.half.bytes ≠ 0) ∧
    (4096 % Width.byte.bytes = 0 ∧ 4096 < 4096 + Width.byte.bytes) ∧
    (0xFFFFFFFC % Width.word.bytes = 0 ∧ 4096 < 0xFFFFFFFC + Width.word.bytes) ∧
    (4092 % Width.word.bytes = 0 ∧ 4092 + Width.word.bytes ≤ 4096) ∧
    (4095 % Width.byte.bytes = 0 ∧ 4095 + Width.byte.bytes ≤ 4096) := by decide

/-- `LoadAfterStoreReadsTheStoredBytes`: the upper half of the last stored word. -/
theorem test_witness_LoadAfterStoreReadsTheStoredBytes :
    Memory.wf State.reset.params.dmemSize State.reset.dmem = true ∧
    memWrite State.reset 0 4092 .word 0xAABBCCDD = .ok [(4092, 0xDD), (4093, 0xCC), (4094, 0xBB), (4095, 0xAA)] ∧
    (4094 : Word).toNat = (4092 : Word).toNat + 2 ∧ 2 % Width.half.bytes = 0 ∧ 2 + Width.half.bytes ≤ Width.word.bytes := by
  decide

/-- `LaunchGivesTheResetState`, `LaunchStatesAreConsistent`, `LaunchTracksSequentialExecution`, `EveryRunStops`. -/
theorem test_witness_launch : loadUse.wf = true ∧ (loadUse.initDmem.map Prod.fst).Nodup ∧
    { loop with subset := .core, cycleCap := 1, dmemSize := 2 ^ 32 }.wf = true := by decide

/-- `EveryStepKeepsConsistency`, `ConsistentStatesAlwaysStep`, `RegisterZeroNeverChanges`, `LaunchParametersAreNeverWritten`: a state
with all four latches occupied. -/
theorem test_witness_consistent_step :
    consistent (stateAt accesses 4) = true ∧ step (stateAt accesses 4) = .next (stateAt accesses 5) ∧
    (stateAt accesses 4).x[0] = 0 ∧ (stateAt accesses 4).ifid.isSome = true ∧ (stateAt accesses 4).idex.isSome = true ∧
    (stateAt accesses 4).exmem.isSome = true ∧ (stateAt accesses 4).memwb.isSome = true :=
  ⟨by decide, stepAt (by decide) (by decide), by decide, by decide, by decide, by decide, by decide⟩

/-- `EveryStepKeepsConsistency`: a state whose step takes a fault, and the state after it. -/
theorem test_witness_faulting_step :
    consistent (stateAt (params [0x00000163] 0 0 []) 2) = true ∧
    step (stateAt (params [0x00000163] 0 0 []) 2) = .next (stateAt (params [0x00000163] 0 0 []) 3) ∧
    faulted (stateAt (params [0x00000163] 0 0 []) 3) = true :=
  ⟨by decide, stepAt (by decide) (by decide), by decide⟩

/-- `RunsKeepPcInProgramAndExTagsOffLoads`: ID/EX carries tag EX against an ADDI in EX/MEM. -/
theorem test_witness_RunsKeepPcInProgramAndExTagsOffLoads :
    loop.wf = true ∧ runTo 4 (State.launch loop) = some (stateAt loop 4) ∧ faulted (stateAt loop 4) = false ∧
    (stateAt loop 4).idex.any (fun d => d.tag1 == .ex) = true ∧ (stateAt loop 4).exmem.isSome = true := by decide

/-- `StepRunsTheInstructionInExecute`. -/
theorem test_witness_StepRunsTheInstructionInExecute :
    (ready 0x002081B3 1 2).status = .running ∧ (ready 0x002081B3 1 2).cycle < (ready 0x002081B3 1 2).params.cycleCap ∧
    (ready 0x002081B3 1 2).idex.any (fun d => decodedStage .full d && d.word == 0x002081B3) = true ∧
    decode .full 0x002081B3 = .ok (.add 3 1 2) := by decide

/-- `FetchedWordExecutesTwoCyclesLater`: the second word of `accesses`. -/
theorem test_witness_FetchedWordExecutesTwoCyclesLater :
    completes (stateAt accesses 1) (stateAt accesses 2) ∧ completes (stateAt accesses 2) (stateAt accesses 3) ∧
    decisionOf (stateAt accesses 1) (takenTarget (stateAt accesses 1)) = .normal ∧
    decisionOf (stateAt accesses 2) (takenTarget (stateAt accesses 2)) = .normal ∧
    (stateAt accesses 1).pc.toNat < (stateAt accesses 1).params.progEnd ∧
    fetchWord (stateAt accesses 1).params (stateAt accesses 1).pc = some 0x00211183 ∧
    decode (stateAt accesses 1).params.subset 0x00211183 = .ok (.lh 3 2 2) ∧
    (stateAt accesses 3).cycle < (stateAt accesses 3).params.cycleCap :=
  ⟨completesAt (by decide), completesAt (by decide), by decide, by decide, by decide, by decide, by decide, by decide⟩

/-- `PlacedWordRunsNext`, and the step then completes. -/
theorem test_witness_PlacedWordRunsNext :
    encode (.add 3 1 2) = some 0x002081B3 ∧ (after (State.reset.withFetchWord 32 0x002081B3)).isSome = true := by decide

/-- `InconsistentStatesAreRefused`: each clause alone. -/
theorem test_witness_InconsistentStatesAreRefused :
    (∀ s ∈ [{ State.reset with x := State.reset.x.set 0 1 }, { stateAt loop 2 with pc := 6 },
        { stateAt loop 2 with pc := 16 }, { stateAt loop 2 with ifid := some ⟨4, 0⟩ }], s.status = .running) ∧
    (State.reset.x.set 0 1)[0] ≠ 0 ∧ (6 : Word).toNat % 4 ≠ 0 ∧ (stateAt loop 2).params.progEnd < (16 : Word).toNat ∧
    (stateAt loadUse 3).exmem.any (fun e => e.ctrl.memRead) = true := by decide

/-- R268: a state that holds the ID/EX of L1-C's loop against the load of L1-A, an EX tag naming a load, is refused. -/
theorem test_refuses_ex_tag_on_load :
    invariantsHold { stateAt loop 4 with exmem := (stateAt loadUse 3).exmem } = false ∧
    after { stateAt loop 4 with exmem := (stateAt loadUse 3).exmem } = none := by decide

/-- `TerminationTests`: both clauses. -/
theorem test_witness_TerminationTests :
    (State.reset.status = .running ∧ invariantsHold State.reset = true ∧ finished State.reset = true) ∧
    (invariantsHold (stateAt { loop with cycleCap := 2 } 2) = true ∧ (stateAt { loop with cycleCap := 2 } 2).status = .running ∧ finished (stateAt { loop with cycleCap := 2 } 2) = false ∧
      (stateAt { loop with cycleCap := 2 } 2).params.cycleCap ≤ (stateAt { loop with cycleCap := 2 } 2).cycle) := by decide

/-- `FinalStatesStay`. -/
theorem test_witness_FinalStatesStay : (stateAt loadUse 8).status ≠ .running := by decide

/-- `RetiredIsFetchedLessDiscarded`: a run with a flushed word, and one with an unrecognized word. -/
theorem test_witness_RetiredIsFetchedLessDiscarded :
    wrongPath.wf = true ∧ runTo 12 (State.launch wrongPath) = some (stateAt wrongPath 12) ∧
    (stateAt wrongPath 12).status = .halted ∧ ledger 12 (State.launch wrongPath) = ⟨3, 1, 0, 2⟩ ∧
    (stateAt unrecognized 12).status = .halted ∧ ledger 12 (State.launch unrecognized) = ⟨3, 0, 1, 2⟩ := by decide

/-- `PipelineAgreesWithSequentialExecution`: a run that halts and a run that faults. -/
theorem test_witness_PipelineAgreesWithSequentialExecution :
    runTo 20 (State.launch loop) = some (stateAt loop 20) ∧ (stateAt loop 20).status = .halted ∧
    runTo 3 (State.launch (params [0x00000163] 0 0 [])) = some (stateAt (params [0x00000163] 0 0 []) 3) ∧
    (stateAt (params [0x00000163] 0 0 []) 3).status = .fault .misalignedTarget 0 2 :=
  ⟨by decide, by decide, by unfold stateAt; rfl, by decide⟩

/-- A property of an option's value holds of every value it is. -/
theorem of_get {α : Type} {P : α → Prop} {o : Option α} (h : o.isSome = true) (hp : P (o.get h)) : ∀ e, o = some e → P e := by
  intro e he
  subst he
  exact hp

/-- The one-at-a-time state after `n` words of `p`. -/
def archAt (p : Params) (n : Nat) : Arch := (archRun p n (archStart p)).getD (archStart p)

/-- `EveryCycleTracksSequentialExecution`: L1-C before cycle 5, a taken branch in ID/EX that takes its operand from EX/MEM. -/
theorem test_witness_EveryCycleTracks :
    consistent (stateAt loop 4) = true ∧ tracks (stateAt loop 4) (archAt loop 1) ∧
    completes (stateAt loop 4) (stateAt loop 5) :=
  ⟨by decide, ⟨by decide, by decide, fun f hf => absurd hf (by rw [show (stateAt loop 4).ifid = none by decide]; simp),
    8, 0, 0, [], fun h => absurd h (by decide),
    of_get (by decide) ⟨by decide, by decide, ⟨by decide, by decide⟩, by decide, by decide⟩, by decide,
    fun h => absurd h (by decide), of_get (by decide) ⟨by decide, by decide⟩⟩, completesAt (by decide)⟩

/-- X7: a branch to a misaligned target. -/
def badTarget : Params := params [0x00000163] 0 0 []

/-- `TrackedRunsEndTogether`: L1-A when it has finished, and a branch about to fault (X7). -/
theorem test_witness_TrackedRunsEnd :
    (consistent (stateAt loadUse 7) = true ∧ (stateAt loadUse 7).status = .running ∧ finished (stateAt loadUse 7) = true ∧
      tracks (stateAt loadUse 7) (archAt loadUse 2)) ∧
    (consistent (stateAt badTarget 2) = true ∧ (stateAt badTarget 2).status = .running ∧
      (after (stateAt badTarget 2)).any (fun t => decide (t.status = .fault .misalignedTarget 0 2)) = true ∧
      tracks (stateAt badTarget 2) (archStart badTarget)) :=
  ⟨⟨by decide, by decide, by decide, by decide, by decide,
      fun f hf => absurd hf (by rw [show (stateAt loadUse 7).ifid = none by decide]; simp),
      8, 0, 0, [], fun _ => by decide,
      fun e he => absurd he (by rw [show (stateAt loadUse 7).exmem = none by decide]; simp), by decide, fun _ => by decide,
      fun d hd => absurd hd (by rw [show (stateAt loadUse 7).idex = none by decide]; simp)⟩,
    ⟨by decide, by decide, by decide, by decide, by decide,
      fun f hf => absurd hf (by rw [show (stateAt badTarget 2).ifid = none by decide]; simp),
      0, 0, 0, [], fun _ => by decide,
      fun e he => absurd he (by rw [show (stateAt badTarget 2).exmem = none by decide]; simp), by decide,
      fun h => absurd h (by decide), of_get (by decide) ⟨by decide, by decide⟩⟩⟩

/-- `RegistersChangeOnlyByWriteback`, `ExecuteMovesIdExToExMem`, `TagsFollowTheNewLatches`, `CompletedCycleAppendsOneToFourRecords`,
`TraceShowsTheOccupiedLatches`: a completed cycle with every latch occupied before and after, and one that leaves none. -/
theorem test_witness_completed_cycle :
    completes (stateAt accesses 4) (stateAt accesses 5) ∧ (stateAt accesses 4).memwb.isSome = true ∧
    (stateAt accesses 4).idex.isSome = true ∧ (stateAt accesses 4).exmem.isSome = true ∧
    (stateAt accesses 5).idex.isSome = true ∧ (stateAt accesses 5).exmem.isSome = true ∧
    (stateAt accesses 5).memwb.isSome = true ∧
    (stateAt accesses 5).ifid.any (fun f => (decodeStage .full f.word f.pc).1.isSome) = true ∧
    completes (stateAt loadUse 6) (stateAt loadUse 7) ∧ (stateAt loadUse 6).idex = none ∧
    (stateAt loadUse 7).memwb = none :=
  ⟨completesAt (by decide), by decide, by decide, by decide, by decide, by decide, by decide, by decide,
    completesAt (by decide), by decide, by decide⟩

/-- `TraceShowsTheOccupiedLatches`: an unrecognized word in IF/ID. -/
theorem test_witness_TraceShowsUnrecognized :
    completes (stateAt unrecognized 1) (stateAt unrecognized 2) ∧
    (stateAt unrecognized 2).ifid.any (fun f => decide (decode .full f.word = .error .unrecognized)) = true :=
  ⟨completesAt (by decide), by decide⟩

/-- `MemoryStepLoads` and `MemoryStepStores`: each load and each store in EX/MEM in turn, an instruction that is neither, and a
bubble. -/
theorem test_witness_memory_steps :
    (∀ q ∈ [(3, Op.lb), (4, .lh), (5, .lw), (6, .lbu), (7, .lhu), (8, .sb), (9, .sh), (10, .sw)],
      cycleAt accesses q.1 = true ∧
      (stateAt accesses q.1).exmem.any (fun e => decodedStage .full e && e.op == q.2) = true ∧
      Memory.wf (stateAt accesses q.1).params.dmemSize (stateAt accesses q.1).dmem = true) ∧
    completes (stateAt loop 3) (stateAt loop 4) ∧
    (stateAt loop 3).exmem.any (fun e => decodedStage .full e && !e.ctrl.memRead && !e.ctrl.memWrite) = true ∧
    completes (stateAt loop 1) (stateAt loop 2) ∧ (stateAt loop 1).exmem = none :=
  ⟨by decide, completesAt (by decide), by decide, completesAt (by decide), by decide⟩

/-- `DecisionSetsTheFrontEnd`: NORMAL with a word to fetch and past the end, STALL, FLUSH. -/
theorem test_witness_DecisionSetsTheFrontEnd :
    (completes (stateAt loop 0) (stateAt loop 1) ∧ (stateAt loop 0).pc.toNat < (stateAt loop 0).params.progEnd ∧
      decisionOf (stateAt loop 0) (takenTarget (stateAt loop 0)) = .normal) ∧
    (completes (stateAt loop 3) (stateAt loop 4) ∧ (stateAt loop 3).pc.toNat = (stateAt loop 3).params.progEnd ∧
      decisionOf (stateAt loop 3) (takenTarget (stateAt loop 3)) = .normal) ∧
    (completes (stateAt loadUse 2) (stateAt loadUse 3) ∧
      decisionOf (stateAt loadUse 2) (takenTarget (stateAt loadUse 2)) = .stall) ∧
    (completes (stateAt loop 4) (stateAt loop 5) ∧
      decisionOf (stateAt loop 4) (takenTarget (stateAt loop 4)) = .flush 4) :=
  ⟨⟨completesAt (by decide), by decide, by decide⟩, ⟨completesAt (by decide), by decide, by decide⟩,
    ⟨completesAt (by decide), by decide⟩, ⟨completesAt (by decide), by decide⟩⟩

/-- `OperandsAreTheNewestValues` and `MemTagAgreesWithWriteback`: a MEM tag (L1-A), and an EX tag (L1-C). -/
theorem test_witness_operands :
    consistent (stateAt loadUse 4) = true ∧ faulted (stateAt loadUse 4) = false ∧
    (stateAt loadUse 4).idex.any (fun d => d.tag1 == .mem) = true ∧
    consistent (stateAt loop 4) = true ∧ (stateAt loop 4).idex.any (fun d => d.tag1 == .ex && d.uses2) = true := by decide

/-- `MemTagAgreesWithWriteback`: a MEM tag on source 2 (H12). -/
theorem test_witness_mem_tag_on_source_2 :
    consistent (stateAt (params [0x00012083, 0x001001B3] 0 0x100 []) 4) = true ∧
    (stateAt (params [0x00012083, 0x001001B3] 0 0x100 []) 4).idex.any (fun d => d.tag2 == .mem) = true := by decide

/-- The load-use pair of `s`, if it has one, from its ID/EX and the decoded view of its IF/ID. -/
theorem loadUse_of {s : State} (h1 : s.idex.isSome = true) (h2 : s.ifid.isSome = true)
    (h3 : (decodeStage s.params.subset (s.ifid.get h2).word (s.ifid.get h2).pc).1.isSome = true)
    (h : (s.idex.get h1).ctrl.memRead = true ∧ (s.idex.get h1).rd ≠ 0 ∧
      ((((decodeStage s.params.subset (s.ifid.get h2).word (s.ifid.get h2).pc).1.get h3).uses1 = true ∧
          ((decodeStage s.params.subset (s.ifid.get h2).word (s.ifid.get h2).pc).1.get h3).rs1 = (s.idex.get h1).rd) ∨
        (((decodeStage s.params.subset (s.ifid.get h2).word (s.ifid.get h2).pc).1.get h3).uses2 = true ∧
          ((decodeStage s.params.subset (s.ifid.get h2).word (s.ifid.get h2).pc).1.get h3).rs2 = (s.idex.get h1).rd)))
    (h4 : (decodeStage s.params.subset (s.ifid.get h2).word (s.ifid.get h2).pc).2 = false) : ∃ x c, loadUsePair s x c :=
  ⟨_, _, (Option.some_get h1).symm, ⟨_, (Option.some_get h2).symm, Prod.ext (Option.some_get h3).symm h4⟩, h⟩

/-- H12: a load, then a consumer on source 2. -/
def loadUse2 : Params := params [0x00012083, 0x001001B3] 0 0x100 [(0x100, 0x2A)]

/-- `LoadUseHazardStalls` and `StallLastsOneCycle`: the load read as source 1 (L1-A) and as source 2 (H12). -/
theorem test_witness_stall : ∀ p ∈ [loadUse, loadUse2],
    completes (stateAt p 2) (stateAt p 3) ∧ completes (stateAt p 3) (stateAt p 4) ∧
    consistent (stateAt p 2) = true ∧ faulted (stateAt p 2) = false ∧ ∃ x c, loadUsePair (stateAt p 2) x c := by
  intro p hp
  rcases List.mem_cons.1 hp with rfl | hp
  · exact ⟨completesAt (by decide), completesAt (by decide), by decide, by decide,
      loadUse_of (by decide) (by decide) (by decide) (by decide) (by decide)⟩
  · obtain rfl := List.mem_singleton.1 hp
    exact ⟨completesAt (by decide), completesAt (by decide), by decide, by decide,
      loadUse_of (by decide) (by decide) (by decide) (by decide) (by decide)⟩

/-- `StallLastsOneCycle`: each consumer reads the load in ID/EX, with tag MEM. `LoadUseHazardStalls`: no stall on a load to `x0` (H9), on
a U-format word (H10) or on a field that is no source (H11). -/
theorem test_stall_exactly :
    (stateAt loadUse 4).idex.any (fun d => d.uses1 && d.rs1 == 1 && d.tag1 == .mem) = true ∧
    (stateAt loadUse2 4).idex.any (fun d => d.uses2 && d.rs2 == 1 && d.tag2 == .mem) = true ∧
    ∀ ws ∈ [[(0x00012003 : Word), 0x000001B3], [0x00012083, 0x000081B7], [0x00012083, 0x00100193]],
      decisionOf (stateAt (params ws 0 0x100 []) 2) none = .normal := by decide

/-- `TakenBranchFlushes` and `TakenBranchCostsTwoBubbles` (L1-C, cycles 5 to 7). -/
theorem test_witness_flush :
    completes (stateAt loop 4) (stateAt loop 5) ∧ completes (stateAt loop 5) (stateAt loop 6) ∧
    completes (stateAt loop 6) (stateAt loop 7) ∧ takenTarget (stateAt loop 4) = some 4 ∧
    4 < (stateAt loop 4).params.progEnd ∧ fetchWord (stateAt loop 4).params 4 = some 0xFFF08093 ∧
    decode (stateAt loop 4).params.subset 0xFFF08093 = .ok (.addi 1 1 (-1)) :=
  ⟨completesAt (by decide), completesAt (by decide), completesAt (by decide), by decide, by decide, by decide, by decide⟩

/-- `UnrecognizedWordLeavesOneDiagnostic`: not flushed (T10), flushed (T11). -/
theorem test_witness_UnrecognizedWordLeavesOneDiagnostic :
    completes (stateAt unrecognized 2) (stateAt unrecognized 3) ∧ (stateAt unrecognized 2).ifid = some ⟨4, 0x73⟩ ∧
    decode (stateAt unrecognized 2).params.subset 0x73 = .error .unrecognized ∧
    takenTarget (stateAt unrecognized 2) = none ∧
    completes (stateAt wrongPath 2) (stateAt wrongPath 3) ∧ (stateAt wrongPath 2).ifid = some ⟨4, 0x73⟩ ∧
    takenTarget (stateAt wrongPath 2) = some 8 :=
  ⟨completesAt (by decide), by decide, by decide, by decide, completesAt (by decide), by decide, by decide⟩

/-- `BadDataAccessEndsTheRun`: misaligned; and the first byte past the end. -/
theorem test_witness_BadDataAccessEndsTheRun :
    (∀ s ∈ [inMemory 0x00412183 0x102 0, inMemory 0x00010183 4096 0],
      s.status = .running ∧ invariantsHold s = true ∧ finished s = false ∧ s.cycle < s.params.cycleCap ∧
      s.exmem.any (fun e => decodedStage s.params.subset e) = true) ∧
    accessBytes .lw = some 4 ∧ 0x102 % 4 ≠ 0 ∧ accessBytes .lb = some 1 ∧ 4096 < 4096 + 1 := by decide

/-- `FaultsComeOnlyFromBadAccessesAndTargets`: a run whose fourth cycle faults on a misaligned load, and one whose third does on a
target (X8). -/
theorem test_witness_FaultsComeOnly :
    (∀ q ∈ [(params [0x00412183] 0 0x102 [], 3), (params [0x00000863] 0 0 [], 2)],
      consistent (stateAt q.1 q.2) = true ∧ (stateAt q.1 q.2).status = .running ∧
      invariantsHold (stateAt q.1 q.2) = true ∧ finished (stateAt q.1 q.2) = false ∧
      (stateAt q.1 q.2).cycle < (stateAt q.1 q.2).params.cycleCap ∧
      (after (stateAt q.1 q.2)).any (fun t => faulted t) = true) := by decide

/-- `BadBranchTargetEndsTheRun`: misaligned (X7), above `4N` (X8). -/
theorem test_witness_BadBranchTargetEndsTheRun :
    (∀ q ∈ [(ready 0x00000163 0 0, (2 : Word)), (ready 0x00000863 0 0, 16)],
      q.1.status = .running ∧ invariantsHold q.1 = true ∧ finished q.1 = false ∧ q.1.cycle < q.1.params.cycleCap ∧ takenTarget q.1 = some q.2 ∧
      memoryStep q.1 = .ok (none, q.1.dmem)) ∧
    (2 : Word).toNat % 4 ≠ 0 ∧ ¬ (16 : Word).toNat ≤ (ready 0x00000863 0 0).params.progEnd := by decide

/-- `s` meets `alone s i d` for its ID/EX `d`. -/
def aloneWith (s : State) (i : Instr) : Bool :=
  s.idex.any fun d =>
    decide (s.status = .running) && invariantsHold s && s.ifid.isNone && s.exmem.isNone && s.memwb.isNone
      && decide (s.params.progEnd ≤ s.pc.toNat) && decide (s.cycle + 3 ≤ s.params.cycleCap)
      && decodedStage s.params.subset d && decide (d.instr = i) && decide (d.tag1 = .none) && decide (d.tag2 = .none)

theorem aloneWith_alone {s : State} {i : Instr} (h : aloneWith s i = true) : ∃ d, alone s i d := by
  unfold aloneWith at h
  cases hd : s.idex with
  | none => rw [hd] at h; cases h
  | some d =>
    rw [hd] at h
    simp only [Option.any_some, Bool.and_eq_true, decide_eq_true_eq, Option.isNone_iff_eq_none] at h
    exact ⟨d, h.1.1.1.1.1.1.1.1.1.1, h.1.1.1.1.1.1.1.1.1.2, h.1.1.1.1.1.1.1.1.2, hd, h.1.1.1.1.1.1.1.2, h.1.1.1.1.1.1.2, h.1.1.1.1.1.2, h.1.1.1.1.2,
      h.1.1.1.2, h.1.1.2, h.1.2, h.2⟩

/-- `RegisterRegisterInstructionsRetire`, `RegisterImmediateInstructionsRetire`, `UpperImmediateInstructionsRetire`: every clause,
with the ends of the immediates' ranges, `x0` as a destination and the destination as a source. -/
theorem test_witness_alu_alone :
    ∀ q ∈ [(0x002081B3, Instr.add 3 1 2), (0x402081B3, .sub 3 1 2), (0x002091B3, .sll 3 1 2), (0x0020A1B3, .slt 3 1 2),
      (0x0020B1B3, .sltu 3 1 2), (0x0020C1B3, .xor 3 1 2), (0x0020D1B3, .srl 3 1 2), (0x4020D1B3, .sra 3 1 2),
      (0x0020E1B3, .or 3 1 2), (0x0020F1B3, .and 3 1 2), (0x7FF08013, .addi 0 1 2047), (0x0000A193, .slti 3 1 0),
      (0xFFF0B193, .sltiu 3 1 (-1)), (0xFFF0C193, .xori 3 1 (-1)), (0x8000E193, .ori 3 1 (-2048)),
      (0x7FF0F093, .andi 1 1 2047), (0x01F09193, .slli 3 1 31), (0x0010D193, .srli 3 1 1), (0x4000D193, .srai 3 1 0),
      (0xFFFFF1B7, .lui 3 0xFFFFF000), (0x80000197, .auipc 3 0x80000000)],
      aloneWith (ready q.1 0x80000000 0x21) q.2 = true := by decide

/-- `LoadsRetire` and `StoresRetire`: every clause, at the last address of its width. -/
theorem test_witness_access_alone :
    (∀ q ∈ [(0x00010183, Instr.lb 3 2 0, 4095, 1), (0x00011183, .lh 3 2 0, 4094, 2), (0x00012183, .lw 3 2 0, 4092, 4),
        (0x00014183, .lbu 3 2 0, 0, 1), (0x00015183, .lhu 3 2 0, 0, 2), (0x00110023, .sb 2 1 0, 4095, 1),
        (0x00111023, .sh 2 1 0, 4094, 2), (0x00112023, .sw 2 1 0, 4092, 4)],
      aloneWith (ready q.1 0xAABBCCDD (BitVec.ofNat 32 q.2.2.1)) q.2.1 = true ∧
      Regs.read (ready q.1 0xAABBCCDD (BitVec.ofNat 32 q.2.2.1)).x 2 = BitVec.ofNat 32 q.2.2.1 ∧
      q.2.2.1 % q.2.2.2 = 0 ∧ q.2.2.1 + q.2.2.2 ≤ 4096) ∧
    Memory.wf 4096 (ready 0x00112023 0 0).dmem = true := by decide

/-- `BranchesResolve`: every clause taken, to the legal target `4N`, and not taken. -/
theorem test_witness_branch_alone :
    ∀ q ∈ [(0x00208263, Instr.beq 1 2 4, 5, 5, 5, 6), (0x00209263, .bne 1 2 4, 5, 6, 5, 5),
      (0x0020C263, .blt 1 2 4, 0xFFFFFFFF, 1, 1, 1), (0x0020D263, .bge 1 2 4, 1, 1, 0xFFFFFFFF, 1),
      (0x0020E263, .bltu 1 2 4, 1, 0xFFFFFFFF, 1, 1), (0x0020F263, .bgeu 1 2 4, 1, 1, 1, 0xFFFFFFFF)],
      aloneWith (ready q.1 q.2.2.1 q.2.2.2.1) q.2.1 = true ∧
      takenTarget (ready q.1 q.2.2.1 q.2.2.2.1) = some 4 ∧ (ready q.1 0 0).params.progEnd = 4 ∧
      aloneWith (ready q.1 q.2.2.2.2.1 q.2.2.2.2.2) q.2.1 = true ∧
      takenTarget (ready q.1 q.2.2.2.2.1 q.2.2.2.2.2) = none := by decide

/-- `EveryInstructionCompletesInAnyPipeline`: a full pipeline, and a taken branch that takes operand 1 from EX/MEM. -/
theorem test_witness_EveryInstructionCompletesInAnyPipeline :
    (stateAt accesses 4).idex.any (fun d => decodedStage .full d && decide (d.instr = .lw 3 2 0)) = true ∧
    (∃ m, memoryStep (stateAt accesses 4) = .ok m) ∧ invariantsHold (stateAt accesses 4) = true ∧
    takenTarget (stateAt accesses 4) = none ∧
    (∃ m, memoryStep (stateAt loop 4) = .ok m) ∧ invariantsHold (stateAt loop 4) = true ∧
    takenTarget (stateAt loop 4) = some 4 ∧ (4 : Word).toNat % 4 = 0 ∧ 4 ≤ (stateAt loop 4).params.progEnd := by
  have h : ∀ s, (memoryStep s).isOk = true → ∃ m, memoryStep s = .ok m := by
    intro s hs
    cases hm : memoryStep s with
    | ok m => exact ⟨m, rfl⟩
    | error e => rw [hm] at hs; cases hs
  exact ⟨by decide, h _ (by decide), by decide, by decide, h _ (by decide), by decide, by decide, by decide, by decide⟩

end Sys2Proof.Tests
end

section
/-! PROOFS. Which words decode to an instruction under a subset (R94, R96): by the disjointness of the opcode rows, exactly
those that an admitted row accepts. -/

namespace Sys2Proof

/-! ## The rows are pairwise disjoint (R94) -/

/-- Two different rows differ in a bit that both of their masks fix. -/
theorem eq_of_bits_agree_on_masks :
    ∀ q ∈ rows, ∀ r ∈ rows, q.bits &&& r.mask = r.bits &&& q.mask → q = r := by decide

/-- The bits of two rows that accept one word agree where both masks fix them: there both are the word's own. -/
theorem bits_agree_of_accepts {q r : Row} {w : Word} (hq : q.accepts w = true) (hr : r.accepts w = true) :
    q.bits &&& r.mask = r.bits &&& q.mask := by
  have hqb : w &&& q.mask = q.bits := eq_of_beq hq
  have hrb : w &&& r.mask = r.bits := eq_of_beq hr
  rw [← hqb, ← hrb, BitVec.and_assoc, BitVec.and_comm q.mask, ← BitVec.and_assoc]

/-- No word matches two rows (R94). -/
theorem row_eq_of_accepts {q r : Row} {w : Word} (hq : q ∈ rows) (hr : r ∈ rows) (hqw : q.accepts w = true)
    (hrw : r.accepts w = true) : q = r :=
  eq_of_bits_agree_on_masks q hq r hr (bits_agree_of_accepts hqw hrw)

/-! ## What decodes under a subset (R96, R110) -/

/-- The order of the table does not matter: the row found is the one admitted row that accepts the word. -/
theorem matchRow_eq_some_iff {sub : Subset} {w : Word} {r : Row} :
    matchRow sub w = some r ↔ r ∈ rows ∧ sub.admits r = true ∧ r.accepts w = true := by
  refine ⟨matchRow_spec, fun ⟨hr, hadm, hacc⟩ => ?_⟩
  cases hm : matchRow sub w with
  | none =>
    have := List.find?_eq_none.mp hm r hr
    simp [hadm, hacc] at this
  | some q =>
    obtain ⟨hq, -, hqacc⟩ := matchRow_spec hm
    rw [row_eq_of_accepts hq hr hqacc hacc]

theorem decode_eq_ok_iff {sub : Subset} {w : Word} {i : Instr} :
    decode sub w = .ok i ↔
      w ≠ 0 ∧ ∃ r ∈ rows, sub.admits r = true ∧ r.accepts w = true ∧ i = r.op.instr (fieldsOf r.op.layout w) := by
  constructor
  · intro h
    obtain ⟨hw, r, hm, hi⟩ := decode_ok h
    obtain ⟨hr, hadm, hacc⟩ := matchRow_spec hm
    exact ⟨hw, r, hr, hadm, hacc, hi⟩
  · rintro ⟨hw, r, hr, hadm, hacc, rfl⟩
    rw [decode, if_neg hw, matchRow_eq_some_iff.mpr ⟨hr, hadm, hacc⟩]

/-! ## CORE and FULL (R3) -/

/-- The CORE column of the opcode table names the seven operations of R3. -/
theorem core_admits_iff_op_mem_coreOps :
    ∀ r ∈ rows, Subset.core.admits r = true ↔ r.op ∈ Machine.coreOps := by decide

/-- Settles O4: a word's row does not depend on the subset, and CORE admits that row exactly when its operation, which is the
instruction's, is one of the seven. -/
theorem coreAdmitsItsSevenInstructions : Obligations.CoreAdmitsItsSevenInstructions := by
  intro w i
  rw [decode_eq_ok_iff, decode_eq_ok_iff]
  constructor
  · rintro ⟨hw, r, hr, hadm, hacc, rfl⟩
    exact ⟨⟨hw, r, hr, rfl, hacc, rfl⟩, by rw [instr_op]; exact (core_admits_iff_op_mem_coreOps r hr).mp hadm⟩
  · rintro ⟨⟨hw, r, hr, -, hacc, rfl⟩, hop⟩
    rw [instr_op] at hop
    exact ⟨hw, r, hr, (core_admits_iff_op_mem_coreOps r hr).mpr hop, hacc, rfl⟩

end Sys2Proof
end

section
/-! PROOFS. The register file's accessors (R21), the launch state (R42), and what every step keeps: the launch parameters (R43),
`pc` within the program (R27) and EX tags off loads (R236). -/

namespace Sys2Proof.Machine

/-! ## Register 0 (R21) -/

/-- Settles O9, from the laws of the register file: reading after writing, at the register written and at another. -/
theorem registerZeroIsHardWired : Obligations.RegisterZeroIsHardWired := by
  intro x v
  refine ⟨Regs.read_zero x, Regs.write_zero x v, fun i j hi => ?_⟩
  by_cases hj : j = i
  · subst hj
    rw [if_pos rfl, Regs.read_write_self x hi]
  · rw [if_neg hj, Regs.read_write_other x hj]

/-! ## The launch state (R42, R280) -/

/-- `pc` is in the program exactly when it is where a branch may go (R27, R200). -/
theorem pcInProgram_iff {s : State} : pcInProgram s = true ↔ goodTarget s.params s.pc := by
  simp [pcInProgram, goodTarget]

/-- Address 0 is legal in every program, the empty one included. -/
theorem goodTarget_zero (p : Params) : goodTarget p 0 := ⟨rfl, Nat.zero_le _⟩

/-- A pipeline of bubbles is sound wherever `pc` is in the program: every other part speaks of an occupied latch. -/
theorem pipelineSound_of_bubbles {s : State} (hpc : goodTarget s.params s.pc) (hif : s.ifid = none) (hid : s.idex = none)
    (hex : s.exmem = none) (hwb : s.memwb = none) : pipelineSound s = true := by
  simp [pipelineSound, fetchedSound, latchSound, idexSound, valuesSound, exTagNamesNoLoad, pcInProgram_iff.2 hpc, hif, hid,
    hex, hwb]

/-- Settles O15: `x0` and the form of the data memory hold by how the launch builds them, and the latches hold bubbles. -/
theorem launchStatesAreConsistent : Obligations.LaunchStatesAreConsistent := by
  intro p hp
  have hpipe : pipelineSound (State.launch p) = true := pipelineSound_of_bubbles (goodTarget_zero p) rfl rfl rfl rfl
  simp [consistent, hp, hpipe, Memory.ofCells_wf]

/-- Settles O14: the reset state is a launch state, and its parameters are in their domains. -/
theorem resetStateIsConsistent : Obligations.ResetStateIsConsistent :=
  launchStatesAreConsistent Config.resetParams (by decide)

/-! ## Final states (R38) -/

/-- Settles O26: the first test of `step` is that of the status. -/
theorem finalStatesStay : Obligations.FinalStatesStay := by
  intro s hs
  unfold step
  exact if_pos hs

/-! ## The launch parameters (R43) -/

theorem cycle_params {s t : State} {ex : Except Stop Executed} (h : cycle s ex = .next t) : t.params = s.params := by
  obtain ⟨-, ⟨k, pc, info, -, rfl⟩ | ⟨m, k, pc, info, -, -, rfl⟩ | ⟨m, x, f, -, -, -, rfl⟩⟩ := cycle_next h
  · exact takeFault_params s k pc info
  · exact takeFault_params s k pc info
  · exact completeCycle_params s m.1 m.2 x.exmem f

/-- Settles O20: a final state stays, a termination test writes the status alone, and a cycle keeps the parameters. -/
theorem launchParametersAreNeverWritten : Obligations.LaunchParametersAreNeverWritten := by
  intro s t h
  obtain ⟨-, rfl⟩ | ⟨-, -, ⟨-, rfl⟩ | ⟨-, -, rfl⟩ | ⟨-, -, hcycle⟩⟩ := step_cases h
  · rfl
  · rfl
  · rfl
  · exact cycle_params hcycle

/-! ## Along a run (R283) -/

/-- What every step keeps holds along every run. -/
theorem runTo_keeps {P : State → Prop} (hstep : ∀ {s t : State}, P s → step s = .next t → P t) {k : Nat} {s t : State}
    (hs : P s) (h : runTo k s = some t) : P t := by
  induction k generalizing s with
  | zero => cases h; exact hs
  | succ k ih =>
    unfold runTo at h
    cases hu : step s with
    | next u => rw [hu] at h; exact ih (hstep hs hu) h
    | fault r => rw [hu] at h; cases h
    | refused r => rw [hu] at h; cases h

theorem runTo_params {k : Nat} {s t : State} (h : runTo k s = some t) : t.params = s.params :=
  runTo_keeps (P := fun u => u.params = s.params) (fun hu hstep => (launchParametersAreNeverWritten _ _ hstep).trans hu) rfl h

/-! ## `pc` stays in the program (R27) -/

/-- The program ends low enough for `4N` not to wrap (R7). -/
theorem progEnd_lt_of_wf {p : Params} (hp : p.wf = true) : p.progEnd < 2 ^ 32 := by
  simp only [Params.wf, Bool.and_eq_true, decide_eq_true_eq] at hp
  obtain ⟨⟨⟨⟨hlen, -⟩, -⟩, -⟩, -⟩ := hp
  unfold Params.progEnd
  omega

/-- The address after a word of the program is in the program or just past it. -/
theorem goodTarget_next {p : Params} {a : Word} (hp : p.wf = true) (h4 : a.toNat % 4 = 0) (hlt : a.toNat < p.progEnd) :
    goodTarget p (a + 4) := by
  have hend := progEnd_lt_of_wf hp
  have hmul : p.progEnd % 4 = 0 := Nat.mul_mod_right 4 _
  have hadd : (a + 4).toNat = a.toNat + 4 := by
    rw [BitVec.toNat_add, show (4 : Word).toNat = 4 from rfl]
    omega
  unfold goodTarget
  omega

/-- Where the front end puts `pc`: past the fetched word, where it was, or at the target of the branch (R222, R225, R228). -/
theorem frontEnd_pc {s : State} {c : Nat} {k : Decision} {f : FrontEnd} (hp : s.params.wf = true)
    (hpc : goodTarget s.params s.pc) (hk : ∀ a, k = .flush a → goodTarget s.params a) (h : frontEnd s c k = .ok f) :
    goodTarget s.params f.pc := by
  cases k with
  | normal =>
    obtain ⟨q, hq, rfl⟩ := frontEnd_normal.1 h
    obtain ⟨-, rfl⟩ | ⟨hlt, w, -, rfl⟩ := fetchStep_ok.1 hq
    · exact hpc
    · exact goodTarget_next hp hpc.1 hlt
  | stall => cases h; exact hpc
  | flush a => cases h; exact hk a rfl

/-! ## EX tags stay off loads (R236) -/

theorem exTagNamesNoLoad_iff {s : State} : exTagNamesNoLoad s = true ↔
    ∀ d e, s.idex = some d → s.exmem = some e → (d.tag1 = .ex ∨ d.tag2 = .ex) → e.ctrl.memRead = false := by
  unfold exTagNamesNoLoad
  cases s.idex with
  | none => simp
  | some d =>
    cases s.exmem with
    | none => simp
    | some e => cases he : e.ctrl.memRead <;> simp [he]

/-- Only a NORMAL cycle puts an instruction in ID/EX, and it is the one that leaves decode (R227, R230). -/
theorem frontEnd_idex {s : State} {c : Nat} {k : Decision} {f : FrontEnd} {d : Stage} (h : frontEnd s c k = .ok f)
    (hd : f.idex = some d) : k = .normal ∧ (candidate s).1 = some d := by
  cases k with
  | normal =>
    obtain ⟨q, -, rfl⟩ := frontEnd_normal.1 h
    exact ⟨rfl, hd⟩
  | stall => cases h; cases hd
  | flush a => cases h; cases hd

/-- The instruction execute puts in EX/MEM is that of ID/EX with new value fields. -/
theorem executed_exmem {s : State} {x : Executed} {e : Stage} (h : executed s = .ok x) (he : x.exmem = some e) :
    ∃ d alu sdata, s.idex = some d ∧ e = { d with alu := alu, sdata := sdata } := by
  unfold executed at h
  cases hd : s.idex with
  | none => rw [hd] at h; cases h; cases he
  | some d =>
    rw [hd] at h
    obtain ⟨alu, sdata, hx⟩ := executeStep_ok h
    exact ⟨d, alu, sdata, rfl, Option.some.inj (he.symm.trans hx)⟩

/-- An EX tag that named a load would have been a load-use hazard one cycle before (R218, R221). -/
theorem hazard_of_ex_tag {c e : Stage} {m : Option Stage} (hload : e.ctrl.memRead = true)
    (htag : (withTags c (some e) m).tag1 = .ex ∨ (withTags c (some e) m).tag2 = .ex) : hazard (some c) (some e) = true := by
  rw [withTags_tag1, withTags_tag2, forwardTag_ex, forwardTag_ex, writesReg_some, writesReg_some] at htag
  obtain ⟨huses, -, hrd, heq⟩ | ⟨huses, -, hrd, heq⟩ := htag
  · exact hazard_some.2 ⟨hload, hrd, .inl ⟨huses, heq.symm⟩⟩
  · exact hazard_some.2 ⟨hload, hrd, .inr ⟨huses, heq.symm⟩⟩

/-- After a completed cycle no EX tag names a load: the cycle that let the consumer into ID/EX was NORMAL, so it saw no hazard. -/
theorem completeCycle_exTag {s : State} {x : Executed} {f : FrontEnd} {m : Option Stage} {mem : Memory} {c : Nat}
    (hx : executed s = .ok x) (hf : frontEnd s c (decisionOf s x.target) = .ok f) :
    exTagNamesNoLoad (completeCycle s m mem x.exmem f) = true := by
  refine exTagNamesNoLoad_iff.2 fun d e hd he htag => ?_
  rw [completeCycle_exmem] at he
  rw [completeCycle_idex, he] at hd
  obtain ⟨cand, hcand, rfl⟩ := Option.map_eq_some_iff.1 hd
  obtain ⟨hnormal, hleaves⟩ := frontEnd_idex hf hcand
  obtain ⟨load, alu, sdata, hload, rfl⟩ := executed_exmem hx he
  have hsafe : hazard (some cand) (some load) = false := by
    rw [← hleaves, ← hload]
    exact (decisionOf_normal.1 hnormal).2
  refine Bool.eq_false_of_not_eq_true fun hread => ?_
  exact Bool.false_ne_true (hsafe.symm.trans (hazard_of_ex_tag hread htag))

/-! ## Both along every run -/

/-- R27 and R236 hold of a state, unless it faulted (R263). -/
def pcAndTagsSound (s : State) : Prop :=
  faulted s = true ∨ (goodTarget s.params s.pc ∧ exTagNamesNoLoad s = true)

/-- A state the step does not refuse meets both already (R268). -/
theorem goodTarget_and_exTag_of_invariantsHold {s : State} (h : invariantsHold s = true) :
    goodTarget s.params s.pc ∧ exTagNamesNoLoad s = true := by
  simp only [invariantsHold, Bool.and_eq_true] at h
  obtain ⟨⟨⟨-, hpc⟩, -⟩, htag⟩ := h
  exact ⟨pcInProgram_iff.1 hpc, htag⟩

theorem cycle_keeps_pcAndTagsSound {s t : State} (hp : s.params.wf = true) (h : cycle s (executed s) = .next t) :
    pcAndTagsSound t := by
  obtain ⟨hinv, ⟨k, pc, info, -, rfl⟩ | ⟨m, k, pc, info, -, -, rfl⟩ | ⟨m, x, f, -, hx, hf, rfl⟩⟩ := cycle_next h
  · exact .inl rfl
  · exact .inl rfl
  · obtain ⟨hpc, -⟩ := goodTarget_and_exTag_of_invariantsHold hinv
    have hflush : ∀ a, decisionOf s x.target = .flush a → goodTarget s.params a :=
      fun a ha => (executed_target hx).2 a (decisionOf_flush.1 ha)
    have hnext : goodTarget s.params f.pc := frontEnd_pc hp hpc hflush hf
    exact .inr ⟨hnext, completeCycle_exTag hx hf⟩

theorem step_keeps_pcAndTagsSound {s t : State} (hp : s.params.wf = true) (hs : pcAndTagsSound s) (h : step s = .next t) :
    pcAndTagsSound t := by
  obtain ⟨-, rfl⟩ | ⟨-, hinv, ⟨-, rfl⟩ | ⟨-, -, rfl⟩ | ⟨-, -, hcycle⟩⟩ := step_cases h
  · exact hs
  · exact .inr (goodTarget_and_exTag_of_invariantsHold hinv)
  · exact .inr (goodTarget_and_exTag_of_invariantsHold hinv)
  · exact cycle_keeps_pcAndTagsSound hp hcycle

theorem launch_pcAndTagsSound (p : Params) : pcAndTagsSound (State.launch p) := .inr ⟨goodTarget_zero p, rfl⟩

/-- Settles O19: the launch state is sound in `pc` and tags, and every step under parameters in their domains keeps it so. -/
theorem runsKeepPcInProgramAndExTagsOffLoads : Obligations.RunsKeepPcInProgramAndExTagsOffLoads := by
  intro p k t hp hrun hfault
  have hparams : t.params = p := runTo_params hrun
  have hsound : t.params.wf = true ∧ pcAndTagsSound t :=
    runTo_keeps (P := fun u => u.params.wf = true ∧ pcAndTagsSound u)
      (fun hu hstep => ⟨(launchParametersAreNeverWritten _ _ hstep).symm ▸ hu.1, step_keeps_pcAndTagsSound hu.1 hu.2 hstep⟩)
      ⟨hp, launch_pcAndTagsSound p⟩ hrun
  obtain hfaulted | ⟨⟨h4, hle⟩, htag⟩ := hsound.2
  · exact absurd hfaulted (by simp [hfault])
  · rw [hparams] at hle
    exact ⟨h4, hle, exTagNamesNoLoad_iff.1 htag⟩

end Sys2Proof.Machine
end

section
/-! PROOFS. The checked data accesses (R57, R58), and what a load sees of a store around it (R56, R65, R67). -/

namespace Sys2Proof.Machine

/-! ## The two checks, in their order (R57, R59, R60) -/

theorem accessFault_misaligned {s : State} {a : Word} {n : Width} (h : a.toNat % n.bytes ≠ 0) :
    accessFault s a n = some .misalignedData :=
  accessFault_some.2 (.inl ⟨h, rfl⟩)

theorem accessFault_beyond {s : State} {a : Word} {n : Width} (haligned : a.toNat % n.bytes = 0)
    (hbeyond : s.params.dmemSize < a.toNat + n.bytes) : accessFault s a n = some .dmemRange :=
  accessFault_some.2 (.inr ⟨haligned, hbeyond, rfl⟩)

/-! ## Reading (R57) -/

/-- Settles O10: a failed check is the outcome, and a read that passes both is the little-endian value of its bytes. -/
theorem memReadChecksThenReads : Obligations.MemReadChecksThenReads := by
  intro s pc a n
  refine ⟨fun hmis => ?misaligned, fun hal hbeyond => ?beyond, fun hal hin => ?answered⟩
  case misaligned => exact memRead_error.2 ⟨_, accessFault_misaligned hmis, rfl⟩
  case beyond => exact memRead_error.2 ⟨_, accessFault_beyond hal hbeyond, rfl⟩
  case answered =>
    exact ⟨_, memRead_ok.2 ⟨accessFault_none.2 ⟨hal, hin⟩, rfl⟩, Memory.readLE_lt _ _ n, Memory.readLE_bytes _ _ n⟩

/-! ## Writing (R58) -/

/-- A stored byte is the value's own (R56). -/
theorem Memory.read_writeLE_inside {m : Memory} (hm : Memory.canonical m = true) (a : Nat) (v : Word) {n : Width} {k : Nat}
    (hk : k < n.bytes) : Memory.read (Memory.writeLE m a v n) (a + k) = v.extractLsb' (8 * k) 8 := by
  rw [Memory.read_writeLE hm, if_pos (by omega), Nat.add_sub_cancel_left]

/-- A byte outside the stored ones is as before. -/
theorem Memory.read_writeLE_outside {m : Memory} (hm : Memory.canonical m = true) {a : Nat} (v : Word) {n : Width} {b : Nat}
    (hb : b < a ∨ a + n.bytes ≤ b) : Memory.read (Memory.writeLE m a v n) b = Memory.read m b := by
  rw [Memory.read_writeLE hm, if_neg (by omega)]

/-- Settles O11: the checks are those of a read, and a write that passes both is the little-endian store. -/
theorem memWriteChecksThenWrites : Obligations.MemWriteChecksThenWrites := by
  intro s pc a n v
  refine ⟨fun hmis => ?misaligned, fun hal hbeyond => ?beyond, fun hwf hal hin => ?stored⟩
  case misaligned => exact memWrite_error.2 ⟨_, accessFault_misaligned hmis, rfl⟩
  case beyond => exact memWrite_error.2 ⟨_, accessFault_beyond hal hbeyond, rfl⟩
  case stored =>
    have hcanonical := Memory.wf_canonical hwf
    exact ⟨_, memWrite_ok.2 ⟨accessFault_none.2 ⟨hal, hin⟩, rfl⟩, Memory.writeLE_wf v n hwf hin,
      fun _ => Memory.read_writeLE_inside hcanonical _ v, fun _ => Memory.read_writeLE_outside hcanonical v⟩

/-! ## A load inside a store (R65, R67) -/

theorem Width.bytes_eq_two_pow (n : Width) : ∃ i, n.bytes = 2 ^ i := by
  cases n with
  | byte => exact ⟨0, rfl⟩
  | half => exact ⟨1, rfl⟩
  | word => exact ⟨2, rfl⟩

/-- Widths are powers of two, so the smaller of two divides the larger. -/
theorem Width.bytes_dvd_of_le {m n : Width} (h : n.bytes ≤ m.bytes) : n.bytes ∣ m.bytes := by
  obtain ⟨i, hi⟩ := n.bytes_eq_two_pow
  obtain ⟨j, hj⟩ := m.bytes_eq_two_pow
  rw [hi, hj] at h ⊢
  exact Nat.pow_dvd_pow 2 ((Nat.pow_le_pow_iff_right (by decide)).1 h)

/-- An access at an aligned offset inside one that passes the checks passes them too. -/
theorem accessFault_none_inside {s : State} {a b : Word} {m n : Width} {k : Nat} (h : accessFault s a m = none)
    (hb : b.toNat = a.toNat + k) (hk : k % n.bytes = 0) (hin : k + n.bytes ≤ m.bytes) : accessFault s b n = none := by
  obtain ⟨haligned, hrange⟩ := accessFault_none.1 h
  have hdvd : n.bytes ∣ a.toNat := (Width.bytes_dvd_of_le (by omega)).trans (Nat.dvd_of_mod_eq_zero haligned)
  refine accessFault_none.2 ⟨?_, by omega⟩
  rw [hb]
  exact Nat.mod_eq_zero_of_dvd (hdvd.add (Nat.dvd_of_mod_eq_zero hk))

/-- The checks look at the launch parameters alone, not at the bytes stored. -/
@[simp] theorem accessFault_with_dmem (s : State) (mem : Memory) (a : Word) (n : Width) :
    accessFault { s with dmem := mem } a n = accessFault s a n := rfl

/-- Settles O12: the load passes the checks because the store did, and each byte it reads is one of the stored ones. -/
theorem loadAfterStoreReadsTheStoredBytes : Obligations.LoadAfterStoreReadsTheStoredBytes := by
  intro s pc pc' a b m n v mem k hwf hstore hb hk hin
  obtain ⟨hfault, rfl⟩ := memWrite_ok.1 hstore
  have hload := accessFault_none_inside hfault hb hk hin
  refine ⟨_, memRead_ok.2 ⟨by rwa [accessFault_with_dmem], rfl⟩, Memory.readLE_lt _ _ n, fun j hj => ?_⟩
  rw [Memory.readLE_bytes _ _ n j hj, hb, Nat.add_assoc]
  exact Memory.read_writeLE_inside (Memory.wf_canonical hwf) _ v (by omega)

end Sys2Proof.Machine
end

section
/-! PROOFS. The decoder and the encoder are inverse to each other (R104): a word is its fields, layout by layout, so both
directions are proved once for each of the seven layouts of R111. At the end, words that match no row (R99). -/

namespace Sys2Proof

/-! ## Slices of a word that a row accepts (R94) -/

/-- Where a row's mask has only ones, the word has the row's bits. -/
theorem extract_bits_of_accepts {r : Row} {w : Word} {start len : Nat} (h : r.accepts w = true)
    (hmask : r.mask.extractLsb' start len = BitVec.allOnes len) :
    r.bits.extractLsb' start len = w.extractLsb' start len := by
  have hbits : w &&& r.mask = r.bits := eq_of_beq h
  rw [← hbits, BitVec.extractLsb'_and, hmask, BitVec.and_allOnes]

theorem mask_fixes_opcode : ∀ r ∈ rows, opcodeOf r.mask = BitVec.allOnes 7 := by decide

theorem mask_fixes_funct3 : ∀ r ∈ rows, r.op.layout ≠ .u → funct3Of r.mask = BitVec.allOnes 3 := by decide

theorem mask_fixes_funct7 :
    ∀ r ∈ rows, r.op.layout = .r ∨ r.op.layout = .iShift → funct7Of r.mask = BitVec.allOnes 7 := by decide

theorem opcodeOf_bits_of_accepts {r : Row} {w : Word} (hr : r ∈ rows) (h : r.accepts w = true) :
    opcodeOf r.bits = opcodeOf w :=
  extract_bits_of_accepts h (mask_fixes_opcode r hr)

/-- Every row fixes a bit to 1, so none accepts the bubble word. -/
theorem ne_zero_of_accepts {r : Row} {w : Word} (hr : r ∈ rows) (h : r.accepts w = true) : w ≠ 0 := by
  have hopcode : ∀ r ∈ rows, opcodeOf r.bits ≠ opcodeOf 0 := by decide
  rintro rfl
  exact hopcode r hr (opcodeOf_bits_of_accepts hr h)

/-! ## The encoder, layout by layout (R82 to R87) -/

/-- The word of a layout: the fixed bits `m` of a row, and the operands of `f`. -/
def encodeFields (lay : Layout) (m : Word) (f : Fields) : Word :=
  match lay with
  | .r => encodeR m f.rd f.rs1 f.rs2
  | .i => encodeI m f.rd f.rs1 f.imm
  | .iShift => encodeShift m f.rd f.rs1 f.imm
  | .l => encodeI m f.rd f.rs1 f.imm
  | .s => encodeS m f.rs1 f.rs2 f.imm
  | .b => encodeB m f.rs1 f.rs2 f.imm
  | .u => encodeU m f.rd f.imm

/-- The immediates a layout has room for (R101). -/
def Layout.fits (lay : Layout) (imm : Word) : Bool :=
  match lay with
  | .r => true
  | .i => fitsImm12 imm
  | .iShift => fitsShamt imm
  | .l => fitsImm12 imm
  | .s => fitsImm12 imm
  | .b => fitsOffset imm
  | .u => fitsUpper imm

/-- The operands of a layout alone: the fixed fields, and what the layout does not have, are 0. -/
def Layout.operands (lay : Layout) (f : Fields) : Fields :=
  match lay with
  | .r => ⟨f.rd, f.rs1, f.rs2, 0, 0, 0⟩
  | .i => ⟨f.rd, f.rs1, 0, 0, 0, f.imm⟩
  | .iShift => ⟨f.rd, f.rs1, 0, 0, 0, f.imm⟩
  | .l => ⟨f.rd, f.rs1, 0, 0, 0, f.imm⟩
  | .s => ⟨0, f.rs1, f.rs2, 0, 0, f.imm⟩
  | .b => ⟨0, f.rs1, f.rs2, 0, 0, f.imm⟩
  | .u => ⟨f.rd, 0, 0, 0, 0, f.imm⟩

/-- The encoder writes each row's instruction in the row's layout, over the row's fixed bits. -/
theorem encodeWord_instr : ∀ r ∈ rows, ∀ f, encodeWord (r.op.instr f) = encodeFields r.op.layout r.bits f := by
  simp only [rows, rowsR, rowsI, rowsL, rowsS, rowsB, rowsU, List.cons_append, List.nil_append, List.forall_mem_cons,
    Op.instr, Op.layout, encodeWord, encodeFields, implies_true, true_and, List.not_mem_nil, false_implies]

theorem instr_wf (op : Op) (f : Fields) : (op.instr f).wf = op.layout.fits f.imm := by cases op <;> rfl

theorem instr_operands (op : Op) (f : Fields) : op.instr (op.layout.operands f) = op.instr f := by cases op <;> rfl

/-- Every instruction is its operation with some fields. -/
theorem exists_eq_instr (i : Instr) : ∃ f, i = i.op.instr f := by
  cases i with
  | add rd rs1 rs2 | sub rd rs1 rs2 | sll rd rs1 rs2 | slt rd rs1 rs2 | sltu rd rs1 rs2 | xor rd rs1 rs2 | srl rd rs1 rs2
  | sra rd rs1 rs2 | or rd rs1 rs2 | and rd rs1 rs2 => exact ⟨⟨rd, rs1, rs2, 0, 0, 0⟩, rfl⟩
  | addi rd rs1 imm | slti rd rs1 imm | sltiu rd rs1 imm | xori rd rs1 imm | ori rd rs1 imm | andi rd rs1 imm
  | slli rd rs1 imm | srli rd rs1 imm | srai rd rs1 imm | lb rd rs1 imm | lh rd rs1 imm | lw rd rs1 imm | lbu rd rs1 imm
  | lhu rd rs1 imm => exact ⟨⟨rd, rs1, 0, 0, 0, imm⟩, rfl⟩
  | sb rs1 rs2 imm | sh rs1 rs2 imm | sw rs1 rs2 imm | beq rs1 rs2 imm | bne rs1 rs2 imm | blt rs1 rs2 imm | bge rs1 rs2 imm
  | bltu rs1 rs2 imm | bgeu rs1 rs2 imm => exact ⟨⟨0, rs1, rs2, 0, 0, imm⟩, rfl⟩
  | lui rd imm | auipc rd imm => exact ⟨⟨rd, 0, 0, 0, 0, imm⟩, rfl⟩

/-! ## Decoding an encoded instruction (R104) -/

open Laws.RowOfWord in
/-- The encoder's word for an instruction is accepted by the row of its operation. -/
theorem exists_row_accepts_encodeWord : ∀ i : Instr, ∃ r ∈ rows, r.op = i.op ∧ r.accepts (encodeWord i) = true
  | .add rd rs1 rs2 => add rd rs1 rs2
  | .sub rd rs1 rs2 => sub rd rs1 rs2
  | .sll rd rs1 rs2 => sll rd rs1 rs2
  | .slt rd rs1 rs2 => slt rd rs1 rs2
  | .sltu rd rs1 rs2 => sltu rd rs1 rs2
  | .xor rd rs1 rs2 => xor rd rs1 rs2
  | .srl rd rs1 rs2 => srl rd rs1 rs2
  | .sra rd rs1 rs2 => sra rd rs1 rs2
  | .or rd rs1 rs2 => or rd rs1 rs2
  | .and rd rs1 rs2 => and rd rs1 rs2
  | .addi rd rs1 imm => addi rd rs1 imm
  | .slti rd rs1 imm => slti rd rs1 imm
  | .sltiu rd rs1 imm => sltiu rd rs1 imm
  | .xori rd rs1 imm => xori rd rs1 imm
  | .ori rd rs1 imm => ori rd rs1 imm
  | .andi rd rs1 imm => andi rd rs1 imm
  | .slli rd rs1 imm => slli rd rs1 imm
  | .srli rd rs1 imm => srli rd rs1 imm
  | .srai rd rs1 imm => srai rd rs1 imm
  | .lb rd rs1 imm => lb rd rs1 imm
  | .lh rd rs1 imm => lh rd rs1 imm
  | .lw rd rs1 imm => lw rd rs1 imm
  | .lbu rd rs1 imm => lbu rd rs1 imm
  | .lhu rd rs1 imm => lhu rd rs1 imm
  | .sb rs1 rs2 imm => sb rs1 rs2 imm
  | .sh rs1 rs2 imm => sh rs1 rs2 imm
  | .sw rs1 rs2 imm => sw rs1 rs2 imm
  | .beq rs1 rs2 imm => beq rs1 rs2 imm
  | .bne rs1 rs2 imm => bne rs1 rs2 imm
  | .blt rs1 rs2 imm => blt rs1 rs2 imm
  | .bge rs1 rs2 imm => bge rs1 rs2 imm
  | .bltu rs1 rs2 imm => bltu rs1 rs2 imm
  | .bgeu rs1 rs2 imm => bgeu rs1 rs2 imm
  | .lui rd imm => lui rd imm
  | .auipc rd imm => auipc rd imm

/-- The decoder reads from a layout's word the operands the encoder wrote in it, provided they fit. -/
theorem operands_fieldsOf_encodeFields {lay : Layout} (m : Word) {f : Fields} (h : lay.fits f.imm = true) :
    lay.operands (fieldsOf lay (encodeFields lay m f)) = lay.operands f := by
  cases lay with
  | r => simp only [Layout.operands, fieldsOf, encodeFields, encodeR_rd, encodeR_rs1, encodeR_rs2]
  | i | l => simp only [Layout.operands, fieldsOf, encodeFields, encodeI_rd, encodeI_rs1, encodeI_imm m _ _ _ h]
  | iShift =>
    have hrd : rdOf (encodeShift m f.rd f.rs1 f.imm) = f.rd := encodeR_rd m _ _ _
    have hrs1 : rs1Of (encodeShift m f.rd f.rs1 f.imm) = f.rs1 := encodeR_rs1 m _ _ _
    simp only [Layout.operands, fieldsOf, encodeFields, hrd, hrs1, encodeShift_imm m _ _ _ h]
  | s => simp only [Layout.operands, fieldsOf, encodeFields, encodeS_rs1, encodeS_rs2, encodeS_imm m _ _ _ h]
  | b => simp only [Layout.operands, fieldsOf, encodeFields, encodeB_rs1, encodeB_rs2, encodeB_imm m _ _ _ h]
  | u => simp only [Layout.operands, fieldsOf, encodeFields, encodeU_rd, encodeU_imm m _ _ h]

theorem instr_fieldsOf_encodeWord {r : Row} (hr : r ∈ rows) {f : Fields} (hwf : (r.op.instr f).wf = true) :
    r.op.instr (fieldsOf r.op.layout (encodeWord (r.op.instr f))) = r.op.instr f := by
  rw [instr_wf] at hwf
  rw [encodeWord_instr r hr, ← instr_operands, operands_fieldsOf_encodeFields r.bits hwf, instr_operands]

theorem encode_of_wf {i : Instr} (hwf : i.wf = true) : encode i = some (encodeWord i) := if_pos hwf

theorem admits_of_op {sub : Subset} {r : Row} (hr : r ∈ rows) (h : sub = .full ∨ r.op ∈ Machine.coreOps) :
    sub.admits r = true := by
  cases sub with
  | full => rfl
  | core => exact (core_admits_iff_op_mem_coreOps r hr).2 (h.resolve_left nofun)

/-- Settles O1: the row of the instruction's operation accepts its word, and the fields the decoder reads there are the operands
the encoder wrote. -/
theorem decodeInvertsEncode : Obligations.DecodeInvertsEncode := by
  intro sub i hsub hwf
  obtain ⟨r, hr, hop, hacc⟩ := exists_row_accepts_encodeWord i
  obtain ⟨f, hi⟩ := exists_eq_instr i
  rw [← hop] at hi hsub
  have hback : i = r.op.instr (fieldsOf r.op.layout (encodeWord i)) := by
    rw [hi] at hwf ⊢
    exact (instr_fieldsOf_encodeWord hr hwf).symm
  exact ⟨encodeWord i, encode_of_wf hwf,
    decode_eq_ok_iff.2 ⟨ne_zero_of_accepts hr hacc, r, hr, admits_of_op hr hsub, hacc, hback⟩⟩

/-! ## The decoded immediates fit their fields (R101) -/

theorem fitsImm12_signExtend (x : BitVec 12) : fitsImm12 (x.signExtend 32) = true := by
  have hlow : -2048 ≤ x.toInt := x.le_toInt
  have hhigh : x.toInt < 2048 := x.toInt_lt
  rw [fitsImm12, BitVec.toInt_signExtend_of_le (by decide), decide_eq_true_eq]
  omega

theorem toNat_append_zeros {n : Nat} (x : BitVec n) (k : Nat) : (x ++ 0#k).toNat = x.toNat * 2 ^ k := by
  simp [BitVec.toNat_append, Nat.shiftLeft_eq]

theorem fitsOffset_signExtend (x : BitVec 12) : fitsOffset ((x ++ 0#1).signExtend 32) = true := by
  have hlow : -4096 ≤ (x ++ 0#1).toInt := (x ++ 0#1).le_toInt
  have hhigh : (x ++ 0#1).toInt < 4096 := (x ++ 0#1).toInt_lt
  have heven : (x ++ 0#1).toNat = x.toNat * 2 := toNat_append_zeros x 1
  have hmod : (x ++ 0#1).toInt % 2 = 0 := by
    rw [BitVec.toInt_eq_toNat_cond, heven]
    split <;> omega
  rw [fitsOffset, BitVec.toInt_signExtend_of_le (by decide), decide_eq_true_eq]
  omega

theorem fitsUpper_append (x : BitVec 20) : fitsUpper (x ++ 0#12) = true := by
  have h : (x ++ 0#12).toNat = x.toNat * 4096 := toNat_append_zeros x 12
  rw [fitsUpper, decide_eq_true_eq, h]
  exact Nat.mul_mod_left _ _

theorem fitsShamt_setWidth (x : BitVec 5) : fitsShamt (x.setWidth 32) = true := by
  have h : x.toNat < 32 := x.isLt
  rw [fitsShamt, decide_eq_true_eq, BitVec.toNat_setWidth]
  omega

theorem fits_fieldsOf (lay : Layout) (w : Word) : lay.fits (fieldsOf lay w).imm = true := by
  cases lay with
  | r => rfl
  | i | l | s => exact fitsImm12_signExtend _
  | iShift => exact fitsShamt_setWidth _
  | b => exact fitsOffset_signExtend _
  | u => exact fitsUpper_append _

/-! ## Encoding a decoded word: a word is its slices -/

/-- Sign extension keeps the bits that were there. -/
theorem extract_signExtend {n v s l : Nat} (x : BitVec n) (h : s + l ≤ n) (hv : n ≤ v) :
    (x.signExtend v).extractLsb' s l = x.extractLsb' s l := by
  ext k hk
  have hin : s + k < n := by omega
  simp [BitVec.getElem_signExtend, hin, show s + k < v by omega]

theorem encodeR_slices {m w : Word} (hopcode : opcodeOf m = opcodeOf w) (hfunct3 : funct3Of m = funct3Of w)
    (hfunct7 : funct7Of m = funct7Of w) : encodeR m (rdOf w) (rs1Of w) (rs2Of w) = w := by
  rw [encodeR, hopcode, hfunct3, hfunct7]
  simp (disch := decide) only [funct7Of, rs2Of, rs1Of, funct3Of, rdOf, opcodeOf,
    BitVec.extractLsb'_append_extractLsb'_eq_extractLsb']
  exact extract_all w

theorem encodeI_slices {m w : Word} (hopcode : opcodeOf m = opcodeOf w) (hfunct3 : funct3Of m = funct3Of w) :
    encodeI m (rdOf w) (rs1Of w) (immI w) = w := by
  have himm : (immI w).extractLsb' 0 12 = w.extractLsb' 20 12 := by
    rw [immI, extract_signExtend _ (by decide) (by decide), extract_all]
  rw [encodeI, hopcode, hfunct3, himm]
  simp (disch := decide) only [rs1Of, funct3Of, rdOf, opcodeOf, BitVec.extractLsb'_append_extractLsb'_eq_extractLsb']
  exact extract_all w

theorem encodeShift_slices {m w : Word} (hopcode : opcodeOf m = opcodeOf w) (hfunct3 : funct3Of m = funct3Of w)
    (hfunct7 : funct7Of m = funct7Of w) : encodeShift m (rdOf w) (rs1Of w) (immShamt w) = w := by
  have himm : (immShamt w).extractLsb' 0 5 = rs2Of w := by
    rw [immShamt, BitVec.extractLsb'_setWidth_of_le (by decide), extract_all, rs2Of]
  rw [encodeShift, himm]
  exact encodeR_slices hopcode hfunct3 hfunct7

theorem encodeS_slices {m w : Word} (hopcode : opcodeOf m = opcodeOf w) (hfunct3 : funct3Of m = funct3Of w) :
    encodeS m (rs1Of w) (rs2Of w) (immS w) = w := by
  have hhigh : (immS w).extractLsb' 5 7 = w.extractLsb' 25 7 := by
    rw [immS, extract_signExtend _ (by decide) (by decide), extract_append_high _ _ _ _ (by decide), extract_all]
  have hlow : (immS w).extractLsb' 0 5 = w.extractLsb' 7 5 := by
    rw [immS, extract_signExtend _ (by decide) (by decide), extract_append_low _ _ _ _ (by decide), extract_all]
  rw [encodeS, hopcode, hfunct3, hhigh, hlow]
  simp (disch := decide) only [rs2Of, rs1Of, funct3Of, opcodeOf, BitVec.extractLsb'_append_extractLsb'_eq_extractLsb']
  exact extract_all w

/-- The four pieces of a branch offset, where the encoder reads them (R86, R90). -/
theorem immB_pieces (w : Word) :
    (immB w).extractLsb' 12 1 = w.extractLsb' 31 1 ∧ (immB w).extractLsb' 11 1 = w.extractLsb' 7 1 ∧
      (immB w).extractLsb' 5 6 = w.extractLsb' 25 6 ∧ (immB w).extractLsb' 1 4 = w.extractLsb' 8 4 := by
  simp (disch := decide) only [immB, extract_signExtend, extract_append_high, extract_append_low, Nat.reduceSub, extract_all,
    and_self]

theorem encodeB_slices {m w : Word} (hopcode : opcodeOf m = opcodeOf w) (hfunct3 : funct3Of m = funct3Of w) :
    encodeB m (rs1Of w) (rs2Of w) (immB w) = w := by
  obtain ⟨h12, h11, h5, h1⟩ := immB_pieces w
  rw [encodeB, hopcode, hfunct3, h12, h11, h5, h1]
  simp (disch := decide) only [rs2Of, rs1Of, funct3Of, opcodeOf, BitVec.extractLsb'_append_extractLsb'_eq_extractLsb']
  exact extract_all w

theorem encodeU_slices {m w : Word} (hopcode : opcodeOf m = opcodeOf w) : encodeU m (rdOf w) (immU w) = w := by
  have himm : (immU w).extractLsb' 12 20 = w.extractLsb' 12 20 := by
    rw [immU, extract_append_high _ _ _ _ (by decide), extract_all]
  rw [encodeU, hopcode, himm]
  simp (disch := decide) only [rdOf, opcodeOf, BitVec.extractLsb'_append_extractLsb'_eq_extractLsb']
  exact extract_all w

/-- Encoding what a layout reads from a word gives the word back, when the fixed fields the layout has are the word's. -/
theorem encodeFields_fieldsOf {lay : Layout} {m w : Word} (hopcode : opcodeOf m = opcodeOf w)
    (hfunct3 : lay ≠ .u → funct3Of m = funct3Of w)
    (hfunct7 : lay = .r ∨ lay = .iShift → funct7Of m = funct7Of w) :
    encodeFields lay m (fieldsOf lay w) = w := by
  cases lay with
  | r => exact encodeR_slices hopcode (hfunct3 nofun) (hfunct7 (.inl rfl))
  | i | l => exact encodeI_slices hopcode (hfunct3 nofun)
  | iShift => exact encodeShift_slices hopcode (hfunct3 nofun) (hfunct7 (.inr rfl))
  | s => exact encodeS_slices hopcode (hfunct3 nofun)
  | b => exact encodeB_slices hopcode (hfunct3 nofun)
  | u => exact encodeU_slices hopcode

/-- Settles O2: the immediates the decoder builds fit their fields, and every bit of the word is a fixed bit of its row or in an
operand the encoder writes back. -/
theorem encodeInvertsDecode : Obligations.EncodeInvertsDecode := by
  intro sub w i h
  obtain ⟨-, r, hr, -, hacc, rfl⟩ := decode_eq_ok_iff.1 h
  have hwf : (r.op.instr (fieldsOf r.op.layout w)).wf = true := by rw [instr_wf, fits_fieldsOf]
  have hword : encodeFields r.op.layout r.bits (fieldsOf r.op.layout w) = w :=
    encodeFields_fieldsOf (opcodeOf_bits_of_accepts hr hacc)
      (fun hlay => extract_bits_of_accepts hacc (mask_fixes_funct3 r hr hlay))
      (fun hlay => extract_bits_of_accepts hacc (mask_fixes_funct7 r hr hlay))
  exact ⟨hwf, by rw [encode_of_wf hwf, encodeWord_instr r hr, hword]⟩

/-! ## The rows are pairwise disjoint (R94, R97) -/

/-- Settles O3: two rows that accept one word agree where both masks fix a bit, which two different rows do not. -/
theorem noWordMatchesTwoRows : Obligations.NoWordMatchesTwoRows :=
  ⟨rfl, fun _ _ _ => row_eq_of_accepts⟩

/-! ## Words that match no row (R96, R99) -/

/-- The opcodes of R94's rows. -/
def presentOpcodes : List (BitVec 7) := [0x33, 0x13, 0x03, 0x23, 0x63, 0x37, 0x17]

theorem opcodeOf_mem_presentOpcodes {r : Row} {w : Word} (hr : r ∈ rows) (h : r.accepts w = true) :
    opcodeOf w ∈ presentOpcodes := by
  have hrows : ∀ r ∈ rows, opcodeOf r.bits ∈ presentOpcodes := by decide
  rw [← opcodeOf_bits_of_accepts hr h]
  exact hrows r hr

/-- The register-register rows have funct7 0 or 0x20 (R82), never that of the M extension. -/
theorem funct7Of_ne_one {r : Row} {w : Word} (hr : r ∈ rows) (h : r.accepts w = true) (hopcode : opcodeOf w = 0x33) :
    funct7Of w ≠ 1 := by
  have hrows : ∀ r ∈ rows, opcodeOf r.bits = 0x33 → r.op.layout = .r ∧ funct7Of r.bits ≠ 1 := by decide
  rw [← opcodeOf_bits_of_accepts hr h] at hopcode
  obtain ⟨hlay, hne⟩ := hrows r hr hopcode
  have hfunct7 : funct7Of r.bits = funct7Of w := extract_bits_of_accepts h (mask_fixes_funct7 r hr (.inl hlay))
  rwa [← hfunct7]

/-- The low two bits of an instruction are those of its opcode: 11 in every row (R81). -/
theorem lowBits_of_mem_presentOpcodes {w : Word} (h : opcodeOf w ∈ presentOpcodes) : w.extractLsb' 0 2 = 3#2 := by
  have hpresent : ∀ o ∈ presentOpcodes, o.extractLsb' 0 2 = 3#2 := by decide
  have hlow : (opcodeOf w).extractLsb' 0 2 = w.extractLsb' 0 2 := BitVec.extractLsb'_extractLsb'_of_le (by decide)
  rw [← hlow]
  exact hpresent _ h

theorem decode_unrecognized_of_no_row {sub : Subset} {w : Word} (hw : w ≠ 0) (h : ∀ r ∈ rows, r.accepts w ≠ true) :
    decode sub w = .error .unrecognized := by
  have hnone : matchRow sub w = none := List.find?_eq_none.2 fun r hr => by simp [h r hr]
  rw [decode, if_neg hw, hnone]

/-- Settles O5: a word some row accepts has one of the seven opcodes of R94, and those of opcode 0x33 fix funct7. -/
theorem absentFamiliesAreUnrecognized : Obligations.AbsentFamiliesAreUnrecognized := by
  intro sub w hw habsent
  refine decode_unrecognized_of_no_row hw fun r hr hacc => ?_
  have hpresent := opcodeOf_mem_presentOpcodes hr hacc
  obtain hfamily | hrange | ⟨hopcode, hM⟩ | hlow := habsent
  · have hdisjoint : ∀ o ∈ presentOpcodes,
        o ∉ [0x6F#7, 0x67#7, 0x0F#7, 0x73#7, 0x2F#7, 0x07#7, 0x27#7, 0x0B#7, 0x2B#7, 0x5B#7, 0x7B#7] := by decide
    exact hdisjoint _ hpresent hfamily
  · have hout : ∀ o ∈ presentOpcodes, ¬(0x43 ≤ o.toNat ∧ o.toNat ≤ 0x53) := by decide
    exact hout _ hpresent hrange
  · exact funct7Of_ne_one hr hacc hopcode hM
  · exact hlow (lowBits_of_mem_presentOpcodes hpresent)

/-! ## Written-out words (R82 to R87) -/

/-- Settles O6: each word is closed, so the decoder runs on it. -/
theorem writtenOutWordsDecode : Obligations.WrittenOutWordsDecode :=
  ⟨by decide, by decide, by decide, by decide, by decide, by decide, by decide⟩

end Sys2Proof
end

section
/-! PROOFS. What the decoder puts in a stage register, format by format (R111, R113 to R115), and the cycle in which a decoded
instruction is in execute: in any pipeline it completes on its forwarded operands (R117, R217). -/

namespace Sys2Proof.Machine

/-! ## The decoder's stage register (R110, R111) -/

/-- The decoder gives a stage register exactly for a word that an admitted row accepts, and then no diagnostic. -/
theorem decodeStage_eq_some_iff {sub : Subset} {w pc : Word} {d : Stage} {dg : Bool} :
    decodeStage sub w pc = (some d, dg) ↔
      dg = false ∧ ∃ r ∈ rows, sub.admits r = true ∧ r.accepts w = true ∧ d = stageOf r.op pc w := by
  constructor
  · intro h
    obtain ⟨hw, r, hm, rfl⟩ := decodeStage_some (congrArg Prod.fst h)
    obtain ⟨hr, hadm, hacc⟩ := matchRow_spec hm
    rw [decodeStage, if_neg hw, hm] at h
    exact ⟨(congrArg Prod.snd h).symm, r, hr, hadm, hacc, rfl⟩
  · rintro ⟨rfl, r, hr, hadm, hacc, rfl⟩
    rw [decodeStage, if_neg (ne_zero_of_accepts hr hacc), matchRow_eq_some_iff.2 ⟨hr, hadm, hacc⟩]

/-- The operations of each layout (R93). -/
def opsOf : Layout → List Op
  | .r => [.add, .sub, .sll, .slt, .sltu, .xor, .srl, .sra, .or, .and]
  | .i => [.addi, .slti, .sltiu, .xori, .ori, .andi]
  | .iShift => [.slli, .srli, .srai]
  | .l => [.lb, .lh, .lw, .lbu, .lhu]
  | .s => [.sb, .sh, .sw]
  | .b => [.beq, .bne, .blt, .bge, .bltu, .bgeu]
  | .u => [.lui, .auipc]

theorem mem_opsOf_layout (op : Op) : op ∈ opsOf op.layout := by cases op <;> decide

/-- Settles O7: the stage register is its row's, and each of the seven layouts of R111 reads its own bits of the word. -/
theorem decodedStageFollowsItsFormat : Obligations.DecodedStageFollowsItsFormat := by
  intro sub w pc d dg h
  obtain ⟨rfl, r, hr, hadm, hacc, rfl⟩ := decodeStage_eq_some_iff.1 h
  refine ⟨⟨r, hr, hadm, hacc, rfl⟩, rfl, rfl, rfl, rfl, rfl, rfl, rfl, rfl, ?_⟩
  have hop : r.op ∈ opsOf r.op.layout := mem_opsOf_layout r.op
  cases hlay : r.op.layout <;> rw [hlay] at hop <;> simp only [stageOf, hlay]
  case r | l | s | b | u => exact ⟨hop, ⟨rfl, rfl, rfl, rfl, rfl, rfl⟩, rfl, rfl, rfl⟩
  case i => exact ⟨rfl, rfl, rfl, .inl ⟨hop, rfl, rfl, rfl, rfl, rfl, rfl⟩⟩
  case iShift => exact ⟨rfl, rfl, rfl, .inr ⟨hop, rfl, rfl, rfl, rfl, rfl, rfl⟩⟩

/-! ## Destinations and sources (R115) -/

/-- The low bits of a store's immediate are those where other formats have rd (R85, R89). -/
theorem immS_low (w : Word) : (immS w).extractLsb' 0 5 = w.extractLsb' 7 5 := by
  rw [immS, extract_signExtend _ (by decide) (by decide), extract_append_low _ _ _ _ (by decide), extract_all]

theorem writesReg_of_no_regWrite {d : Stage} (h : d.ctrl.regWrite = false) (r : RegIx) : writesReg (some d) r = false := by
  simp [writesReg, h]

theorem hazard_of_no_destination {d : Stage} (h : d.rd = 0) (c : Option Stage) : hazard c (some d) = false := by
  cases c with
  | none => rfl
  | some c => simp [hazard, h]

theorem hazard_of_no_source {c : Stage} (h1 : c.uses1 = false) (h2 : c.uses2 = false) (x : Option Stage) :
    hazard (some c) x = false := by
  cases x with
  | none => rfl
  | some x => simp [hazard, h1, h2]

/-- Settles O8, from the fields, the control signals and the uses that each format has by O7. -/
theorem destinationsAndSourcesByFormat : Obligations.DestinationsAndSourcesByFormat := by
  intro sub w pc d dg h
  obtain ⟨-, -, -, -, -, -, -, -, -, hfmt⟩ := decodedStageFollowsItsFormat sub w pc d dg h
  refine ⟨?destination, ?storeBits, ?branchBits, ?sources⟩
  case destination =>
    rintro (hs | hs) <;>
    · rw [hs] at hfmt
      obtain ⟨-, ⟨hrd, -⟩, hctrl, -⟩ := hfmt
      have hwrite : d.ctrl.regWrite = false := by rw [hctrl]
      exact ⟨hrd, hwrite, writesReg_of_no_regWrite hwrite, hazard_of_no_destination hrd⟩
  case storeBits =>
    intro hs
    rw [hs] at hfmt
    obtain ⟨-, ⟨-, -, -, -, -, himm⟩, -⟩ := hfmt
    rw [himm]
    exact immS_low w
  case branchBits =>
    intro hb
    rw [hb] at hfmt
    obtain ⟨-, ⟨-, -, -, -, -, himm⟩, -⟩ := hfmt
    obtain ⟨-, h11, -, h1⟩ := immB_pieces w
    rw [himm]
    exact ⟨h1, h11⟩
  case sources =>
    intro hu
    rw [hu] at hfmt
    obtain ⟨-, -, -, huses1, huses2⟩ := hfmt
    exact ⟨fun e m => ⟨forwardTag_none.2 (.inl huses1), forwardTag_none.2 (.inl huses2)⟩,
      hazard_of_no_source huses1 huses2⟩

/-! ## The execute cycle in any pipeline (R117, R214, R217) -/

/-- What EX forwarding delivers (R214). -/
theorem exValue_eq_getD (s : State) : exValue s = (s.exmem.map fun e => e.alu).getD 0 := by
  unfold exValue
  cases s.exmem <;> rfl

/-- What MEM forwarding delivers (R34, R214). -/
theorem memValue_eq_getD (s : State) :
    memValue s = (s.memwb.map fun w => if w.ctrl.memToReg then w.mdata else w.alu).getD 0 := by
  unfold memValue
  cases s.memwb <;> rfl

theorem operand_unused (s : State) (tag : Tag) (r : RegIx) : operand s false tag r = 0 := rfl
theorem operand_tag_ex (s : State) (r : RegIx) : operand s true .ex r = exValue s := rfl
theorem operand_tag_mem (s : State) (r : RegIx) : operand s true .mem r = memValue s := rfl
theorem operand_tag_none (s : State) (r : RegIx) : operand s true .none r = Regs.read (writeback s) r := rfl

/-- The execute step stops on nothing but the bad target of a taken branch (R200). -/
theorem executed_answers {s : State} (hgood : ∀ target, takenTarget s = some target → goodTarget s.params target) :
    ∃ x, executed s = .ok x := by
  cases hx : executed s with
  | ok x => exact ⟨x, rfl⟩
  | error e =>
    obtain ⟨-, target, -, htaken, hbad, -⟩ := executed_error hx
    exact absurd (hgood target htaken) hbad

/-- With `pc` in the program there is a word to fetch or nothing to fetch, so the front end never stops (R27, R51). -/
theorem frontEnd_answers {s : State} (hi : invariantsHold s = true) (c : Nat) (k : Decision) :
    ∃ f, frontEnd s c k = .ok f := by
  cases hf : frontEnd s c k with
  | ok f => exact ⟨f, rfl⟩
  | error e =>
    obtain ⟨-, -, hlt, hnone⟩ := frontEnd_error hf
    obtain ⟨⟨haligned, -⟩, -⟩ := goodTarget_and_exTag_of_invariantsHold hi
    obtain ⟨w, hw⟩ := fetchWord_defined haligned hlt
    rw [hw] at hnone
    cases hnone

/-- Settles O57: the execute step and the front end answer, so the cycle completes, with the values the execute step computes. -/
theorem everyInstructionCompletesInAnyPipeline : Obligations.EveryInstructionCompletesInAnyPipeline := by
  rintro _ s d m hd hdec rfl hm hi hgood opnd a b
  have hopnd : ∀ uses tag r, operand s uses tag r = opnd uses tag r := by
    intro uses tag r
    cases uses with
    | false => exact operand_unused s tag r
    | true =>
      cases tag with
      | ex => exact (operand_tag_ex s r).trans (exValue_eq_getD s)
      | mem => exact (operand_tag_mem s r).trans (memValue_eq_getD s)
      | none => exact operand_tag_none s r
  have ha : operand1 s d = a := hopnd d.uses1 d.tag1 d.rs1
  have hb : operand2 s d = b := hopnd d.uses2 d.tag2 d.rs2
  obtain ⟨x, hx⟩ := executed_answers hgood
  obtain ⟨f, hf⟩ := frontEnd_answers hi (s.cycle + 1) (decisionOf s x.target)
  have hstep : executeStep s d = .ok x := by simpa only [executed, hd] using hx
  have hexmem := executeStep_values hdec hstep
  rw [ha, hb] at hexmem
  refine ⟨completeCycle s m.1 m.2 x.exmem f, ?_, rfl, rfl, hexmem, rfl, rfl, rfl⟩
  rw [exec_instr hd, hstep]
  exact cycle_complete hi hm hf

end Sys2Proof.Machine
end

section
/-! PROOFS. An instruction alone in the pipeline: the cycles in which nothing is left to fetch, and from them the retirement of
an instruction that only writes its destination, in particular of every register-register instruction (R130). -/

namespace Sys2Proof.Machine

/-! ## Cycles with nothing left to fetch (R228, R229) -/

/-- The run goes on, IF/ID is a bubble, and `pc` is past the last instruction. -/
def draining (s : State) : Prop :=
  s.status = .running ∧ invariantsHold s = true ∧ s.ifid = none ∧ s.params.progEnd ≤ s.pc.toNat

/-- The state after a cycle with nothing left to fetch: memory step `m`, and `e` from execute into EX/MEM. -/
def drainCycle (s : State) (m : Option Stage × Memory) (e : Option Stage) : State :=
  completeCycle s m.1 m.2 e ⟨s.pc, none, none, []⟩

theorem candidate_of_no_ifid {s : State} (h : s.ifid = none) : candidate s = (none, false) := by
  unfold candidate; rw [h]

theorem diagOf_of_no_ifid {s : State} (h : s.ifid = none) (c : Nat) : diagOf s c = [] := by
  unfold diagOf; rw [h]

theorem decisionOf_of_no_ifid {s : State} (h : s.ifid = none) : decisionOf s none = .normal :=
  decisionOf_normal.2 ⟨rfl, by rw [candidate_of_no_ifid h, hazard_none_left]⟩

/-- Past the last instruction fetch answers a bubble and `pc` stays (R229). -/
theorem frontEnd_of_draining {s : State} (h : draining s) (c : Nat) :
    frontEnd s c .normal = .ok ⟨s.pc, none, none, []⟩ := by
  obtain ⟨-, -, hif, hend⟩ := h
  refine frontEnd_normal.2 ⟨(s.pc, none), fetchStep_ok.2 (.inl ⟨hend, rfl⟩), ?_⟩
  rw [candidate_of_no_ifid hif, diagOf_of_no_ifid hif]

/-- With nothing left to fetch, a cycle that takes no branch ends in `drainCycle`. -/
theorem cycle_of_draining {s : State} {m : Option Stage × Memory} {x : Executed} (h : draining s)
    (hm : memoryStep s = .ok m) (hx : x.target = none) : cycle s (.ok x) = .next (drainCycle s m x.exmem) := by
  have hfront : frontEnd s (s.cycle + 1) .normal = .ok ⟨s.pc, none, none, []⟩ := frontEnd_of_draining h _
  obtain ⟨-, hinv, hif, -⟩ := h
  refine cycle_complete hinv hm ?_
  rw [hx, decisionOf_of_no_ifid hif]
  exact hfront

theorem writeback_entry_zero (s : State) : (writeback s)[0] = s.x[0] := by
  unfold writeback
  cases s.memwb with
  | none => rfl
  | some d =>
    dsimp only
    split
    · exact Regs.write_entry_zero s.x d.rd (wbval d)
    · rfl

theorem writeback_of_no_memwb {s : State} (h : s.memwb = none) : writeback s = s.x := by
  unfold writeback; rw [h]

/-- The next state has nothing left to fetch either. -/
theorem draining_drainCycle {s : State} (h : draining s) (m : Option Stage × Memory) (e : Option Stage) :
    draining (drainCycle s m e) := by
  obtain ⟨hrun, hinv, -, hend⟩ := h
  obtain ⟨hzero, hpc, -, -⟩ := invariantsHold_iff.1 hinv
  refine ⟨hrun, invariantsHold_iff.2 ⟨(writeback_entry_zero s).trans hzero, hpc, ?_, ?_⟩, rfl, hend⟩
  · intro f hf; cases hf
  · intro d _ hd; cases hd

/-- A step in which EX/MEM or MEM/WB is occupied and ID/EX is a bubble: the pipeline drains by one stage. -/
theorem step_of_draining {s : State} {m : Option Stage × Memory} (h : draining s) (hid : s.idex = none)
    (hbusy : s.exmem ≠ none ∨ s.memwb ≠ none) (hcap : s.cycle < s.params.cycleCap) (hm : memoryStep s = .ok m) :
    step s = .next (drainCycle s m none) := by
  have hunfinished : finished s = false := by
    refine Bool.eq_false_of_not_eq_true fun hfin => ?_
    obtain ⟨-, -, -, hex, hwb⟩ := finished_iff.1 hfin
    exact hbusy.elim (· hex) (· hwb)
  have hbubble : executed s = .ok ⟨none, none⟩ := by unfold executed; rw [hid]
  have hcycle : cycle s (executed s) = .next (drainCycle s m none) := by
    rw [hbubble]; exact cycle_of_draining h hm rfl
  obtain ⟨hrun, -⟩ := h
  rw [step_cycle hrun hunfinished hcap, hcycle]

/-! ## An instruction that only writes its destination -/

/-- An instruction that is neither a load nor a store leaves the data memory alone (R216). -/
theorem memoryStep_of_no_access {s : State} {e : Stage} (he : s.exmem = some e) (hr : e.ctrl.memRead = false)
    (hw : e.ctrl.memWrite = false) : memoryStep s = .ok (some { e with mdata := 0 }, s.dmem) :=
  (memoryStep_some he).2 ⟨0, s.dmem, memData_of_no_read hr, memAfter_of_no_write hw, rfl⟩

theorem takenTarget_of_no_branch {s : State} {d : Stage} (hd : s.idex = some d) (hb : d.ctrl.branch = false) :
    takenTarget s = none := by
  unfold takenTarget
  simp [hd, hb]

/-- What execute puts in EX/MEM for the decoded instruction `d`: its result and its store data on its two operands. -/
def executedStage (s : State) (d : Stage) : Stage :=
  { d with
    alu := executeAlu d.instr d.pc (operand1 s d) (operand2 s d)
    sdata := executeSdata d.op (operand2 s d) }

/-- Execute answers for an instruction that is no branch, and takes no target (R217). -/
theorem executeStep_of_no_branch {s : State} {d : Stage} (hd : s.idex = some d)
    (hdec : decodedStage s.params.subset d = true) (hb : d.ctrl.branch = false) :
    executeStep s d = .ok ⟨some (executedStage s d), none⟩ := by
  have hnot : takenTarget s = none := takenTarget_of_no_branch hd hb
  obtain ⟨⟨exmem, target⟩, hx⟩ := executed_answers (s := s) fun t ht => by rw [hnot] at ht; cases ht
  obtain rfl : target = none := (executed_target hx).1.trans hnot
  have hstep : executeStep s d = .ok ⟨exmem, none⟩ := by simpa only [executed, hd] using hx
  obtain rfl : exmem = some (executedStage s d) := executeStep_values hdec hstep
  exact hstep

/-- After the execute cycle of an instruction alone in ID/EX: its result is in EX/MEM. -/
def afterExecute (s : State) (d : Stage) : State :=
  drainCycle s (none, s.dmem) (some (executedStage s d))

/-- After its memory cycle: its result is in MEM/WB. -/
def afterMemory (s : State) (d : Stage) : State :=
  drainCycle (afterExecute s d) (some { executedStage s d with mdata := 0 }, s.dmem) none

/-- After its writeback cycle: its result is in its register, and the pipeline is empty. -/
def afterWriteback (s : State) (d : Stage) : State :=
  drainCycle (afterMemory s d) (none, s.dmem) none

/-- The execute, memory and writeback cycles of an instruction alone that neither accesses memory nor branches. -/
theorem alone_cycles {s : State} {i : Instr} {d : Stage} (h : alone s i d) (hb : d.ctrl.branch = false)
    (hr : d.ctrl.memRead = false) (hw : d.ctrl.memWrite = false) :
    exec i s = .next (afterExecute s d) ∧ step (afterExecute s d) = .next (afterMemory s d) ∧
      step (afterMemory s d) = .next (afterWriteback s d) := by
  obtain ⟨hrun, hinv, hif, hid, hex, -, hend, hcap, hdec, rfl, -, -⟩ := h
  have hs : draining s := ⟨hrun, hinv, hif, hend⟩
  have hs₁ : draining (afterExecute s d) := draining_drainCycle hs _ _
  have hs₂ : draining (afterMemory s d) := draining_drainCycle hs₁ _ _
  refine ⟨?execute, ?memory, ?writeback⟩
  case execute =>
    rw [exec_instr hid, executeStep_of_no_branch hid hdec hb]
    exact cycle_of_draining hs (memoryStep_none hex) rfl
  case memory =>
    have hlt : (afterExecute s d).cycle < s.params.cycleCap := show s.cycle + 1 < _ by omega
    exact step_of_draining hs₁ rfl (.inl nofun) hlt (memoryStep_of_no_access rfl hr hw)
  case writeback =>
    have hlt : (afterMemory s d).cycle < s.params.cycleCap := show s.cycle + 2 < _ by omega
    exact step_of_draining hs₂ rfl (.inr nofun) hlt (memoryStep_none rfl)

theorem drainedAfter_afterWriteback {s : State} (d : Stage) (hrun : s.status = .running) :
    drainedAfter s (afterWriteback s d) := by
  have hdiags : (afterWriteback s d).diags = s.diags := by
    simp [afterWriteback, afterMemory, afterExecute, drainCycle]
  exact ⟨hrun, rfl, rfl, hdiags, rfl, rfl, rfl, rfl, rfl⟩

theorem writesReg_iff_of_regWrite {d : Stage} (h : d.ctrl.regWrite = true) (r : RegIx) :
    writesReg (some d) r = true ↔ r = d.rd ∧ r ≠ 0 := by
  rw [writesReg_some]
  constructor
  · rintro ⟨-, hne, rfl⟩; exact ⟨rfl, hne⟩
  · rintro ⟨rfl, hne⟩; exact ⟨h, hne, rfl⟩

/-- Writeback is the one register write of the three cycles: MEM/WB is a bubble in the first two (R212). -/
theorem read_afterWriteback {s : State} {d : Stage} (hwb : s.memwb = none) (hw : d.ctrl.regWrite = true)
    (hm : d.ctrl.memToReg = false) (r : RegIx) : Regs.read (afterWriteback s d).x r =
      if r = d.rd ∧ r ≠ 0 then (executedStage s d).alu else Regs.read s.x r := by
  have hregs : (afterMemory s d).x = s.x :=
    calc writeback (afterExecute s d)
      _ = writeback s := writeback_of_no_memwb rfl
      _ = s.x := writeback_of_no_memwb hwb
  have hvalue : memValue (afterMemory s d) = (executedStage s d).alu :=
    if_neg (Bool.eq_false_iff.1 hm)
  calc Regs.read (writeback (afterMemory s d)) r
    _ = if writesReg (afterMemory s d).memwb r = true then memValue (afterMemory s d)
          else Regs.read (afterMemory s d).x r := read_writeback _ r
    _ = if r = d.rd ∧ r ≠ 0 then (executedStage s d).alu else Regs.read s.x r := by
      rw [hvalue, hregs]
      exact if_congr (writesReg_iff_of_regWrite hw r) rfl rfl

/-- An instruction alone in the pipeline that writes a register, and neither accesses memory nor branches, retires with the
result of its execute step. -/
theorem retiresTo_of_alone {s : State} {i : Instr} {d : Stage} {src : Bool} (h : alone s i d)
    (hctrl : d.ctrl = ⟨true, src, false, false, false, false⟩) :
    retiresTo s i (executedStage s d).alu (executedStage s d).sdata d.rd (executedStage s d).alu := by
  obtain ⟨hexecute, hmemory, hwriteback⟩ := alone_cycles h (by rw [hctrl]) (by rw [hctrl]) (by rw [hctrl])
  obtain ⟨hrun, -, -, -, -, hwb, -⟩ := h
  exact ⟨_, _, _, hexecute, hmemory, hwriteback, ⟨executedStage s d, rfl, rfl, rfl⟩,
    read_afterWriteback hwb (by rw [hctrl]) (by rw [hctrl]), fun _ => rfl, drainedAfter_afterWriteback d hrun⟩

/-! ## The register-register instructions (R130 to R140) -/

/-- A register-register instruction determines its operation and its three registers (R82). -/
theorem op_instr_inj_register {op op' : Op} {f f' : Fields} (hlay : op.layout = .r) (h : op'.instr f' = op.instr f) :
    op' = op ∧ f'.rd = f.rd ∧ f'.rs1 = f.rs1 ∧ f'.rs2 = f.rs2 := by
  obtain rfl : op' = op := by rw [← instr_op op' f', h, instr_op]
  cases op' <;> simp_all [Op.layout, Op.instr]

/-- With no tag and nothing in MEM/WB a source in use is read from the register file as it stands (R213, R214). -/
theorem operand_of_alone {s : State} (hwb : s.memwb = none) (r : RegIx) : operand s true .none r = Regs.read s.x r := by
  rw [operand_tag_none, writeback_of_no_memwb hwb]

/-- What execute computes for a register-register instruction alone: its result on the two registers it names, and operand 2 as
store data (R130). -/
theorem executedStage_of_alone_register {s : State} {d : Stage} {op : Op} {f : Fields} (hlay : op.layout = .r)
    (h : alone s (op.instr f) d) :
    d.ctrl = controlsOf .r ∧ d.rd = f.rd ∧
      (executedStage s d).alu = executeAlu (op.instr f) d.pc (Regs.read s.x f.rs1) (Regs.read s.x f.rs2) ∧
      (executedStage s d).sdata = Regs.read s.x f.rs2 := by
  obtain ⟨-, -, -, -, -, hwb, -, -, hdec, hinstr, htag1, htag2⟩ := h
  obtain ⟨rfl, hrd, hrs1, hrs2⟩ := op_instr_inj_register hlay hinstr
  dsimp only at hrd hrs1 hrs2
  obtain ⟨-, -, -, hctrl, huses1, huses2, -⟩ := decodedStage_spec hdec
  rw [hlay] at hctrl huses1 huses2
  have ha : operand1 s d = Regs.read s.x f.rs1 := by
    rw [operand1, huses1, htag1, hrs1]; exact operand_of_alone hwb f.rs1
  have hb : operand2 s d = Regs.read s.x f.rs2 := by
    rw [operand2, huses2, htag2, hrs2]; exact operand_of_alone hwb f.rs2
  refine ⟨hctrl, hrd, ?_, ?_⟩
  · rw [executedStage, ha, hb, hinstr]
  · rw [executedStage, hb]; exact if_pos (.inl hlay)

theorem retiresTo_of_alone_register {s : State} {d : Stage} {op : Op} {f : Fields} (hlay : op.layout = .r)
    (h : alone s (op.instr f) d) :
    retiresTo s (op.instr f) (executeAlu (op.instr f) d.pc (Regs.read s.x f.rs1) (Regs.read s.x f.rs2))
      (Regs.read s.x f.rs2) f.rd (executeAlu (op.instr f) d.pc (Regs.read s.x f.rs1) (Regs.read s.x f.rs2)) := by
  obtain ⟨hctrl, hrd, halu, hsdata⟩ := executedStage_of_alone_register hlay h
  rw [← halu, ← hsdata, ← hrd]
  exact retiresTo_of_alone h hctrl

/-- Settles O51: the ten instructions are those of the register-register layout, and `executeAlu` gives each one's result. -/
theorem registerRegisterInstructionsRetire : Obligations.RegisterRegisterInstructionsRetire := by
  intro s d rd rs1 rs2 a b gives
  have retires : ∀ op : Op, op.layout = .r →
      gives (op.instr ⟨rd, rs1, rs2, 0, 0, 0⟩) (executeAlu (op.instr ⟨rd, rs1, rs2, 0, 0, 0⟩) d.pc a b) :=
    fun _ hlay h => retiresTo_of_alone_register hlay h
  exact ⟨retires .add rfl, retires .sub rfl, retires .sll rfl, retires .slt rfl, retires .sltu rfl, retires .xor rfl,
    retires .srl rfl, retires .sra rfl, retires .or rfl, retires .and rfl⟩

end Sys2Proof.Machine
end

section
/-! PROOFS. An instruction alone in the pipeline, continued: the retirement of an instruction whose second operand is its
immediate, in particular of every register-immediate instruction (R150), of LUI (R160) and of AUIPC (R161). -/

namespace Sys2Proof.Machine

/-! ## The instructions of formats I and U (R150 to R162) -/

/-- An instruction determines its operation and the operands its layout has (R82 to R87). -/
theorem op_instr_inj {op op' : Op} {f f' : Fields} (h : op'.instr f' = op.instr f) :
    op' = op ∧ op.layout.operands f' = op.layout.operands f := by
  obtain rfl : op' = op := by rw [← instr_op op' f', h, instr_op]
  refine ⟨rfl, ?_⟩
  cases op' <;> simp_all [Op.layout, Op.instr, Layout.operands]

/-- What a stage register that holds an instruction of format I or U says of it: it writes a register and does nothing else
(R113), its destination is the instruction's, it does not read source 2 (R114) and it has no store data. -/
theorem decodedStage_writer {sub : Subset} {d : Stage} {op : Op} {f : Fields} (hfmt : op.layout.fmt = .i ∨ op.layout.fmt = .u)
    (hdec : decodedStage sub d = true) (hinstr : d.instr = op.instr f) :
    d.ctrl = ⟨true, true, false, false, false, false⟩ ∧ d.rd = f.rd ∧ d.uses2 = false ∧ ∀ b, executeSdata d.op b = 0 := by
  obtain ⟨rfl, hoperands⟩ := op_instr_inj hinstr
  obtain ⟨-, -, -, hctrl, -, huses2, -⟩ := decodedStage_spec hdec
  rw [hctrl, huses2]
  unfold executeSdata
  cases hlay : d.op.layout <;> simp_all [Layout.fmt, Layout.operands, controlsOf, usesSource2]

/-- An instruction of format I or U alone in the pipeline retires with its result on operand 1 and its immediate. -/
theorem retiresTo_of_alone_writer {s : State} {d : Stage} {op : Op} {f : Fields}
    (hfmt : op.layout.fmt = .i ∨ op.layout.fmt = .u) (h : alone s (op.instr f) d) :
    retiresTo s (op.instr f) (executeAlu (op.instr f) d.pc (operand1 s d) 0) 0 f.rd
      (executeAlu (op.instr f) d.pc (operand1 s d) 0) := by
  have hretires := retiresTo_of_alone (src := true) h
  obtain ⟨-, -, -, -, -, -, -, -, hdec, hinstr, -⟩ := h
  obtain ⟨hctrl, hrd, huses2, hsdata⟩ := decodedStage_writer hfmt hdec hinstr
  have hb : operand2 s d = 0 := by rw [operand2, huses2, operand_unused]
  simpa only [executedStage, hinstr, hsdata, hrd, hb] using hretires hctrl

/-! ## The register-immediate instructions (R150 to R159) -/

/-- A register-immediate instruction alone in the pipeline reads its source as the register file has it (R213). -/
theorem operand1_of_alone_immediate {s : State} {d : Stage} {op : Op} {f : Fields} (hfmt : op.layout.fmt = .i)
    (h : alone s (op.instr f) d) : operand1 s d = Regs.read s.x f.rs1 := by
  obtain ⟨-, -, -, -, -, hwb, -, -, hdec, hinstr, htag1, -⟩ := h
  obtain ⟨rfl, hoperands⟩ := op_instr_inj hinstr
  obtain ⟨-, -, -, -, huses1, -⟩ := decodedStage_spec hdec
  have hrs1 : d.rs1 = f.rs1 := by cases hlay : d.op.layout <;> simp_all [Layout.fmt, Layout.operands]
  rw [hfmt] at huses1
  rw [operand1, huses1, htag1, hrs1]
  exact operand_of_alone hwb f.rs1

/-- Settles O52: the nine instructions are those of format I, and `executeAlu` gives each one's result. -/
theorem registerImmediateInstructionsRetire : Obligations.RegisterImmediateInstructionsRetire := by
  intro s d rd rs1 imm a gives
  have retires : ∀ op : Op, op.layout.fmt = .i →
      gives (op.instr ⟨rd, rs1, 0, 0, 0, imm⟩) (executeAlu (op.instr ⟨rd, rs1, 0, 0, 0, imm⟩) d.pc a 0) := by
    intro op hfmt h
    have ha : operand1 s d = a := operand1_of_alone_immediate hfmt h
    rw [← ha]
    exact retiresTo_of_alone_writer (.inl hfmt) h
  exact ⟨retires .addi rfl, retires .slti rfl, retires .sltiu rfl, retires .xori rfl, retires .ori rfl, retires .andi rfl,
    retires .slli rfl, retires .srli rfl, retires .srai rfl⟩

/-! ## LUI and AUIPC (R160 to R162) -/

/-- The decoder gives well-formed instructions alone (R101). -/
theorem wf_of_alone {s : State} {i : Instr} {d : Stage} (h : alone s i d) : i.wf = true := by
  obtain ⟨-, -, -, -, -, -, -, -, hdec, rfl, -⟩ := h
  exact (encodeInvertsDecode s.params.subset d.word d.instr (decodedStage_decode hdec)).1

/-- Settles O53: both are of format U, their results do not use operand 1, and a well-formed LUI has an immediate whose low
twelve bits are zero. -/
theorem upperImmediateInstructionsRetire : Obligations.UpperImmediateInstructionsRetire := by
  intro s d rd imm
  refine ⟨fun hlui => ⟨?lowBits, ?lui⟩, ?auipc⟩
  case lowBits => exact of_decide_eq_true (wf_of_alone hlui)
  case lui => exact retiresTo_of_alone_writer (op := .lui) (f := ⟨rd, 0, 0, 0, 0, imm⟩) (.inr rfl) hlui
  case auipc =>
    intro hauipc
    exact retiresTo_of_alone_writer (op := .auipc) (f := ⟨rd, 0, 0, 0, 0, imm⟩) (.inr rfl) hauipc

end Sys2Proof.Machine
end

section
/-! PROOFS. A load or a store alone in the pipeline: it takes the same three cycles as any other instruction, and what differs is
its memory step (R170, R176). -/

namespace Sys2Proof.Machine

/-! ## The memory step of a load and of a store (R216) -/

/-- A load that passes its checks puts what it read, extended, in `mdata`, and leaves the data memory alone (R170). -/
theorem memoryStep_of_load {s : State} {e : Stage} {n : Width} {ext : Word → Word} (he : s.exmem = some e)
    (hctrl : e.ctrl = controlsOf .l) (hn : widthOf e.op = some n) (hext : extOf e.op = some ext)
    (hok : accessFault s e.alu n = none) :
    memoryStep s = .ok (some { e with mdata := ext (Memory.readLE s.dmem e.alu.toNat n) }, s.dmem) := by
  have hdata : memData s e = .ok (ext (Memory.readLE s.dmem e.alu.toNat n)) := by
    rw [memData_of_read (by rw [hctrl]; rfl), loadOf_eq hn hext]
    exact loadAction_ok.2 ⟨hok, rfl⟩
  exact (memoryStep_some he).2 ⟨_, _, hdata, memAfter_of_no_write (by rw [hctrl]; rfl), rfl⟩

/-- A store that passes its checks writes its store data, and reads nothing (R176). -/
theorem memoryStep_of_store {s : State} {e : Stage} {n : Width} (he : s.exmem = some e)
    (hctrl : e.ctrl = controlsOf .s) (hn : widthOf e.op = some n) (hext : extOf e.op = none)
    (hok : accessFault s e.alu n = none) :
    memoryStep s = .ok (some { e with mdata := 0 }, Memory.writeLE s.dmem e.alu.toNat e.sdata n) := by
  have hafter : memAfter s e = .ok (Memory.writeLE s.dmem e.alu.toNat e.sdata n) := by
    rw [memAfter_of_write (by rw [hctrl]; rfl), storeOf_eq hn hext]
    exact memWrite_ok.2 ⟨hok, rfl⟩
  exact (memoryStep_some he).2 ⟨_, _, memData_of_no_read (by rw [hctrl]; rfl), hafter, rfl⟩

/-! ## The three cycles, whatever the memory step does -/

/-- After the memory cycle of an instruction alone whose memory step answers `e` for MEM/WB and the data memory `mem`. -/
def afterAccess (s : State) (d e : Stage) (mem : Memory) : State :=
  drainCycle (afterExecute s d) (some e, mem) none

/-- After its writeback cycle. -/
def afterAccessWriteback (s : State) (d e : Stage) (mem : Memory) : State :=
  drainCycle (afterAccess s d e mem) (none, mem) none

/-- The three cycles of an instruction alone that is no branch and whose memory step answers; `alone_cycles` for any access. -/
theorem alone_access_cycles {s : State} {i : Instr} {d e : Stage} {mem : Memory} (h : alone s i d)
    (hb : d.ctrl.branch = false) (hm : memoryStep (afterExecute s d) = .ok (some e, mem)) :
    exec i s = .next (afterExecute s d) ∧ step (afterExecute s d) = .next (afterAccess s d e mem) ∧
      step (afterAccess s d e mem) = .next (afterAccessWriteback s d e mem) := by
  obtain ⟨hrun, hinv, hif, hid, hex, -, hend, hcap, hdec, rfl, -, -⟩ := h
  have hs : draining s := ⟨hrun, hinv, hif, hend⟩
  have hs₁ : draining (afterExecute s d) := draining_drainCycle hs _ _
  have hs₂ : draining (afterAccess s d e mem) := draining_drainCycle hs₁ _ _
  refine ⟨?execute, ?memory, ?writeback⟩
  case execute =>
    rw [exec_instr hid, executeStep_of_no_branch hid hdec hb]
    exact cycle_of_draining hs (memoryStep_none hex) rfl
  case memory =>
    have hlt : (afterExecute s d).cycle < s.params.cycleCap := show s.cycle + 1 < _ by omega
    exact step_of_draining hs₁ rfl (.inl nofun) hlt hm
  case writeback =>
    have hlt : (afterAccess s d e mem).cycle < s.params.cycleCap := show s.cycle + 2 < _ by omega
    exact step_of_draining hs₂ rfl (.inr nofun) hlt (memoryStep_none rfl)

theorem drainedAfter_afterAccessWriteback {s : State} (d e : Stage) (mem : Memory) (hrun : s.status = .running) :
    drainedAfter s (afterAccessWriteback s d e mem) := by
  have hdiags : (afterAccessWriteback s d e mem).diags = s.diags := by
    simp [afterAccessWriteback, afterAccess, afterExecute, drainCycle]
  exact ⟨hrun, rfl, rfl, hdiags, rfl, rfl, rfl, rfl, rfl⟩

/-- The one register write of the three cycles is that of the instruction itself: MEM/WB is a bubble in the first two (R212). -/
theorem read_afterAccessWriteback {s : State} (d e : Stage) (mem : Memory) (hwb : s.memwb = none) (r : RegIx) :
    Regs.read (afterAccessWriteback s d e mem).x r =
      if writesReg (some e) r = true then wbval e else Regs.read s.x r := by
  have hregs : (afterAccess s d e mem).x = s.x :=
    calc writeback (afterExecute s d)
      _ = writeback s := writeback_of_no_memwb rfl
      _ = s.x := writeback_of_no_memwb hwb
  calc Regs.read (writeback (afterAccess s d e mem)) r
    _ = if writesReg (some e) r = true then wbval e else Regs.read (afterAccess s d e mem).x r := read_writeback _ r
    _ = if writesReg (some e) r = true then wbval e else Regs.read s.x r := by rw [hregs]

/-! ## What execute computes for a load or a store alone (R170, R176) -/

theorem operand1_of_alone {s : State} {i : Instr} {d : Stage} (h : alone s i d) (huses : d.uses1 = true) :
    operand1 s d = Regs.read s.x d.rs1 := by
  obtain ⟨-, -, -, -, -, hwb, -, -, -, -, htag1, -⟩ := h
  rw [operand1, huses, htag1]
  exact operand_of_alone hwb d.rs1

theorem operand2_of_alone {s : State} {i : Instr} {d : Stage} (h : alone s i d) (huses : d.uses2 = true) :
    operand2 s d = Regs.read s.x d.rs2 := by
  obtain ⟨-, -, -, -, -, hwb, -, -, -, -, -, htag2⟩ := h
  rw [operand2, huses, htag2]
  exact operand_of_alone hwb d.rs2

/-- The result of a load or a store is its effective address: operand 1 plus its immediate, modulo 2^32. -/
theorem executeAlu_access {op : Op} (hlay : op.layout = .l ∨ op.layout = .s) (f : Fields) (pc a b : Word) :
    executeAlu (op.instr f) pc a b = a + f.imm := by
  rw [← ofInt_toNat_add_toInt]
  cases op
  case lb | lh | lw | lbu | lhu | sb | sh | sw => rfl
  all_goals exact absurd hlay (by decide)

/-- A load alone: its control signals and destination, the effective address as result, and no store data. -/
theorem executedStage_of_alone_load {s : State} {d : Stage} {op : Op} {f : Fields} (hlay : op.layout = .l)
    (h : alone s (op.instr f) d) :
    d.op = op ∧ d.ctrl = controlsOf .l ∧ d.rd = f.rd ∧
      (executedStage s d).alu = Regs.read s.x f.rs1 + f.imm ∧ (executedStage s d).sdata = 0 := by
  have ha := operand1_of_alone h
  obtain ⟨-, -, -, -, -, -, -, -, hdec, hinstr, -⟩ := h
  obtain ⟨rfl, hoperands⟩ := op_instr_inj hinstr
  obtain ⟨-, -, -, hctrl, huses1, -⟩ := decodedStage_spec hdec
  rw [hlay] at hoperands hctrl huses1
  obtain ⟨hrd, hrs1⟩ : d.rd = f.rd ∧ d.rs1 = f.rs1 := ⟨congrArg Fields.rd hoperands, congrArg Fields.rs1 hoperands⟩
  refine ⟨rfl, hctrl, hrd, ?address, ?storeData⟩
  case address => rw [executedStage, hinstr, executeAlu_access (.inl hlay), ha huses1, hrs1]
  case storeData => exact if_neg (by rw [hlay]; decide)

/-- A store alone: its control signals, the effective address as result, and operand 2 as store data. -/
theorem executedStage_of_alone_store {s : State} {d : Stage} {op : Op} {f : Fields} (hlay : op.layout = .s)
    (h : alone s (op.instr f) d) :
    d.op = op ∧ d.ctrl = controlsOf .s ∧
      (executedStage s d).alu = Regs.read s.x f.rs1 + f.imm ∧ (executedStage s d).sdata = Regs.read s.x f.rs2 := by
  have ha := operand1_of_alone h
  have hb := operand2_of_alone h
  obtain ⟨-, -, -, -, -, -, -, -, hdec, hinstr, -⟩ := h
  obtain ⟨rfl, hoperands⟩ := op_instr_inj hinstr
  obtain ⟨-, -, -, hctrl, huses1, huses2, -⟩ := decodedStage_spec hdec
  rw [hlay] at hoperands hctrl huses1 huses2
  obtain ⟨hrs1, hrs2⟩ : d.rs1 = f.rs1 ∧ d.rs2 = f.rs2 := ⟨congrArg Fields.rs1 hoperands, congrArg Fields.rs2 hoperands⟩
  refine ⟨rfl, hctrl, ?address, ?storeData⟩
  case address => rw [executedStage, hinstr, executeAlu_access (.inr hlay), ha huses1, hrs1]
  case storeData => rw [executedStage, hb huses2, hrs2]; exact if_pos (.inr hlay)

/-! ## Loads (R170 to R175) -/

/-- A zero-extended value is the number its bits are (R174, R175). -/
theorem zext_setWidth {n : Nat} (x : BitVec n) (hn : n ≤ 32) : zext n (x.setWidth 32) = BitVec.ofNat 32 x.toNat := by
  rw [zext, BitVec.setWidth_setWidth_of_le x hn, BitVec.setWidth_eq, BitVec.ofNat_toNat]

/-- A load alone whose access passes the checks retires with what it read, extended. -/
theorem retiresTo_of_alone_load {s : State} {d : Stage} {op : Op} {f : Fields} {n : Width} {ext : Word → Word}
    (hlay : op.layout = .l) (hn : widthOf op = some n) (hext : extOf op = some ext) (h : alone s (op.instr f) d)
    (hok : accessFault s (Regs.read s.x f.rs1 + f.imm) n = none) :
    retiresTo s (op.instr f) (Regs.read s.x f.rs1 + f.imm) 0 f.rd
      (ext (Memory.readLE s.dmem (Regs.read s.x f.rs1 + f.imm).toNat n)) := by
  obtain ⟨rfl, hctrl, hrd, halu, hsdata⟩ := executedStage_of_alone_load hlay h
  rw [← halu] at hok ⊢
  rw [← hsdata, ← hrd]
  obtain ⟨hexecute, hmemory, hwriteback⟩ :=
    alone_access_cycles h (by rw [hctrl]; rfl) (memoryStep_of_load rfl hctrl hn hext hok)
  obtain ⟨hrun, -, -, -, -, hwb, -⟩ := h
  have hwrites : d.ctrl.regWrite = true := by rw [hctrl]; rfl
  have hloaded : d.ctrl.memToReg = true := by rw [hctrl]; rfl
  refine ⟨_, _, _, hexecute, hmemory, hwriteback, ⟨_, rfl, rfl, rfl⟩, fun r => ?register, fun _ => rfl,
    drainedAfter_afterAccessWriteback d _ _ hrun⟩
  case register =>
    exact (read_afterAccessWriteback d _ _ hwb r).trans
      (if_congr (writesReg_iff_of_regWrite hwrites r) (if_pos hloaded) rfl)

/-- Settles O54: the five loads differ in their width and their extension alone. -/
theorem loadsRetire : Obligations.LoadsRetire := by
  intro s d rd rs1 imm a b gives
  have retires : ∀ (op : Op) (n : Width) (ext : Word → Word) (v : Word), op.layout = .l → widthOf op = some n →
      extOf op = some ext → ext (Memory.readLE s.dmem a.toNat n) = v →
      gives (op.instr ⟨rd, rs1, 0, 0, 0, imm⟩) n.bytes v := by
    rintro op n ext _ hlay hn hext rfl h haligned hinside
    exact retiresTo_of_alone_load hlay hn hext h (accessFault_none.2 ⟨haligned, hinside⟩)
  exact ⟨retires .lb .byte _ _ rfl rfl rfl (sext_byte (b 0)),
    retires .lh .half _ _ rfl rfl rfl (sext_half (b 1 ++ b 0)),
    retires .lw .word _ _ rfl rfl rfl rfl,
    retires .lbu .byte _ _ rfl rfl rfl (zext_setWidth (b 0) (by decide)),
    retires .lhu .half _ _ rfl rfl rfl (zext_setWidth (b 1 ++ b 0) (by decide))⟩

/-! ## Stores (R176 to R179) -/

/-- A store alone whose access passes the checks retires having stored the low bytes of its source 2. -/
theorem storesTo_of_alone_store {s : State} {d : Stage} {op : Op} {f : Fields} {n : Width} (hlay : op.layout = .s)
    (hn : widthOf op = some n) (hext : extOf op = none) (h : alone s (op.instr f) d)
    (hmem : Memory.canonical s.dmem = true) (hok : accessFault s (Regs.read s.x f.rs1 + f.imm) n = none) :
    storesTo s (op.instr f) (Regs.read s.x f.rs1 + f.imm) n.bytes (Regs.read s.x f.rs2) := by
  obtain ⟨rfl, hctrl, halu, hsdata⟩ := executedStage_of_alone_store hlay h
  rw [← halu] at hok ⊢
  rw [← hsdata]
  obtain ⟨hexecute, hmemory, hwriteback⟩ :=
    alone_access_cycles h (by rw [hctrl]; rfl) (memoryStep_of_store rfl hctrl hn hext hok)
  obtain ⟨hrun, -, -, -, -, hwb, -⟩ := h
  have hkeeps : d.ctrl.regWrite = false := by rw [hctrl]; rfl
  refine ⟨_, _, _, hexecute, hmemory, hwriteback, ⟨_, rfl, rfl, rfl⟩,
    fun _ => Memory.read_writeLE_inside hmem _ _, fun _ => Memory.read_writeLE_outside hmem _, rfl, fun r => ?register,
    drainedAfter_afterAccessWriteback d _ _ hrun⟩
  case register =>
    exact (read_afterAccessWriteback d _ _ hwb r).trans
      (if_neg (Bool.eq_false_iff.1 (writesReg_of_no_regWrite hkeeps r)))

/-- Settles O55: the three stores differ in their width alone. -/
theorem storesRetire : Obligations.StoresRetire := by
  intro s d rs1 rs2 imm hwf a gives
  have retires : ∀ (op : Op) (n : Width), op.layout = .s → widthOf op = some n → extOf op = none →
      gives (op.instr ⟨0, rs1, rs2, 0, 0, imm⟩) n.bytes := by
    intro op n hlay hn hext h haligned hinside
    exact storesTo_of_alone_store hlay hn hext h (Memory.wf_canonical hwf) (accessFault_none.2 ⟨haligned, hinside⟩)
  exact ⟨retires .sb .byte rfl rfl rfl, retires .sh .half rfl rfl rfl, retires .sw .word rfl rfl rfl⟩

end Sys2Proof.Machine
end

section
/-! PROOFS. The branches (R190 to R200): a taken branch whose target is bad ends the run in any pipeline, and a branch alone in the
pipeline resolves, taken or not. -/

namespace Sys2Proof.Machine

/-! ## A bad target (R200, R261) -/

/-- The execute step of the cycle is that of the instruction in ID/EX. -/
theorem executed_of_idex {s : State} {d : Stage} (hd : s.idex = some d) : executed s = executeStep s d := by
  unfold executed; rw [hd]

/-- The cycle in which the branch in ID/EX is taken to a bad target takes that target's fault, in whatever pipeline (R200, R264). -/
theorem cycle_bad_target {s : State} {d : Stage} {target : Word} {m : Option Stage × Memory} (hi : invariantsHold s = true)
    (hd : s.idex = some d) (htaken : takenTarget s = some target) (hm : memoryStep s = .ok m)
    (hbad : ¬ goodTarget s.params target) : cycle s (executed s) =
      .next (takeFault s (if target.toNat % 4 ≠ 0 then .misalignedTarget else .targetRange) d.pc target) := by
  rw [executed_bad_target hd htaken hbad]
  exact cycle_execute_fault hi hm

/-- Settles O49: `step` and `exec` both answer what the cycle does, and the state it leaves is final. -/
theorem badBranchTargetEndsTheRun : Obligations.BadBranchTargetEndsTheRun := by
  rintro s d target m ⟨hrun, hinv, hunfinished, hcap⟩ hd htaken hm hbad
  have hcycle := cycle_bad_target hinv hd htaken hm hbad
  refine ⟨takeFault s _ d.pc target, ?step, ?exec, rfl, rfl, rfl, rfl, rfl, finalStatesStay _ nofun⟩
  case step => rw [step_cycle hrun hunfinished hcap, hcycle]
  case exec => rw [exec_instr hd, ← executed_of_idex hd, hcycle]

/-! ## A branch alone in the pipeline (R190 to R197) -/

/-- Past the last instruction a cycle goes where its branch goes, if it takes one, and fetches nothing (R225, R229). -/
theorem frontEnd_of_draining_target {s : State} (h : draining s) (c : Nat) (target : Option Word) :
    frontEnd s c (decisionOf s target) = .ok ⟨target.getD s.pc, none, none, []⟩ := by
  cases target with
  | none =>
    have hfront := frontEnd_of_draining h c
    obtain ⟨-, -, hif, -⟩ := h
    rw [decisionOf_of_no_ifid hif, hfront, Option.getD_none]
  | some t => rw [decisionOf_flush.2 rfl, frontEnd_flush, Option.getD_some]

/-- A branch computes no result and has no store data (R33, R190). -/
theorem execute_values_branch {op : Op} (hlay : op.layout = .b) (f : Fields) (pc a b : Word) :
    executeAlu (op.instr f) pc a b = 0 ∧ executeSdata op b = 0 := by
  refine ⟨?alu, if_neg (by rw [hlay]; decide)⟩
  cases op
  case beq | bne | blt | bge | bltu | bgeu => rfl
  all_goals cases hlay

/-- A branch alone is taken on the registers it names, to its own address plus its offset (R190, R224). -/
theorem takenTarget_of_alone_branch {s : State} {d : Stage} {op : Op} {f : Fields} (hlay : op.layout = .b)
    (h : alone s (op.instr f) d) : takenTarget s =
      if branchCondition op (Regs.read s.x f.rs1) (Regs.read s.x f.rs2) = some true then some (d.pc + f.imm) else none := by
  have ha := operand1_of_alone h
  have hb := operand2_of_alone h
  obtain ⟨-, -, -, hid, -, -, -, -, hdec, hinstr, -⟩ := h
  obtain ⟨rfl, hoperands⟩ := op_instr_inj hinstr
  obtain ⟨-, -, -, hctrl, huses1, huses2, -⟩ := decodedStage_spec hdec
  rw [hlay] at hoperands hctrl huses1 huses2
  obtain ⟨hrs1, hrs2, himm⟩ : d.rs1 = f.rs1 ∧ d.rs2 = f.rs2 ∧ d.imm = f.imm :=
    ⟨congrArg Fields.rs1 hoperands, congrArg Fields.rs2 hoperands, congrArg Fields.imm hoperands⟩
  have hbranch : d.ctrl.branch = true := by rw [hctrl]; rfl
  unfold takenTarget
  rw [hid]
  simp only [hbranch, ha huses1, hb huses2, hrs1, hrs2, himm, Bool.true_and, beq_iff_eq]

/-- After the execute cycle of a branch alone: the branch is in EX/MEM with value fields 0, and fetch goes on from `pc`. -/
def afterBranch (s : State) (d : Stage) (pc : Word) : State :=
  completeCycle s none s.dmem (some { d with alu := 0, sdata := 0 }) ⟨pc, none, none, []⟩

/-- The execute cycle of a branch alone, unless it is taken to a bad target. -/
theorem exec_of_alone_branch {s : State} {d : Stage} {op : Op} {f : Fields} (hlay : op.layout = .b)
    (h : alone s (op.instr f) d) (hgood : ∀ target, takenTarget s = some target → goodTarget s.params target) :
    exec (op.instr f) s = .next (afterBranch s d ((takenTarget s).getD s.pc)) := by
  obtain ⟨hrun, hinv, hif, hid, hex, -, hend, -, hdec, hinstr, -⟩ := h
  obtain ⟨rfl, -⟩ := op_instr_inj hinstr
  obtain ⟨⟨exmem, target⟩, hx⟩ := executed_answers hgood
  obtain rfl : target = takenTarget s := (executed_target hx).1
  have hstep : executeStep s d = .ok ⟨exmem, takenTarget s⟩ := by rw [← executed_of_idex hid, hx]
  have hexmem : exmem = some { d with alu := 0, sdata := 0 } := by
    obtain ⟨halu, hsdata⟩ := execute_values_branch hlay f d.pc (operand1 s d) (operand2 s d)
    have hvalues := executeStep_values hdec hstep
    rwa [hinstr, halu, hsdata] at hvalues
  rw [← hinstr, exec_instr hid, hstep, hexmem]
  exact cycle_complete hinv (memoryStep_none hex) (frontEnd_of_draining_target ⟨hrun, hinv, hif, hend⟩ _ _)

/-- A branch alone resolves by its condition on the two registers it names. -/
theorem branchesTo_of_alone_branch {s : State} {d : Stage} {op : Op} {f : Fields} {taken : Prop} [Decidable taken]
    (hlay : op.layout = .b)
    (hcond : branchCondition op (Regs.read s.x f.rs1) (Regs.read s.x f.rs2) = some (decide taken))
    (h : alone s (op.instr f) d) : branchesTo s (op.instr f) d taken (d.pc + f.imm) := by
  intro hresolves
  have htarget : takenTarget s = if taken then some (d.pc + f.imm) else none := by
    simpa only [hcond, Option.some.injEq, decide_eq_true_eq] using takenTarget_of_alone_branch hlay h
  have hgood : ∀ target, takenTarget s = some target → goodTarget s.params target := by
    intro target ht
    rw [htarget, Option.ite_none_right_eq_some] at ht
    obtain ⟨htaken, ht⟩ := ht
    cases ht
    obtain ⟨-, hgood⟩ | hnot := hresolves
    · exact hgood
    · exact absurd htaken hnot
  have hexec := exec_of_alone_branch hlay h hgood
  obtain ⟨hrun, -, -, -, -, hwb, -⟩ := h
  refine ⟨_, hexec, rfl, rfl, rfl, rfl, writeback_of_no_memwb hwb, rfl, List.append_nil _, hrun, rfl, ?taken, ?notTaken⟩
  case taken =>
    intro htaken
    calc (takenTarget s).getD s.pc
      _ = d.pc + f.imm := by rw [htarget, if_pos htaken, Option.getD_some]
  case notTaken =>
    intro hnot
    calc (takenTarget s).getD s.pc
      _ = s.pc := by rw [htarget, if_neg hnot, Option.getD_none]

/-- Settles O56: the six branches differ in their condition alone. -/
theorem branchesResolve : Obligations.BranchesResolve := by
  intro s d rs1 rs2 imm a b gives
  have resolves : ∀ (op : Op) (taken : Prop) [Decidable taken], op.layout = .b →
      branchCondition op a b = some (decide taken) → gives (op.instr ⟨0, rs1, rs2, 0, 0, imm⟩) taken :=
    fun _ _ _ hlay hcond h => branchesTo_of_alone_branch hlay hcond h
  exact ⟨resolves .beq _ rfl rfl, resolves .bne _ rfl rfl, resolves .blt _ rfl rfl, resolves .bge _ rfl rfl,
    resolves .bltu _ rfl rfl, resolves .bgeu _ rfl rfl⟩

end Sys2Proof.Machine
end

section
/-! PROOFS. The stages of a completed cycle (R212 to R230): what each latch, the registers, the data memory and the front end hold
at its end. -/

namespace Sys2Proof.Machine

/-! ## A completed cycle, in one equation (R250) -/

/-- The cycle's parts answered `m`, `e` and `f`: the memory step, the execute step into EX/MEM, and the front end under the decision
of the branch in ID/EX. -/
def cycleParts (s : State) (m : Option Stage × Memory) (e : Option Stage) (f : FrontEnd) : Prop :=
  memoryStep s = .ok m ∧ executed s = .ok ⟨e, takenTarget s⟩ ∧
    frontEnd s (s.cycle + 1) (decisionOf s (takenTarget s)) = .ok f

/-- A completed cycle ends in the state `completeCycle` makes of its parts. -/
theorem completes_parts {s t : State} (h : completes s t) :
    ∃ m e f, cycleParts s m e f ∧ t = completeCycle s m.1 m.2 e f := by
  obtain ⟨m, ⟨e, target⟩, f, hm, hx, hf, rfl⟩ := completes_cycle h
  obtain rfl : target = takenTarget s := (executed_target hx).1
  exact ⟨m, e, f, ⟨hm, hx, hf⟩, rfl⟩

/-- A cycle that completes started in a running state that violates no invariant of R268. -/
theorem running_of_completes {s t : State} (h : completes s t) : s.status = .running ∧ invariantsHold s = true := by
  obtain ⟨⟨hrun, hinv, -, -⟩, -, -⟩ := h
  exact ⟨hrun, hinv⟩

theorem completes_params {s t : State} (h : completes s t) : t.params = s.params := by
  obtain ⟨m, e, f, -, rfl⟩ := completes_parts h
  rfl

/-! ## Writeback (R212) -/

/-- Settles O18: writeback leaves entry 0 alone, and the free register file of a fault has 0 there. -/
theorem registerZeroNeverChanges : Obligations.RegisterZeroNeverChanges := by
  intro s t hzero h
  refine ⟨?_, Regs.read_zero t.x⟩
  obtain ⟨-, rfl⟩ | ⟨-, -, ⟨-, rfl⟩ | ⟨-, -, rfl⟩ | ⟨-, -, hcycle⟩⟩ := step_cases h
  · exact hzero
  · exact hzero
  · exact hzero
  · obtain ⟨-, ⟨k, pc, info, -, rfl⟩ | ⟨m, k, pc, info, -, -, rfl⟩ | ⟨m, x, f, -, -, -, rfl⟩⟩ := cycle_next hcycle
    · exact Regs.ofWords_entry_zero _
    · exact Regs.ofWords_entry_zero _
    · exact (writeback_entry_zero s).trans hzero

/-- Settles O33: the registers at the end of the cycle are those after writeback. -/
theorem registersChangeOnlyByWriteback : Obligations.RegistersChangeOnlyByWriteback := by
  intro s t h r
  obtain ⟨m, e, f, -, rfl⟩ := completes_parts h
  exact read_writeback s r

/-! ## The memory step (R216) -/

/-- An occupied EX/MEM moves to MEM/WB with a new `mdata` alone. -/
theorem memoryStep_memwb {s : State} {e : Stage} {m : Option Stage × Memory} (he : s.exmem = some e)
    (hm : memoryStep s = .ok m) : ∃ v, m.1 = some { e with mdata := v } := by
  obtain ⟨v, mem, -, -, rfl⟩ := (memoryStep_some he).1 hm
  exact ⟨v, rfl⟩

/-- A decoded instruction asserts MemRead exactly when it is a load (R113). -/
theorem memRead_eq_isSome_extOf {sub : Subset} {d : Stage} (h : decodedStage sub d = true) :
    d.ctrl.memRead = (extOf d.op).isSome := by
  obtain ⟨-, -, -, hctrl, -⟩ := decodedStage_spec h
  rw [hctrl]
  cases d.op <;> rfl

theorem accessBytes_eq_map_widthOf (op : Op) : accessBytes op = (widthOf op).map Width.bytes := by cases op <;> rfl

/-- What the memory step of a decoded instruction puts in `mdata`: what a load read, extended, else 0. -/
theorem memoryStep_mdata {s : State} {e : Stage} {m : Option Stage × Memory} (he : s.exmem = some e)
    (hdec : decodedStage s.params.subset e = true) (hm : memoryStep s = .ok m) :
    ∃ v, m.1 = some { e with mdata := v } ∧ (e.ctrl.memRead = false → v = 0) ∧
      ∀ n ext, widthOf e.op = some n → extOf e.op = some ext → v = ext (Memory.readLE s.dmem e.alu.toNat n) := by
  have hload := memRead_eq_isSome_extOf hdec
  obtain ⟨hread, -, rfl⟩ | ⟨n, ext, hn, hext, hread, -, -, rfl⟩ | ⟨n, -, hext, hread, -, -, rfl⟩ :=
    memoryStep_decoded_ok he hdec hm
  case inl =>
    refine ⟨0, rfl, fun _ => rfl, fun n ext _ hext => ?_⟩
    rw [hread, hext] at hload
    cases hload
  case inr.inl =>
    refine ⟨_, rfl, fun hnot => ?_, fun n' ext' hn' hext' => ?_⟩
    · rw [hread] at hnot; cases hnot
    · obtain rfl := Option.some.inj (hn.symm.trans hn')
      obtain rfl := Option.some.inj (hext.symm.trans hext')
      rfl
  case inr.inr =>
    refine ⟨0, rfl, fun _ => rfl, fun n' ext' _ hext' => ?_⟩
    rw [hext] at hext'
    cases hext'

/-- Settles O34: the five loads differ in their width and their extension alone. -/
theorem memoryStepLoads : Obligations.MemoryStepLoads := by
  intro s t e h he hdec b
  obtain ⟨m, x, f, ⟨hm, -, -⟩, rfl⟩ := completes_parts h
  obtain ⟨v, hmemwb, hnoLoad, hload⟩ := memoryStep_mdata he hdec hm
  have loads : ∀ (op : Op) (n : Width) (ext : Word → Word), widthOf op = some n → extOf op = some ext → e.op = op →
      v = ext (Memory.readLE s.dmem e.alu.toNat n) := by
    rintro _ n ext hn hext rfl
    exact hload n ext hn hext
  refine ⟨v, hmemwb, fun hop => ?lb, fun hop => ?lh, fun hop => ?lw, fun hop => ?lbu, fun hop => ?lhu, hnoLoad⟩
  case lb => exact (loads .lb .byte _ rfl rfl hop).trans (sext_byte (b 0))
  case lh => exact (loads .lh .half _ rfl rfl hop).trans (sext_half (b 1 ++ b 0))
  case lw => exact loads .lw .word _ rfl rfl hop
  case lbu => exact (loads .lbu .byte _ rfl rfl hop).trans (zext_setWidth (b 0) (by decide))
  case lhu => exact (loads .lhu .half _ rfl rfl hop).trans (zext_setWidth (b 1 ++ b 0) (by decide))

/-- The data memory after the memory step of a decoded instruction: a store's bytes at its address, else as it was. -/
theorem memoryStep_dmem {s : State} {e : Stage} {m : Option Stage × Memory} (he : s.exmem = some e)
    (hdec : decodedStage s.params.subset e = true) (hm : memoryStep s = .ok m) :
    (e.ctrl.memWrite = false → m.2 = s.dmem) ∧
      ∀ n, e.ctrl.memWrite = true → widthOf e.op = some n → m.2 = Memory.writeLE s.dmem e.alu.toNat e.sdata n := by
  obtain ⟨-, hwrite, rfl⟩ | ⟨-, -, -, -, -, hwrite, -, rfl⟩ | ⟨n, hn, -, -, hwrite, -, rfl⟩ :=
    memoryStep_decoded_ok he hdec hm
  · exact ⟨fun _ => rfl, fun n hw => absurd hw (by simp [hwrite])⟩
  · exact ⟨fun _ => rfl, fun n hw => absurd hw (by simp [hwrite])⟩
  · refine ⟨fun hw => absurd hw (by simp [hwrite]), fun n' _ hn' => ?_⟩
    obtain rfl := Option.some.inj (hn.symm.trans hn')
    rfl

/-- Settles O35: the store is the little-endian one, which changes its own bytes alone. -/
theorem memoryStepStores : Obligations.MemoryStepStores := by
  intro s t h hwf
  obtain ⟨m, x, f, ⟨hm, -, -⟩, rfl⟩ := completes_parts h
  refine ⟨fun hnone => ?bubble, fun e he hdec => ?occupied⟩
  case bubble =>
    rw [memoryStep_none hnone] at hm
    cases hm
    exact ⟨rfl, rfl⟩
  case occupied =>
    obtain ⟨hkeeps, hstores⟩ := memoryStep_dmem he hdec hm
    refine ⟨hkeeps, fun n hwrite hbytes => ?_⟩
    rw [accessBytes_eq_map_widthOf] at hbytes
    obtain ⟨w, hw, rfl⟩ := Option.map_eq_some_iff.1 hbytes
    have hcanonical := Memory.wf_canonical hwf
    rw [completeCycle_dmem, hstores w hwrite hw]
    exact ⟨fun _ => Memory.read_writeLE_inside hcanonical _ _, fun _ => Memory.read_writeLE_outside hcanonical _⟩

/-! ## The execute step (R217) -/

theorem executed_of_no_idex {s : State} (h : s.idex = none) : executed s = .ok ⟨none, none⟩ := by
  unfold executed; rw [h]

/-- An occupied ID/EX moves to EX/MEM with new value fields alone. -/
theorem executed_moves {s : State} {x : Executed} {d : Stage} (hd : s.idex = some d) (hx : executed s = .ok x) :
    ∃ alu sdata, x.exmem = some { d with alu := alu, sdata := sdata } :=
  executeStep_ok ((executed_of_idex hd).symm.trans hx)

/-- Settles O36: execute answers a bubble for a bubble, and for an instruction that instruction with new values. -/
theorem executeMovesIdExToExMem : Obligations.ExecuteMovesIdExToExMem := by
  intro s t h
  obtain ⟨m, e, f, ⟨-, hx, -⟩, rfl⟩ := completes_parts h
  refine ⟨fun hnone => ?bubble, fun d hd => executed_moves hd hx⟩
  case bubble => exact congrArg Executed.exmem (Except.ok.inj (hx.symm.trans (executed_of_no_idex hnone)))

/-- A taken branch goes to EX/MEM with value fields 0 (R33, R224). -/
theorem executed_of_takenTarget {s : State} {x : Executed} {target : Word} (htaken : takenTarget s = some target)
    (hx : executed s = .ok x) : ∃ d, s.idex = some d ∧ x.exmem = some { d with alu := 0, sdata := 0 } := by
  cases hd : s.idex with
  | none => simp [takenTarget, hd] at htaken
  | some d =>
    refine ⟨d, rfl, ?_⟩
    rw [executed_of_idex hd] at hx
    obtain ⟨c, -, hbranch⟩ | ⟨hnone, -⟩ := executeStep_shape s d
    · exact (branchStep_ok.1 (hbranch ▸ hx)).1
    · simp [takenTarget, hd, hnone] at htaken

/-! ## The front end (R230) -/

/-- Settles O37, decision by decision, from what the front end answers under each. -/
theorem decisionSetsTheFrontEnd : Obligations.DecisionSetsTheFrontEnd := by
  intro s t h
  obtain ⟨m, e, f, ⟨-, -, hf⟩, rfl⟩ := completes_parts h
  cases hk : decisionOf s (takenTarget s) with
  | normal =>
    rw [hk] at hf
    obtain ⟨q, hq, rfl⟩ := frontEnd_normal.1 hf
    refine ⟨rfl, rfl, fun hbelow => ?fetches, fun hpast => ?drains⟩
    case fetches =>
      obtain ⟨hpast, -⟩ | ⟨-, w, hw, rfl⟩ := fetchStep_ok.1 hq
      · exact absurd hbelow (Nat.not_lt.2 hpast)
      · exact ⟨rfl, w, hw, rfl⟩
    case drains =>
      obtain ⟨-, rfl⟩ | ⟨hbelow, -⟩ := fetchStep_ok.1 hq
      · exact ⟨rfl, rfl⟩
      · exact absurd hbelow (Nat.not_lt.2 hpast)
  | stall =>
    rw [hk] at hf
    cases hf
    exact ⟨rfl, rfl, rfl, List.append_nil _⟩
  | flush target =>
    rw [hk] at hf
    cases hf
    exact ⟨rfl, rfl, rfl, List.append_nil _⟩

/-- Settles O45: a taken target is the FLUSH decision, whose front end O37 gives. -/
theorem takenBranchFlushes : Obligations.TakenBranchFlushes := by
  intro s t target h htaken
  have hfront := decisionSetsTheFrontEnd s t h
  rw [decisionOf_flush.2 htaken] at hfront
  obtain ⟨hpc, hif, hid, hdiags⟩ := hfront
  obtain ⟨m, e, f, ⟨-, hx, -⟩, rfl⟩ := completes_parts h
  exact ⟨hpc, hif, hid, hdiags, executed_of_takenTarget htaken hx⟩

/-! ## Tags (R220) -/

/-- Settles O38: the tags are set last, against the new latches, and moving on copies them. -/
theorem tagsFollowTheNewLatches : Obligations.TagsFollowTheNewLatches := by
  intro s t h
  obtain ⟨m, x, f, ⟨hm, hx, -⟩, rfl⟩ := completes_parts h
  refine ⟨fun d hd => ?idex, fun d e hd he => ?exmem, fun e w he hw => ?memwb⟩
  case idex =>
    obtain ⟨c, -, rfl⟩ := Option.map_eq_some_iff.1 hd
    exact ⟨rfl, rfl⟩
  case exmem =>
    obtain ⟨alu, sdata, hmoved⟩ := executed_moves hd hx
    cases he.symm.trans hmoved
    exact ⟨rfl, rfl⟩
  case memwb =>
    obtain ⟨v, hmoved⟩ := memoryStep_memwb he hm
    cases hw.symm.trans hmoved
    exact ⟨rfl, rfl⟩

end Sys2Proof.Machine
end

section
/-! PROOFS. The trace of a completed cycle (R245 to R247): one record for each occupied latch, or the placeholder. -/

namespace Sys2Proof.Machine

/-! ## The records of a cycle (R245, R246) -/

/-- The placeholder stands in for the slots' records exactly when there is none. -/
theorem traceRecords_eq (sub : Subset) (c : Nat) (ifid : Option Fetched) (idex exmem memwb : Option Stage) :
    traceRecords sub c ifid idex exmem memwb =
      if (slotRecords sub c ifid idex exmem memwb).map TraceRecord.slot = [] then [.placeholder c]
      else (slotRecords sub c ifid idex exmem memwb).map .slot := by
  unfold traceRecords
  cases slotRecords sub c ifid idex exmem memwb <;> rfl

theorem slotRecords_eq_nil_iff {sub : Subset} {c : Nat} {ifid : Option Fetched} {idex exmem memwb : Option Stage} :
    slotRecords sub c ifid idex exmem memwb = [] ↔ ifid = none ∧ idex = none ∧ exmem = none ∧ memwb = none := by
  simp [slotRecords]

theorem length_slotRecords_le (sub : Subset) (c : Nat) (ifid : Option Fetched) (idex exmem memwb : Option Stage) :
    (slotRecords sub c ifid idex exmem memwb).length ≤ 4 := by
  have hlatch : ∀ {α : Type} (o : Option α), o.toList.length ≤ 1 := by
    intro α o
    cases o <;> simp
  have h1 := hlatch (ifid.map (ifidRecord sub c))
  have h2 := hlatch (idex.map (stageRecord c .idex))
  have h3 := hlatch (exmem.map (stageRecord c .exmem))
  have h4 := hlatch (memwb.map (stageRecord c .memwb))
  simp only [slotRecords, List.length_append]
  omega

theorem ifidRecord_cycle (sub : Subset) (c : Nat) (f : Fetched) : (ifidRecord sub c f).cycle = c := by
  unfold ifidRecord
  cases (decodeStage sub f.word f.pc).1 <;> rfl

theorem cycle_of_mem_slotRecords {sub : Subset} {c : Nat} {ifid : Option Fetched} {idex exmem memwb : Option Stage}
    {r : SlotRecord} (h : r ∈ slotRecords sub c ifid idex exmem memwb) : r.cycle = c := by
  simp only [slotRecords, List.mem_append, Option.mem_toList, Option.map_eq_some_iff] at h
  obtain ((⟨f, -, rfl⟩ | ⟨d, -, rfl⟩) | ⟨d, -, rfl⟩) | ⟨d, -, rfl⟩ := h
  · exact ifidRecord_cycle sub c f
  · rfl
  · rfl
  · rfl

/-- Settles O39: the slots' records are at most one per latch, and none exactly when no latch is occupied. -/
theorem completedCycleAppendsOneToFourRecords : Obligations.CompletedCycleAppendsOneToFourRecords := by
  intro s t h
  obtain ⟨m, e, f, -, rfl⟩ := completes_parts h
  refine ⟨rfl, _, completeCycle_trace s m.1 m.2 e f, ?_⟩
  rw [completeCycle_ifid, completeCycle_idex, completeCycle_exmem, completeCycle_memwb, completeCycle_cycle]
  generalize (f.idex.map fun d => withTags d e m.1) = idex
  have hnil := slotRecords_eq_nil_iff (sub := s.params.subset) (c := s.cycle + 1) (ifid := f.ifid) (idex := idex)
    (exmem := e) (memwb := m.1)
  have hlen := length_slotRecords_le s.params.subset (s.cycle + 1) f.ifid idex e m.1
  have hcycle := fun r => cycle_of_mem_slotRecords (sub := s.params.subset) (c := s.cycle + 1) (ifid := f.ifid)
    (idex := idex) (exmem := e) (memwb := m.1) (r := r)
  rw [traceRecords_eq]
  cases hslots : slotRecords s.params.subset (s.cycle + 1) f.ifid idex e m.1 with
  | nil =>
    refine ⟨le_rfl, by simp, fun r hr => ?_, iff_of_true rfl (hnil.1 hslots)⟩
    obtain rfl := List.mem_singleton.1 hr
    rfl
  | cons q qs =>
    rw [hslots] at hnil hlen hcycle
    refine ⟨by simp, by simpa using hlen, fun r hr => ?_, iff_of_false (by simp) fun hempty => ?_⟩
    · obtain ⟨q', hq', rfl⟩ := List.mem_map.1 hr
      exact hcycle q' hq'
    · cases hnil.2 hempty

/-! ## The record of IF/ID (R247) -/

/-- A word other than 0 is unrecognized or is an instruction of the decoder (R95, R96, R110). -/
theorem decode_cases {sub : Subset} {w : Word} (hw : w ≠ 0) (pc : Word) :
    (decode sub w = .error .unrecognized ∧ decodeStage sub w pc = (none, true)) ∨
      ∃ d, decodeStage sub w pc = (some d, false) := by
  unfold decode decodeStage
  rw [if_neg hw, if_neg hw]
  cases matchRow sub w with
  | none => exact .inl ⟨rfl, rfl⟩
  | some r => exact .inr ⟨_, rfl⟩

/-- IF/ID of a completed cycle never holds the word 0: it is held, fetched as a bubble, or flushed (R31, R95). -/
theorem frontEnd_ifid_nonzero {s : State} {c : Nat} {k : Decision} {f : FrontEnd} {g : Fetched}
    (hi : invariantsHold s = true) (hf : frontEnd s c k = .ok f) (hg : f.ifid = some g) : g.word ≠ 0 := by
  cases k with
  | normal =>
    obtain ⟨q, hq, rfl⟩ := frontEnd_normal.1 hf
    obtain ⟨-, rfl⟩ | ⟨-, w, -, rfl⟩ := fetchStep_ok.1 hq
    · cases hg
    · obtain ⟨hw, hg⟩ := Option.ite_none_left_eq_some.1 hg
      cases hg
      exact hw
  | stall =>
    obtain ⟨-, -, hnonzero, -⟩ := invariantsHold_iff.1 hi
    cases hf
    exact hnonzero g hg
  | flush target =>
    cases hf
    cases hg

/-- Settles O40: the four parts of the list are the records of the four latches. -/
theorem traceShowsTheOccupiedLatches : Obligations.TraceShowsTheOccupiedLatches := by
  intro s t h stage unrecognized
  have hparams := completes_params h
  have hif : ∀ g, t.ifid = some g → g.word ≠ 0 := by
    obtain ⟨m, e, f, ⟨-, -, hf⟩, rfl⟩ := completes_parts h
    obtain ⟨-, hinv⟩ := running_of_completes h
    exact fun g => frontEnd_ifid_nonzero hinv hf
  have htrace : t.trace = s.trace ++ traceRecords s.params.subset t.cycle t.ifid t.idex t.exmem t.memwb := by
    obtain ⟨m, e, f, -, rfl⟩ := completes_parts h
    exact completeCycle_trace s m.1 m.2 e f
  rw [traceRecords_eq, slotRecords, List.map_append, List.map_append, List.map_append] at htrace
  have latch : ∀ (l : Latch) (o : Option Stage),
      (o = none → (o.map (stageRecord t.cycle l)).toList.map TraceRecord.slot = []) ∧
      ∀ d, o = some d → (o.map (stageRecord t.cycle l)).toList.map TraceRecord.slot = [stage l d d.tag1 d.tag2] := by
    refine fun l o => ⟨?_, fun d => ?_⟩
    · rintro rfl; rfl
    · rintro rfl; rfl
  obtain ⟨idexNone, idexSome⟩ := latch .idex t.idex
  obtain ⟨exmemNone, exmemSome⟩ := latch .exmem t.exmem
  obtain ⟨memwbNone, memwbSome⟩ := latch .memwb t.memwb
  refine ⟨_, _, _, _, htrace, fun hg => ?bubble, fun g hg => ?fetched, idexNone, idexSome, exmemNone, exmemSome,
    memwbNone, memwbSome⟩
  case bubble => rw [hg]; rfl
  case fetched =>
    rw [hg, hparams, Option.map_some, Option.toList_some, List.map_singleton, ifidRecord]
    obtain ⟨herror, hnone⟩ | ⟨d, hsome⟩ := decode_cases (sub := s.params.subset) (hif g hg) g.pc
    · refine .inl ⟨herror, ?_⟩
      rw [hnone]
      rfl
    · refine .inr ⟨d, hsome, ?_⟩
      obtain ⟨-, -, hword, hpc⟩ := decodeStage_decoded (congrArg Prod.fst hsome)
      rw [hsome]
      simp only [stage, hword, hpc]
      rfl

end Sys2Proof.Machine
end

section
/-! PROOFS. Forwarding (R214 to R220), the load-use stall (R221 to R223) and the flush of a taken branch (R225, R226). -/

namespace Sys2Proof.Machine

/-! ## ID/EX of a consistent state (R268) -/

/-- ID/EX of a consistent state holds a decoded instruction with the tags computed against the present latches (R220). -/
theorem idex_of_consistent {s : State} {d : Stage} (hs : consistent s = true) (hfault : faulted s = false)
    (hd : s.idex = some d) :
    decodedStage s.params.subset d = true ∧ d.tag1 = forwardTag d.uses1 d.rs1 s.exmem s.memwb ∧
      d.tag2 = forwardTag d.uses2 d.rs2 s.exmem s.memwb := by
  simp only [consistent, hfault, pipelineSound, latchSound, idexSound, hd, Bool.and_eq_true, Bool.false_or, beq_iff_eq] at hs
  obtain ⟨-, ⟨⟨⟨⟨⟨-, hdec, -⟩, -⟩, -⟩, htags⟩, -⟩, -⟩ := hs
  exact ⟨hdec, congrArg Stage.tag1 htags, congrArg Stage.tag2 htags⟩

theorem not_faulted_of_running {s : State} (h : s.status = .running) : faulted s = false := by
  unfold faulted; rw [h]

/-! ## Forwarded operands (R214, R218, R219) -/

/-- No instruction writes `x0` (R218). -/
theorem writesReg_zero (l : Option Stage) : writesReg l 0 = false := by
  cases l with
  | none => rfl
  | some d =>
    refine Bool.eq_false_of_not_eq_true fun h => ?_
    obtain ⟨-, hne, hzero⟩ := writesReg_some.1 h
    exact hne hzero

/-- An operand selected by the tag of R218 is the newest value: each tag stands for one of the three places to look. -/
theorem operand_forwardTag (s : State) (r : RegIx) :
    operand s true (forwardTag true r s.exmem s.memwb) r = newestValue s r := by
  by_cases hr : r = 0
  · subst hr
    rw [forwardTag_none.2 (.inr ⟨writesReg_zero _, writesReg_zero _⟩)]
    rfl
  rw [newestValue, if_neg hr]
  cases hex : writesReg s.exmem r with
  | true => rw [forwardTag_ex.2 ⟨rfl, hex⟩, if_pos rfl, operand_tag_ex]
  | false =>
    rw [if_neg Bool.false_ne_true]
    cases hwb : writesReg s.memwb r with
    | true => rw [forwardTag_mem.2 ⟨rfl, hex, hwb⟩, if_pos rfl, operand_tag_mem]
    | false =>
      rw [forwardTag_none.2 (.inr ⟨hex, hwb⟩), operand_tag_none, read_writeback, hwb]

/-- Settles O41, source by source: a source in use has its tag of R218. -/
theorem operandsAreTheNewestValues : Obligations.OperandsAreTheNewestValues := by
  intro s d hs hfault hd
  obtain ⟨-, htag1, htag2⟩ := idex_of_consistent hs hfault hd
  have selects : ∀ (uses : Bool) (r : RegIx),
      operand s uses (forwardTag uses r s.exmem s.memwb) r = if uses then newestValue s r else 0 := by
    intro uses r
    cases uses with
    | false => exact operand_unused s _ r
    | true => exact operand_forwardTag s r
  rw [operand1, htag1, operand2, htag2]
  exact ⟨selects d.uses1 d.rs1, selects d.uses2 d.rs2⟩

/-- Settles O42: a tag MEM says that MEM/WB writes the register, and writeback writes the forwarded value. -/
theorem memTagAgreesWithWriteback : Obligations.MemTagAgreesWithWriteback := by
  intro s d hs hfault hd
  obtain ⟨-, htag1, htag2⟩ := idex_of_consistent hs hfault hd
  have agrees : ∀ (uses : Bool) (r : RegIx), forwardTag uses r s.exmem s.memwb = .mem →
      memValue s = Regs.read (writeback s) r := by
    intro uses r htag
    obtain ⟨-, -, hwrites⟩ := forwardTag_mem.1 htag
    rw [read_writeback, if_pos hwrites]
  exact ⟨fun h => agrees _ _ (htag1.symm.trans h), fun h => agrees _ _ (htag2.symm.trans h)⟩

/-! ## The load-use stall (R221 to R223) -/

/-- Only loads assert MemRead (R113). -/
theorem ctrl_of_memRead {sub : Subset} {d : Stage} (h : decodedStage sub d = true) (hread : d.ctrl.memRead = true) :
    d.ctrl = controlsOf .l := by
  obtain ⟨-, -, -, hctrl, -⟩ := decodedStage_spec h
  rw [hctrl] at hread ⊢
  cases hlay : d.op.layout <;> rw [hlay] at hread
  case l => rfl
  all_goals cases hread

/-- The candidate of decode is what the decoder gives for the word in IF/ID, and then there is no diagnostic (R110, R116). -/
theorem candidate_eq_some_iff {s : State} {c : Stage} : (candidate s).1 = some c ↔
    ∃ f, s.ifid = some f ∧ decodeStage s.params.subset f.word f.pc = (some c, false) := by
  unfold candidate
  cases s.ifid with
  | none => simp
  | some f =>
    simp only [Option.some.injEq, exists_eq_left']
    refine ⟨fun h => ?_, congrArg Prod.fst⟩
    have hpair : decodeStage s.params.subset f.word f.pc = (some c, _) := Prod.ext h rfl
    obtain ⟨hdiag, -⟩ := decodeStage_eq_some_iff.1 hpair
    exact Prod.ext h hdiag

/-- The hazard unit's condition is a load-use pair (R221). -/
theorem hazard_candidate_iff {s : State} :
    hazard (candidate s).1 s.idex = true ↔ ∃ x c, loadUsePair s x c := by
  constructor
  · intro h
    cases hid : s.idex with
    | none => rw [hid, hazard_none_right] at h; cases h
    | some x =>
      cases hc : (candidate s).1 with
      | none => rw [hc, hazard_none_left] at h; cases h
      | some c =>
        rw [hid, hc] at h
        exact ⟨x, c, hid, candidate_eq_some_iff.1 hc, hazard_some.1 h⟩
  · rintro ⟨x, c, hid, hc, hpair⟩
    rw [hid, candidate_eq_some_iff.2 hc]
    exact hazard_some.2 hpair

/-- With a load in ID/EX no branch is there, so a load-use pair decides the cycle (R211). -/
theorem decisionOf_stall_iff {s : State} (hs : consistent s = true) (hfault : faulted s = false) :
    decisionOf s (takenTarget s) = .stall ↔ ∃ x c, loadUsePair s x c := by
  rw [decisionOf_stall, hazard_candidate_iff]
  refine and_iff_right_of_imp ?_
  rintro ⟨x, c, hid, -, hread, -⟩
  obtain ⟨hdec, -⟩ := idex_of_consistent hs hfault hid
  exact takenTarget_of_no_branch hid (by rw [ctrl_of_memRead hdec hread]; rfl)

/-- A completed cycle with a load-use pair holds the front end (R222). -/
theorem frontEnd_held_of_loadUsePair {s t : State} {x c : Stage} (hs : consistent s = true) (h : completes s t)
    (hpair : loadUsePair s x c) : t.pc = s.pc ∧ t.ifid = s.ifid ∧ t.idex = none ∧ t.diags = s.diags := by
  obtain ⟨hrun, -⟩ := running_of_completes h
  have hfront := decisionSetsTheFrontEnd s t h
  rwa [(decisionOf_stall_iff hs (not_faulted_of_running hrun)).2 ⟨x, c, hpair⟩] at hfront

/-- Settles O43: the decision is that of a load-use pair, and O36 and O37 give what such a cycle does. -/
theorem loadUseHazardStalls : Obligations.LoadUseHazardStalls := by
  intro s hs hfault
  refine ⟨decisionOf_stall_iff hs hfault, fun t x c h hpair => ?_⟩
  obtain ⟨hpc, hif, hid, hdiags⟩ := frontEnd_held_of_loadUsePair hs h hpair
  obtain ⟨hload, -, hread, -⟩ := hpair
  obtain ⟨-, hmoves⟩ := executeMovesIdExToExMem s t h
  obtain ⟨alu, sdata, hexmem⟩ := hmoves x hload
  exact ⟨hpc, hif, hid, hdiags, _, hexmem, rfl, rfl, hread⟩

/-- With a bubble in ID/EX nothing is taken and nothing is waited for (R211). -/
theorem decisionOf_of_no_idex {s : State} (h : s.idex = none) : decisionOf s (takenTarget s) = .normal :=
  decisionOf_normal.2 ⟨by unfold takenTarget; rw [h], by rw [h]; rfl⟩

/-- A completed cycle with a bubble in ID/EX lets the candidate through decode (R227). -/
theorem idex_of_completes_bubble {s t : State} (h : completes s t) (hid : s.idex = none) :
    t.idex = (candidate s).1.map fun d => withTags d t.exmem t.memwb := by
  have hfront := decisionSetsTheFrontEnd s t h
  rw [decisionOf_of_no_idex hid] at hfront
  obtain ⟨hidex, -⟩ := hfront
  exact hidex

/-- Decode reads IF/ID and the launch parameters alone. -/
theorem candidate_congr {s t : State} (hif : t.ifid = s.ifid) (hp : t.params = s.params) : candidate t = candidate s := by
  unfold candidate; rw [hif, hp]

/-- Settles O44: the load has moved on two latches when the consumer enters ID/EX, with a bubble between them. -/
theorem stallLastsOneCycle : Obligations.StallLastsOneCycle := by
  intro s t u x c hst htu hs hpair
  obtain ⟨-, hif, hbubble, -⟩ := frontEnd_held_of_loadUsePair hs hst hpair
  obtain ⟨hload, hcand, hread, hrd, -⟩ := hpair
  refine ⟨hbubble, decisionOf_of_no_idex hbubble, withTags c u.exmem u.memwb, ?consumer, rfl, rfl, ?tags⟩
  case consumer =>
    rw [idex_of_completes_bubble htu hbubble, candidate_congr hif (completes_params hst), candidate_eq_some_iff.2 hcand]
    rfl
  case tags =>
    obtain ⟨hrun, -⟩ := running_of_completes hst
    obtain ⟨hdec, -⟩ := idex_of_consistent hs (not_faulted_of_running hrun) hload
    obtain ⟨-, hmoves⟩ := executeMovesIdExToExMem s t hst
    obtain ⟨alu, sdata, hexmem⟩ := hmoves x hload
    obtain ⟨hexmemBubble, -⟩ := executeMovesIdExToExMem t u htu
    obtain ⟨m, e, f, ⟨hm, -, -⟩, rfl⟩ := completes_parts htu
    obtain ⟨v, hmemwb⟩ := memoryStep_memwb hexmem hm
    obtain rfl : e = none := hexmemBubble hbubble
    have hwrites : writesReg m.1 x.rd = true := by
      rw [hmemwb]
      exact writesReg_some.2 ⟨by rw [ctrl_of_memRead hdec hread]; rfl, hrd, rfl⟩
    exact ⟨fun huses hr => forwardTag_mem.2 ⟨huses, rfl, hr ▸ hwrites⟩,
      fun huses hr => forwardTag_mem.2 ⟨huses, rfl, hr ▸ hwrites⟩⟩

/-! ## The cost of a taken branch (R226) -/

/-- A word that decodes to an instruction gives a stage register that holds it (R110, R111). -/
theorem decodeStage_of_decode {sub : Subset} {w : Word} {i : Instr} (h : decode sub w = .ok i) (pc : Word) :
    ∃ d, decodeStage sub w pc = (some d, false) ∧ d.pc = pc ∧ d.word = w ∧ d.instr = i := by
  obtain ⟨hw, r, hm, rfl⟩ := decode_ok h
  refine ⟨stageOf r.op pc w, ?_, rfl, rfl, rfl⟩
  rw [decodeStage, if_neg hw, hm]

/-- A completed cycle with a bubble in ID/EX puts the instruction fetched at `pc` in IF/ID (R228). -/
theorem ifid_of_completes_bubble {s t : State} {w : Word} {i : Instr} (h : completes s t) (hid : s.idex = none)
    (hlt : s.pc.toNat < s.params.progEnd) (hw : fetchWord s.params s.pc = some w)
    (hdec : decode s.params.subset w = .ok i) : t.ifid = some ⟨s.pc, w⟩ := by
  have hfront := decisionSetsTheFrontEnd s t h
  rw [decisionOf_of_no_idex hid] at hfront
  obtain ⟨-, -, hfetches, -⟩ := hfront
  obtain ⟨-, w', hw', hif⟩ := hfetches hlt
  obtain rfl := Option.some.inj (hw.symm.trans hw')
  obtain ⟨hne, -⟩ := decode_ok hdec
  rw [hif, if_neg hne]

/-- Settles O46: the flush leaves IF/ID and ID/EX bubbles, so the target's word is fetched in the second cycle and decoded in the
third. -/
theorem takenBranchCostsTwoBubbles : Obligations.TakenBranchCostsTwoBubbles := by
  intro s t u v target w i hst htu huv htaken hlt hw hdec
  obtain ⟨hpc, hif, hbubble, -⟩ := takenBranchFlushes s t target hst htaken
  have ht : t.params = s.params := completes_params hst
  have hu : u.params = s.params := (completes_params htu).trans ht
  have hbubble' : u.idex = none := by
    rw [idex_of_completes_bubble htu hbubble, candidate_of_no_ifid hif]
    rfl
  have hfetched : u.ifid = some ⟨target, w⟩ := by
    rw [← hpc]
    exact ifid_of_completes_bubble htu hbubble (by rwa [hpc, ht]) (by rwa [hpc, ht]) (by rwa [ht])
  obtain ⟨d, hd, hdpc, -, hinstr⟩ := decodeStage_of_decode hdec target
  have hcand : (candidate u).1 = some d := candidate_eq_some_iff.2 ⟨_, hfetched, by rw [hu]; exact hd⟩
  refine ⟨hbubble, hbubble', withTags d v.exmem v.memwb, ?_, hdpc, hinstr⟩
  rw [idex_of_completes_bubble huv hbubble', hcand]
  rfl

end Sys2Proof.Machine
end

section
/-! PROOFS. What a step is: the cycle of the instruction in execute, or one of the two terminations (R232, R233, R250); and that
every run stops (R240). -/

namespace Sys2Proof.Machine

/-! ## The instruction in execute (R250) -/

/-- Settles O21: with ID/EX occupied the run is not finished, so the step is the cycle of that instruction. -/
theorem stepRunsTheInstructionInExecute : Obligations.StepRunsTheInstructionInExecute := by
  intro s d i hrun hcap hid hdec hi
  have hunfinished : finished s = false := by
    refine Bool.eq_false_of_not_eq_true fun hfin => ?_
    obtain ⟨-, -, hnone, -⟩ := finished_iff.1 hfin
    cases hid.symm.trans hnone
  obtain rfl : d.instr = i := Except.ok.inj ((decodedStage_decode hdec).symm.trans hi)
  rw [step_cycle hrun hunfinished hcap, executed_of_idex hid, exec_instr hid]

/-- A placed word that is an instruction stands in ID/EX, decoded and tagged; the run is where it was (log 10). -/
theorem placeInstruction_of_decodeStage {s : State} {w : Word} {d : Stage} {dg : Bool}
    (h : decodeStage s.params.subset w s.pc = (some d, dg)) :
    (placeInstruction s w).idex = some (withTags d s.exmem s.memwb) ∧ (placeInstruction s w).status = s.status ∧
      (placeInstruction s w).cycle = s.cycle ∧ (placeInstruction s w).params.cycleCap = s.params.cycleCap ∧
      (placeInstruction s w).params.subset = s.params.subset := by
  unfold placeInstruction
  rw [h]
  exact ⟨rfl, rfl, rfl, rfl, rfl⟩

theorem withFetchWord_toNat (s : State) (w : Word) : s.withFetchWord 32 w.toNat = placeInstruction s w := by
  rw [State.withFetchWord, Nat.mod_eq_of_lt w.isLt, BitVec.ofNat_toNat, BitVec.setWidth_eq]

/-- Settles O23: the encoded word decodes to its instruction, which placing puts in ID/EX. -/
theorem placedWordRunsNext : Obligations.PlacedWordRunsNext := by
  intro i w henc
  obtain ⟨hwf, -⟩ := Option.ite_none_right_eq_some.1 henc
  obtain ⟨w', henc', hdec⟩ := decodeInvertsEncode .full i (.inl rfl) hwf
  obtain rfl : w = w' := Option.some.inj (henc.symm.trans henc')
  obtain ⟨d, hd, -, hword, -⟩ := decodeStage_of_decode hdec State.reset.pc
  obtain ⟨hid, hrun, hcycle, hcap, hsub⟩ := placeInstruction_of_decodeStage (s := State.reset) hd
  obtain ⟨hdecoded, -⟩ := decodeStage_decoded (congrArg Prod.fst hd)
  rw [withFetchWord_toNat]
  refine stepRunsTheInstructionInExecute _ _ i hrun ?cap hid ?decoded ?decodes
  case cap => rw [hcycle, hcap]; decide
  case decoded => rw [hsub, decodedStage_withTags]; exact hdecoded
  case decodes => rw [hsub, withTags_word, hword]; exact hdec

/-! ## Termination (R232, R233) -/

/-- Settles O25: the two tests of `step`, in their order. -/
theorem terminationTests : Obligations.TerminationTests := by
  intro s hrun hinv
  refine ⟨fun hdone => step_halts hrun hinv (finished_iff.2 hdone), fun hnot hcap => step_capped hrun hinv ?_ hcap⟩
  exact Bool.eq_false_of_not_eq_true fun hfin => hnot (finished_iff.1 hfin)

/-- What a step that answers has done: nothing, a termination, a cycle that faults, or a completed cycle. -/
theorem step_outcomes {s t : State} (h : step s = .next t) :
    (s.status ≠ .running ∧ t = s)
    ∨ (finished s = true ∧ t = { s with status := .halted })
    ∨ (s.params.cycleCap ≤ s.cycle ∧ t = { s with status := .nonconvergent })
    ∨ (mayCycle s ∧ faulted t = true ∧ t.cycle = s.cycle + 1)
    ∨ completes s t := by
  obtain hfinal | ⟨hrun, hinv, ⟨hfin, rfl⟩ | ⟨-, hcap, rfl⟩ | ⟨hfin, hcap, hcycle⟩⟩ := step_cases h
  · exact .inl hfinal
  · exact .inr (.inl ⟨hfin, rfl⟩)
  · exact .inr (.inr (.inl ⟨hcap, rfl⟩))
  · have hmay : mayCycle s := ⟨hrun, hinv, hfin, hcap⟩
    obtain ⟨-, ⟨k, pc, info, -, rfl⟩ | ⟨m, k, pc, info, -, -, rfl⟩ | ⟨m, x, f, -, -, -, rfl⟩⟩ := cycle_next hcycle
    · exact .inr (.inr (.inr (.inl ⟨hmay, rfl, rfl⟩)))
    · exact .inr (.inr (.inr (.inl ⟨hmay, rfl, rfl⟩)))
    · exact .inr (.inr (.inr (.inr ⟨hmay, h, hrun⟩)))

theorem completes_cycle_succ {s t : State} (h : completes s t) : t.cycle = s.cycle + 1 := by
  obtain ⟨m, e, f, -, rfl⟩ := completes_parts h
  rfl

/-! ## No cycle of a run is refused (R268) -/

/-- What lets a running state step: launch parameters in their domains, the invariants of R268, and decoded instructions in ID/EX
and EX/MEM. -/
def steppable (s : State) : Prop :=
  s.params.wf = true ∧ invariantsHold s = true ∧
    (∀ d, s.idex = some d → decodedStage s.params.subset d = true) ∧
    (∀ e, s.exmem = some e → decodedStage s.params.subset e = true)

theorem steppable_launch {p : Params} (hp : p.wf = true) : steppable (State.launch p) := by
  have hzero : (State.launch p).x[0] = 0 := by rw [launch_x, Regs.ofWords_entry_zero]
  have hifid : ∀ f, (State.launch p).ifid ≠ some f := by simp
  have hidex : ∀ d, (State.launch p).idex ≠ some d := by simp
  have hexmem : ∀ e, (State.launch p).exmem ≠ some e := by simp
  have hinv : invariantsHold (State.launch p) = true := invariantsHold_iff.2
    ⟨hzero, goodTarget_zero p, fun f hf => absurd hf (hifid f), fun d _ hd => absurd hd (hidex d)⟩
  exact ⟨hp, hinv, fun d hd => absurd hd (hidex d), fun e he => absurd he (hexmem e)⟩

/-- The cycle of a steppable state answers: each part answers or raises a fault of the run. -/
theorem cycle_answers {s : State} (hs : steppable s) : ∃ t, cycle s (executed s) = .next t := by
  obtain ⟨-, hinv, -, hexmem⟩ := hs
  cases hm : memoryStep s with
  | error e =>
    obtain ⟨d, hd, -⟩ := memoryStep_error.1 hm
    obtain ⟨n, k, -, -, rfl⟩ := memoryStep_decoded_error hd (hexmem d hd) hm
    exact ⟨_, cycle_memory_fault hinv hm⟩
  | ok m =>
    cases hx : executed s with
    | error e =>
      obtain ⟨d, target, -, -, -, rfl⟩ := executed_error hx
      exact ⟨_, cycle_execute_fault hinv hm⟩
    | ok x =>
      obtain ⟨f, hf⟩ := frontEnd_answers hinv (s.cycle + 1) (decisionOf s x.target)
      exact ⟨_, cycle_complete hinv hm hf⟩

theorem step_answers {s : State} (hs : steppable s) (hrun : s.status = .running) : ∃ t, step s = .next t := by
  have hcycle := cycle_answers hs
  obtain ⟨-, hinv, -⟩ := hs
  cases hfin : finished s with
  | true => exact ⟨_, step_halts hrun hinv hfin⟩
  | false =>
    by_cases hcap : s.cycle < s.params.cycleCap
    · rwa [step_cycle hrun hfin hcap]
    · exact ⟨_, step_capped hrun hinv hfin (Nat.not_lt.1 hcap)⟩

/-- The state after a completed cycle violates no invariant of R268. -/
theorem invariantsHold_of_completes {s t : State} (hp : s.params.wf = true) (h : completes s t) :
    invariantsHold t = true := by
  obtain ⟨-, hinv⟩ := running_of_completes h
  obtain ⟨m, e, f, ⟨-, hx, hf⟩, rfl⟩ := completes_parts h
  obtain ⟨hzero, hpc, -⟩ := invariantsHold_iff.1 hinv
  obtain ⟨-, hgood⟩ := executed_target hx
  have hnoLoad := exTagNamesNoLoad_iff.1 (completeCycle_exTag (m := m.1) (mem := m.2) hx hf)
  refine invariantsHold_iff.2 ⟨(writeback_entry_zero s).trans hzero, ?pc, fun g => frontEnd_ifid_nonzero hinv hf, ?tags⟩
  case pc => exact frontEnd_pc (s := s) hp hpc (fun a ha => hgood a (decisionOf_flush.1 ha)) hf
  case tags =>
    intro d e hd he hread
    exact ⟨fun htag => Bool.false_ne_true ((hnoLoad d e hd he (.inl htag)).symm.trans hread),
      fun htag => Bool.false_ne_true ((hnoLoad d e hd he (.inr htag)).symm.trans hread)⟩

/-- A completed cycle keeps a state steppable: ID/EX takes what the decoder gave, EX/MEM what ID/EX held. -/
theorem steppable_of_completes {s t : State} (hs : steppable s) (h : completes s t) : steppable t := by
  obtain ⟨hp, -, hidex, -⟩ := hs
  have hinv := invariantsHold_of_completes hp h
  obtain ⟨m, e, f, ⟨-, hx, hf⟩, rfl⟩ := completes_parts h
  refine ⟨hp, hinv, fun d hd => ?idex, fun e he => ?exmem⟩
  case idex =>
    obtain ⟨c, hc, rfl⟩ := Option.map_eq_some_iff.1 hd
    obtain ⟨-, hleaves⟩ := frontEnd_idex hf hc
    obtain ⟨g, -, hdecoded⟩ := candidate_eq_some_iff.1 hleaves
    obtain ⟨hdec, -⟩ := decodeStage_decoded (congrArg Prod.fst hdecoded)
    exact hdec
  case exmem =>
    obtain ⟨d, alu, sdata, hd, rfl⟩ := executed_exmem hx he
    exact hidex d hd

/-! ## Every run stops (R240) -/

theorem run_of_final {s : State} (h : s.status ≠ .running) (n : Nat) : Host.Core.run Sys2Proof.core n s = .next s := by
  induction n with
  | zero => rfl
  | succ n ih => exact (run_next Sys2Proof.core (finalStatesStay s h)).trans ih

/-- The run has stopped, no later than at cycle `cap`: in HALTED, in NONCONVERGENT at the cap, or in FAULT. -/
def stoppedBy (cap : Nat) (t : State) : Prop :=
  t.cycle ≤ cap ∧ (t.status = .halted ∨ (t.status = .nonconvergent ∧ t.cycle = cap) ∨ faulted t = true)

theorem final_of_stoppedBy {cap : Nat} {t : State} (h : stoppedBy cap t) : t.status ≠ .running := by
  obtain ⟨-, hhalted | ⟨hcapped, -⟩ | hfault⟩ := h
  · rw [hhalted]; nofun
  · rw [hcapped]; nofun
  · intro hrun
    rw [not_faulted_of_running hrun] at hfault
    cases hfault

/-- More steps than cycles are left to the cap stop the run: every step that does not stop it is a cycle. -/
theorem run_stops {n : Nat} {s : State} (hs : steppable s) (hrun : s.status = .running)
    (hle : s.cycle ≤ s.params.cycleCap) (hn : s.params.cycleCap < s.cycle + n) :
    ∃ t, Host.Core.run Sys2Proof.core n s = .next t ∧ stoppedBy s.params.cycleCap t := by
  induction n generalizing s with
  | zero => omega
  | succ n ih =>
    obtain ⟨t, hstep⟩ := step_answers hs hrun
    have stops : stoppedBy s.params.cycleCap t →
        ∃ t, Host.Core.run Sys2Proof.core (n + 1) s = .next t ∧ stoppedBy s.params.cycleCap t := fun ht =>
      ⟨t, (run_next Sys2Proof.core hstep).trans (run_of_final (final_of_stoppedBy ht) n), ht⟩
    obtain ⟨hfinal, -⟩ | ⟨-, rfl⟩ | ⟨hcap, rfl⟩ | ⟨⟨-, -, -, hlt⟩, hfault, hcycle⟩ | hdone := step_outcomes hstep
    · exact absurd hrun hfinal
    · exact stops ⟨hle, .inl rfl⟩
    · exact stops ⟨hle, .inr (.inl ⟨rfl, le_antisymm hle hcap⟩)⟩
    · exact stops ⟨by omega, .inr (.inr hfault)⟩
    · have hcycle := completes_cycle_succ hdone
      have hparams := completes_params hdone
      have hsteppable := steppable_of_completes hs hdone
      obtain ⟨⟨-, -, -, hlt⟩, -, hrun'⟩ := hdone
      obtain ⟨u, hu, hstopped⟩ := ih hsteppable hrun' (by rw [hparams]; omega) (by rw [hparams]; omega)
      exact ⟨u, (run_next Sys2Proof.core hstep).trans hu, hparams ▸ hstopped⟩

/-- Settles O27: the launch state is steppable, at cycle 0. -/
theorem everyRunStops : Obligations.EveryRunStops := by
  intro p hp
  have hlt : p.cycleCap < (State.launch p).cycle + (p.cycleCap + 1) := by rw [launch_cycle]; omega
  exact run_stops (steppable_launch hp) rfl (Nat.zero_le _) hlt

end Sys2Proof.Machine
end

section
/-! PROOFS. Every word a run fetches is accounted for (R237): it is retired, discarded by a flush, or unrecognized at decode. -/

namespace Sys2Proof.Machine

/-! ## The pipeline's contents -/

/-- The number of occupied latches. -/
def occupied (s : State) : Nat :=
  s.ifid.isSome.toNat + s.idex.isSome.toNat + s.exmem.isSome.toNat + s.memwb.isSome.toNat

theorem occupied_of_finished {s : State} (h : finished s = true) : occupied s = 0 := by
  obtain ⟨-, hif, hid, hex, hwb⟩ := finished_iff.1 h
  simp [occupied, hif, hid, hex, hwb]

/-- The words that went into the pipeline, which held `before` of them, are those that left it and the `after` it holds now. -/
def Ledger.balances (l : Ledger) (before after : Nat) : Prop :=
  l.retired + l.flushed + l.unrecognized + after = l.fetched + before

/-- The word in IF/ID is an instruction or unrecognized (R31, R96). -/
theorem ifid_eq_candidate_add_diag {s : State} (h : invariantsHold s = true) :
    s.ifid.isSome.toNat = (candidate s).1.isSome.toNat + (candidate s).2.toNat := by
  obtain ⟨-, -, hnonzero, -⟩ := invariantsHold_iff.1 h
  unfold candidate
  cases hif : s.ifid with
  | none => rfl
  | some f =>
    dsimp only
    obtain ⟨-, hdec⟩ | ⟨d, hdec⟩ := decode_cases (sub := s.params.subset) (hnonzero f hif) f.pc
    · rw [hdec]; rfl
    · rw [hdec]; rfl

/-- Past decode a completed cycle moves every instruction on by one latch. -/
theorem isSome_of_completes {s t : State} (h : completes s t) :
    t.exmem.isSome = s.idex.isSome ∧ t.memwb.isSome = s.exmem.isSome := by
  refine ⟨?exmem, ?memwb⟩
  case exmem =>
    obtain ⟨hbubble, hmoves⟩ := executeMovesIdExToExMem s t h
    cases hid : s.idex with
    | none => rw [hbubble hid]
    | some d =>
      obtain ⟨alu, sdata, hexmem⟩ := hmoves d hid
      rw [hexmem]
      rfl
  case memwb =>
    obtain ⟨m, e, f, ⟨hm, -, -⟩, rfl⟩ := completes_parts h
    cases hex : s.exmem with
    | none =>
      rw [memoryStep_none hex] at hm
      cases hm
      rfl
    | some e =>
      obtain ⟨v, hmemwb⟩ := memoryStep_memwb hex hm
      rw [completeCycle_memwb, hmemwb]
      rfl

/-! ## The ledger of one cycle -/

theorem cycleLedger_of_normal {s t : State} (h : decisionOf s (takenTarget s) = .normal) :
    cycleLedger s t = ⟨t.ifid.isSome.toNat, 0, (candidate s).2.toNat, s.memwb.isSome.toNat⟩ := by
  simp [cycleLedger, h]

theorem cycleLedger_of_stall {s t : State} (h : decisionOf s (takenTarget s) = .stall) :
    cycleLedger s t = ⟨0, 0, 0, s.memwb.isSome.toNat⟩ := by
  simp [cycleLedger, h]

theorem cycleLedger_of_flush {s t : State} {target : Word} (h : decisionOf s (takenTarget s) = .flush target) :
    cycleLedger s t = ⟨0, s.ifid.isSome.toNat, 0, s.memwb.isSome.toNat⟩ := by
  simp [cycleLedger, h]

/-- The ledger of a completed cycle balances, under each decision. -/
theorem cycleLedger_balances {s t : State} (h : completes s t) :
    (cycleLedger s t).balances (occupied s) (occupied t) := by
  obtain ⟨-, hinv⟩ := running_of_completes h
  obtain ⟨hexmem, hmemwb⟩ := isSome_of_completes h
  have hfront := decisionSetsTheFrontEnd s t h
  cases hk : decisionOf s (takenTarget s) with
  | normal =>
    rw [hk] at hfront
    obtain ⟨hidex, -⟩ := hfront
    have hdecoded := ifid_eq_candidate_add_diag hinv
    rw [cycleLedger_of_normal hk]
    simp only [Ledger.balances, occupied, hexmem, hmemwb, hidex, Option.isSome_map]
    omega
  | stall =>
    rw [hk] at hfront
    obtain ⟨-, hif, hidex, -⟩ := hfront
    rw [cycleLedger_of_stall hk]
    simp only [Ledger.balances, occupied, hexmem, hmemwb, hif, hidex, Option.isSome_none, Bool.toNat_false]
    omega
  | flush target =>
    rw [hk] at hfront
    obtain ⟨-, hif, hidex, -⟩ := hfront
    rw [cycleLedger_of_flush hk]
    simp only [Ledger.balances, occupied, hexmem, hmemwb, hif, hidex, Option.isSome_none, Bool.toNat_false]
    omega

/-! ## Along a run -/

/-- A run from a final state stays there (R38). -/
theorem runTo_of_final {k : Nat} {s t : State} (hs : s.status ≠ .running) (h : runTo k s = some t) : t = s :=
  runTo_keeps (P := fun u => u = s) (fun hu hstep => by
    subst hu
    exact Host.Outcome.next.inj (hstep.symm.trans (finalStatesStay _ hs))) rfl h

/-- The ledger of a run that halts balances against an empty pipeline. -/
theorem ledger_balances {k : Nat} {s t : State} (hs : s.status = .halted → occupied s = 0) (h : runTo k s = some t)
    (ht : t.status = .halted) : (ledger k s).balances (occupied s) 0 := by
  induction k generalizing s with
  | zero =>
    cases h
    simp [ledger, Ledger.balances, hs ht]
  | succ k ih =>
    unfold runTo at h
    unfold ledger
    cases hstep : step s with
    | fault r => rw [hstep] at h; cases h
    | refused r => rw [hstep] at h; cases h
    | next u =>
      rw [hstep] at h
      dsimp only at h ⊢
      obtain ⟨-, rfl⟩ | ⟨hfin, rfl⟩ | ⟨-, rfl⟩ | ⟨-, hfault, -⟩ | hdone := step_outcomes hstep
      · rw [if_pos rfl]
        exact ih hs h
      · rw [if_pos rfl]
        exact ih (fun _ => occupied_of_finished hfin) h
      · rw [if_pos rfl]
        exact ih nofun h
      · have hfinal : u.status ≠ .running := fun hrun => by simp [not_faulted_of_running hrun] at hfault
        rw [← runTo_of_final hfinal h] at hfault
        simp [faulted, ht] at hfault
      · have hnow := cycleLedger_balances hdone
        have hcycle := completes_cycle_succ hdone
        obtain ⟨-, -, hrun⟩ := hdone
        have hrest := ih (fun hhalted => by rw [hrun] at hhalted; cases hhalted) h
        rw [if_neg (by omega)]
        simp only [Ledger.balances] at hnow hrest ⊢
        omega

/-- Settles O28: the ledger of the run balances from the empty pipeline of the launch to that of the end. -/
theorem retiredIsFetchedLessDiscarded : Obligations.RetiredIsFetchedLessDiscarded := by
  intro p k t _ hrun ht
  exact ledger_balances (s := State.launch p) nofun hrun ht

end Sys2Proof.Machine
end

section
/-! PROOFS. Consistent states (R268): every step keeps them, and from each of them the step answers. -/

namespace Sys2Proof.Machine

/-! ## What a consistent state holds (R268) -/

theorem consistent_iff {s : State} : consistent s = true ↔ s.params.wf = true ∧ s.x[0] = 0 ∧
    Memory.wf s.params.dmemSize s.dmem = true ∧ (faulted s = true ∨ pipelineSound s = true) := by
  simp [consistent, and_assoc]

theorem latchSound_iff {p : Params} {l : Option Stage} : latchSound p l = true ↔
    ∀ d, l = some d → decodedStage p.subset d = true ∧ fetchWord p d.pc = some d.word := by
  unfold latchSound
  cases l <;> simp

theorem fetchedSound_iff {s : State} : fetchedSound s = true ↔
    ∀ f, s.ifid = some f → f.word ≠ 0 ∧ fetchWord s.params f.pc = some f.word := by
  unfold fetchedSound
  cases s.ifid <;> simp

theorem idexSound_iff {s : State} : idexSound s = true ↔
    ∀ d, s.idex = some d → d = withTags (plainStage d) s.exmem s.memwb := by
  unfold idexSound
  cases s.idex <;> simp

theorem valuesSound_iff {s : State} : valuesSound s = true ↔
    (∀ e, s.exmem = some e → e.mdata = 0) ∧ (∀ w, s.memwb = some w → w.ctrl.memRead = false → w.mdata = 0) := by
  unfold valuesSound
  cases s.exmem <;> cases s.memwb <;> simp [or_iff_not_imp_left]

theorem pipelineSound_iff {s : State} : pipelineSound s = true ↔
    (pcInProgram s = true ∧ exTagNamesNoLoad s = true) ∧ fetchedSound s = true ∧
    (latchSound s.params s.idex = true ∧ latchSound s.params s.exmem = true ∧ latchSound s.params s.memwb = true) ∧
    idexSound s = true ∧ valuesSound s = true := by
  simp only [pipelineSound, Bool.and_eq_true]
  tauto

/-- The pipeline of a consistent running state is sound: it has not faulted. -/
theorem pipelineSound_of_consistent {s : State} (hs : consistent s = true) (hrun : s.status = .running) :
    pipelineSound s = true := by
  obtain ⟨-, -, -, hfaulted | hsound⟩ := consistent_iff.1 hs
  · rw [not_faulted_of_running hrun] at hfaulted
    cases hfaulted
  · exact hsound

/-- A sound pipeline and `x[0] = 0` leave nothing for the cycle to refuse (R268). -/
theorem invariantsHold_of_pipelineSound {s : State} (hzero : s.x[0] = 0) (hs : pipelineSound s = true) :
    invariantsHold s = true := by
  obtain ⟨⟨hpc, htags⟩, hfetched, -⟩ := pipelineSound_iff.1 hs
  have hnonzero : ifidNonzero s = true := by
    unfold ifidNonzero
    cases hif : s.ifid with
    | none => rfl
    | some f =>
      obtain ⟨hword, -⟩ := fetchedSound_iff.1 hfetched f hif
      exact bne_iff_ne.2 hword
  simp [invariantsHold, hzero, hpc, hnonzero, htags]

/-- A consistent running state has all that `step_answers` asks for. -/
theorem steppable_of_consistent {s : State} (hs : consistent s = true) (hrun : s.status = .running) : steppable s := by
  have hsound := pipelineSound_of_consistent hs hrun
  obtain ⟨hp, hzero, -, -⟩ := consistent_iff.1 hs
  obtain ⟨-, -, ⟨hidex, hexmem, -⟩, -⟩ := pipelineSound_iff.1 hsound
  exact ⟨hp, invariantsHold_of_pipelineSound hzero hsound, fun d hd => (latchSound_iff.1 hidex d hd).1,
    fun e he => (latchSound_iff.1 hexmem e he).1⟩

/-- Settles O17: a final state steps to itself, and a running one is steppable. -/
theorem consistentStatesAlwaysStep : Obligations.ConsistentStatesAlwaysStep := by
  intro s hs
  by_cases hrun : s.status = .running
  · exact step_answers (steppable_of_consistent hs hrun) hrun
  · exact ⟨s, finalStatesStay s hrun⟩

/-! ## The data memory stays in form (R55) -/

/-- The memory step of a decoded instruction keeps the data memory in form: a store passed its range check (R58, R60). -/
theorem memoryStep_keeps_wf {s : State} {m : Option Stage × Memory} (hwf : Memory.wf s.params.dmemSize s.dmem = true)
    (hdec : ∀ e, s.exmem = some e → decodedStage s.params.subset e = true) (hm : memoryStep s = .ok m) :
    Memory.wf s.params.dmemSize m.2 = true := by
  cases he : s.exmem with
  | none =>
    rw [memoryStep_none he] at hm
    cases hm
    exact hwf
  | some e =>
    obtain ⟨-, -, rfl⟩ | ⟨n, ext, -, -, -, -, -, rfl⟩ | ⟨n, -, -, -, -, hfits, rfl⟩ :=
      memoryStep_decoded_ok he (hdec e he) hm
    · exact hwf
    · exact hwf
    · obtain ⟨-, hrange⟩ := accessFault_none.1 hfits
      exact Memory.writeLE_wf e.sdata n hwf hrange

/-- Every step from a consistent state leaves the data memory in form; after a fault it is free, in form (log 9). -/
theorem step_keeps_memory_wf {s t : State} (hs : consistent s = true) (h : step s = .next t) :
    Memory.wf t.params.dmemSize t.dmem = true := by
  have hwf : Memory.wf s.params.dmemSize s.dmem = true := by
    obtain ⟨-, -, hwf, -⟩ := consistent_iff.1 hs
    exact hwf
  obtain ⟨-, rfl⟩ | ⟨hrun, -, ⟨-, rfl⟩ | ⟨-, -, rfl⟩ | ⟨-, -, hcycle⟩⟩ := step_cases h
  · exact hwf
  · exact hwf
  · exact hwf
  · obtain ⟨-, ⟨k, pc, info, -, rfl⟩ | ⟨m, k, pc, info, -, -, rfl⟩ | ⟨m, x, f, hm, -, -, rfl⟩⟩ := cycle_next hcycle
    · exact Memory.ofCells_wf _ _
    · exact Memory.ofCells_wf _ _
    · obtain ⟨-, -, -, hdec⟩ := steppable_of_consistent hs hrun
      exact memoryStep_keeps_wf (s := s) hwf hdec hm

/-! ## The pipeline stays sound, latch by latch (R28, R35, R220) -/

/-- IF/ID at the end of a cycle is held, or fetched from the program at its address (R222, R228). -/
theorem frontEnd_ifid {s : State} {c : Nat} {k : Decision} {f : FrontEnd} {g : Fetched} (hf : frontEnd s c k = .ok f)
    (hg : f.ifid = some g) : s.ifid = some g ∨ fetchWord s.params g.pc = some g.word := by
  cases k with
  | normal =>
    obtain ⟨q, hq, rfl⟩ := frontEnd_normal.1 hf
    obtain ⟨-, rfl⟩ | ⟨-, w, hw, rfl⟩ := fetchStep_ok.1 hq
    · cases hg
    · obtain ⟨-, hg⟩ := Option.ite_none_left_eq_some.1 hg
      cases hg
      exact .inr hw
  | stall => cases hf; exact .inl hg
  | flush target => cases hf; cases hg

/-- IF/ID holds a nonzero word of the program again (R31). -/
theorem fetchedSound_of_completes {s t : State} (hs : fetchedSound s = true) (h : completes s t) :
    fetchedSound t = true := by
  obtain ⟨-, hinv⟩ := running_of_completes h
  obtain ⟨m, e, f, ⟨-, -, hf⟩, rfl⟩ := completes_parts h
  refine fetchedSound_iff.2 fun g hg => ⟨frontEnd_ifid_nonzero hinv hf hg, ?_⟩
  obtain hheld | hfetched := frontEnd_ifid hf hg
  · obtain ⟨-, hword⟩ := fetchedSound_iff.1 hs g hheld
    exact hword
  · exact hfetched

/-- An instruction that enters ID/EX is what the decoder gave for the word in IF/ID, with its tags (R220, R227). -/
theorem idex_of_completes {s t : State} {d : Stage} (h : completes s t) (hd : t.idex = some d) :
    ∃ g c, s.ifid = some g ∧ decodeStage s.params.subset g.word g.pc = (some c, false) ∧
      d = withTags c t.exmem t.memwb := by
  obtain ⟨m, e, f, ⟨-, -, hf⟩, rfl⟩ := completes_parts h
  obtain ⟨c, hc, rfl⟩ := Option.map_eq_some_iff.1 hd
  obtain ⟨-, hleaves⟩ := frontEnd_idex hf hc
  obtain ⟨g, hg, hdecoded⟩ := candidate_eq_some_iff.1 hleaves
  exact ⟨g, c, hg, hdecoded, rfl⟩

/-- An instruction that enters EX/MEM was in ID/EX, and has new values alone (R28, R217). -/
theorem exmem_of_completes {s t : State} {e : Stage} (h : completes s t) (he : t.exmem = some e) :
    ∃ d alu sdata, s.idex = some d ∧ e = { d with alu := alu, sdata := sdata } := by
  obtain ⟨m, x, f, ⟨-, hx, -⟩, rfl⟩ := completes_parts h
  exact executed_exmem hx he

/-- An instruction that enters MEM/WB was in EX/MEM, and has a new `mdata` alone, 0 if it is no load (R28, R216). -/
theorem memwb_of_completes {s t : State} {w : Stage} (h : completes s t) (hw : t.memwb = some w) :
    ∃ e v, s.exmem = some e ∧ w = { e with mdata := v } ∧ (e.ctrl.memRead = false → v = 0) := by
  obtain ⟨m, x, f, ⟨hm, -, -⟩, rfl⟩ := completes_parts h
  rw [completeCycle_memwb] at hw
  cases he : s.exmem with
  | none =>
    rw [memoryStep_none he] at hm
    cases hm
    cases hw
  | some e =>
    obtain ⟨v, mem, hdata, -, rfl⟩ := (memoryStep_some he).1 hm
    cases hw
    refine ⟨e, v, rfl, rfl, fun hno => ?_⟩
    exact (Except.ok.inj ((memData_of_no_read hno).symm.trans hdata)).symm

/-- Every latch takes a word of the program, decoded, from the latch before it (R28, R35). -/
theorem latchSound_of_completes {s t : State} (hs : pipelineSound s = true) (h : completes s t) :
    latchSound t.params t.idex = true ∧ latchSound t.params t.exmem = true ∧ latchSound t.params t.memwb = true := by
  obtain ⟨-, hfetched, ⟨hidex, hexmem, -⟩, -⟩ := pipelineSound_iff.1 hs
  rw [completes_params h]
  refine ⟨latchSound_iff.2 fun d hd => ?idex, latchSound_iff.2 fun e he => ?exmem, latchSound_iff.2 fun w hw => ?memwb⟩
  case idex =>
    obtain ⟨g, c, hg, hdecoded, rfl⟩ := idex_of_completes h hd
    obtain ⟨hdec, -, hword, hpc⟩ := decodeStage_decoded (congrArg Prod.fst hdecoded)
    obtain ⟨-, hfetch⟩ := fetchedSound_iff.1 hfetched g hg
    exact ⟨hdec, by rw [withTags_pc, withTags_word, hword, hpc, hfetch]⟩
  case exmem =>
    obtain ⟨d, alu, sdata, hd, rfl⟩ := exmem_of_completes h he
    exact latchSound_iff.1 hidex d hd
  case memwb =>
    obtain ⟨e, v, he, rfl, -⟩ := memwb_of_completes h hw
    exact latchSound_iff.1 hexmem e he

/-- The decoder gives no tags and no values, so ID/EX has just the tags of the cycle's end (R111, R220). -/
theorem idexSound_of_completes {s t : State} (h : completes s t) : idexSound t = true := by
  refine idexSound_iff.2 fun d hd => ?_
  obtain ⟨g, c, -, hdecoded, rfl⟩ := idex_of_completes h hd
  obtain ⟨-, hplain, -⟩ := decodeStage_decoded (congrArg Prod.fst hdecoded)
  rw [plainStage_withTags, hplain]

/-- ID/EX has no values yet (R111). -/
theorem mdata_of_idexSound {s : State} {d : Stage} (hs : idexSound s = true) (hd : s.idex = some d) : d.mdata = 0 :=
  congrArg Stage.mdata (idexSound_iff.1 hs d hd)

/-- Only the memory step of a load sets `mdata` (R34, R216). -/
theorem valuesSound_of_completes {s t : State} (hs : idexSound s = true) (h : completes s t) : valuesSound t = true := by
  refine valuesSound_iff.2 ⟨fun e he => ?exmem, fun w hw hno => ?memwb⟩
  case exmem =>
    obtain ⟨d, alu, sdata, hd, rfl⟩ := exmem_of_completes h he
    exact mdata_of_idexSound (d := d) hs hd
  case memwb =>
    obtain ⟨e, v, -, rfl, hzero⟩ := memwb_of_completes h hw
    exact hzero hno

/-- A completed cycle keeps the pipeline sound. -/
theorem pipelineSound_of_completes {s t : State} (hp : s.params.wf = true) (hs : pipelineSound s = true)
    (h : completes s t) : pipelineSound t = true := by
  obtain ⟨hpc, htags⟩ := goodTarget_and_exTag_of_invariantsHold (invariantsHold_of_completes hp h)
  have hlatches := latchSound_of_completes hs h
  obtain ⟨-, hfetched, -, hidex, -⟩ := pipelineSound_iff.1 hs
  exact pipelineSound_iff.2 ⟨⟨pcInProgram_iff.2 hpc, htags⟩, fetchedSound_of_completes hfetched h, hlatches,
    idexSound_of_completes h, valuesSound_of_completes hidex h⟩

/-- Every step keeps the pipeline sound or faults: a termination writes the status alone. -/
theorem step_keeps_pipelineSound {s t : State} (hp : s.params.wf = true) (hs : faulted s = true ∨ pipelineSound s = true)
    (h : step s = .next t) : faulted t = true ∨ pipelineSound t = true := by
  by_cases hrun : s.status = .running
  · have hsound : pipelineSound s = true :=
      hs.resolve_left (by rw [not_faulted_of_running hrun]; exact Bool.false_ne_true)
    obtain ⟨hfinal, -⟩ | ⟨-, rfl⟩ | ⟨-, rfl⟩ | ⟨-, hfault, -⟩ | hdone := step_outcomes h
    · exact absurd hrun hfinal
    · exact .inr hsound
    · exact .inr hsound
    · exact .inl hfault
    · exact .inr (pipelineSound_of_completes hp hsound hdone)
  · rw [finalStatesStay s hrun] at h
    cases h
    exact hs

/-- Settles O16: each of the four parts of consistency is kept by itself. -/
theorem everyStepKeepsConsistency : Obligations.EveryStepKeepsConsistency := by
  intro s t hs h
  have hmemory := step_keeps_memory_wf hs h
  obtain ⟨hp, hzero, -, hpipe⟩ := consistent_iff.1 hs
  have hparams := launchParametersAreNeverWritten s t h
  obtain ⟨hzero', -⟩ := registerZeroNeverChanges s t hzero h
  exact consistent_iff.2 ⟨hparams.symm ▸ hp, hzero', hmemory, step_keeps_pipelineSound hp hpipe h⟩

end Sys2Proof.Machine
end

section
/-! PROOFS. What stops a cycle and what does not (R260 to R268): a bad data access and a bad branch target fault, and nothing else
does; an unrecognized word leaves a diagnostic; a state that violates an invariant is refused. -/

namespace Sys2Proof.Machine

/-! ## Refused states (R268) -/

/-- Settles O24: `step` and the meaning of the instruction in ID/EX both begin with the invariants, and each of the five cases violates
one of them. -/
theorem inconsistentStatesAreRefused : Obligations.InconsistentStatesAreRefused := by
  intro s hrun hbad
  have hviolated : invariantsHold s = false := by
    refine Bool.eq_false_of_not_eq_true fun hinv => ?_
    obtain ⟨hzero, ⟨haligned, hinside⟩, hnonzero, htags⟩ := invariantsHold_iff.1 hinv
    obtain hx | hmis | hbeyond | ⟨f, hf, hword⟩ | ⟨d, e, hd, he, hread, htag⟩ := hbad
    · exact hx hzero
    · exact hmis haligned
    · exact absurd hinside (Nat.not_le.2 hbeyond)
    · exact hnonzero f hf hword
    · obtain ⟨htag1, htag2⟩ := htags d e hd he hread
      exact htag.elim htag1 htag2
  exact ⟨step_refused hrun hviolated, fun d hd => (exec_instr hd).trans (cycle_refused hviolated)⟩

/-! ## Bad data accesses (R57 to R60, R261, R262) -/

/-- The fault of a data access, in one equation: the address is misaligned, or else its bytes are not all inside the memory (R264). -/
theorem accessFault_eq_some_iff {s : State} {a : Word} {n : Width} {k : FaultKind} : accessFault s a n = some k ↔
    (a.toNat % n.bytes ≠ 0 ∨ s.params.dmemSize < a.toNat + n.bytes) ∧
      k = if a.toNat % n.bytes ≠ 0 then .misalignedData else .dmemRange := by
  rw [accessFault_some]
  by_cases hmis : a.toNat % n.bytes = 0 <;> simp [hmis]

/-- The instruction that has a width is a load or a store, so a decoded one accesses the memory (R61, R113). -/
theorem accesses_of_widthOf {sub : Subset} {e : Stage} {n : Width} (h : decodedStage sub e = true)
    (hn : widthOf e.op = some n) : e.ctrl.memRead = true ∨ e.ctrl.memWrite = true := by
  obtain ⟨-, -, -, hctrl, -⟩ := decodedStage_spec h
  rw [hctrl]
  cases hop : e.op <;> rw [hop] at hn
  case lb | lh | lw | lbu | lhu => exact .inl rfl
  case sb | sh | sw => exact .inr rfl
  all_goals cases hn

/-- A decoded load or store whose checks fail stops the memory step with their fault. -/
theorem memoryStep_of_accessFault {s : State} {e : Stage} {n : Width} {k : FaultKind} (he : s.exmem = some e)
    (hdec : decodedStage s.params.subset e = true) (hn : widthOf e.op = some n) (hk : accessFault s e.alu n = some k) :
    memoryStep s = .error (.raise k e.pc e.alu) := by
  cases hm : memoryStep s with
  | error stop =>
    obtain ⟨n', k', hn', hk', rfl⟩ := memoryStep_decoded_error he hdec hm
    obtain rfl := Option.some.inj (hn.symm.trans hn')
    obtain rfl := Option.some.inj (hk.symm.trans hk')
    rfl
  | ok m =>
    have passes : ∀ n', widthOf e.op = some n' → accessFault s e.alu n' ≠ none := by
      intro n' hn' hpass
      obtain rfl := Option.some.inj (hn.symm.trans hn')
      cases hk.symm.trans hpass
    obtain ⟨hread, hwrite, -⟩ | ⟨n', -, hn', -, -, -, hpass, -⟩ | ⟨n', hn', -, -, -, hpass, -⟩ :=
      memoryStep_decoded_ok he hdec hm
    · obtain h | h := accesses_of_widthOf hdec hn
      · cases hread.symm.trans h
      · cases hwrite.symm.trans h
    · exact absurd hpass (passes n' hn')
    · exact absurd hpass (passes n' hn')

/-- The memory step of a decoded instruction stops exactly on a bad access, and raises its fault (R216, R261). -/
theorem memoryStep_error_iff {s : State} {e : Stage} {stop : Stop} (he : s.exmem = some e)
    (hdec : decodedStage s.params.subset e = true) : memoryStep s = .error stop ↔
    ∃ n, accessBytes e.op = some n ∧ (e.alu.toNat % n ≠ 0 ∨ s.params.dmemSize < e.alu.toNat + n) ∧
      stop = .raise (if e.alu.toNat % n ≠ 0 then .misalignedData else .dmemRange) e.pc e.alu := by
  rw [accessBytes_eq_map_widthOf]
  constructor
  · intro hm
    obtain ⟨n, k, hn, hk, rfl⟩ := memoryStep_decoded_error he hdec hm
    obtain ⟨hbad, rfl⟩ := accessFault_eq_some_iff.1 hk
    exact ⟨n.bytes, by rw [hn]; rfl, hbad, rfl⟩
  · rintro ⟨_, hbytes, hbad, rfl⟩
    obtain ⟨n, hn, rfl⟩ := Option.map_eq_some_iff.1 hbytes
    exact memoryStep_of_accessFault he hdec hn (accessFault_eq_some_iff.2 ⟨hbad, rfl⟩)

theorem step_of_mayCycle {s : State} (h : mayCycle s) : step s = cycle s (executed s) := by
  obtain ⟨hrun, -, hunfinished, hcap⟩ := h
  exact step_cycle hrun hunfinished hcap

/-- Settles O48: the memory step raises the fault, before the execute step is asked, and the state it leaves is final. -/
theorem badDataAccessEndsTheRun : Obligations.BadDataAccessEndsTheRun := by
  intro s e n hmay he hdec hbytes hbad
  have hstep := step_of_mayCycle hmay
  obtain ⟨-, hinv, -, -⟩ := hmay
  have hfault := cycle_memory_fault (ex := executed s) hinv ((memoryStep_error_iff he hdec).2 ⟨n, hbytes, hbad, rfl⟩)
  exact ⟨_, hstep.trans hfault, rfl, rfl, rfl, rfl, rfl, finalStatesStay _ nofun⟩

/-! ## Nothing else faults (R262) -/

/-- Settles O50: a cycle that ends in FAULT took the memory step's stop or the execute step's; each says whose it is. -/
theorem faultsComeOnlyFromBadAccessesAndTargets : Obligations.FaultsComeOnlyFromBadAccessesAndTargets := by
  intro s t hs hmay hstep hfault
  rw [step_of_mayCycle hmay] at hstep
  obtain ⟨hrun, -, -, -⟩ := hmay
  obtain ⟨-, ⟨k, pc, info, hm, rfl⟩ | ⟨m, k, pc, info, -, hx, rfl⟩ | ⟨m, x, f, -, -, -, rfl⟩⟩ := cycle_next hstep
  · obtain ⟨-, -, -, hexmem⟩ := steppable_of_consistent hs hrun
    obtain ⟨e, he, -⟩ := memoryStep_error.1 hm
    obtain ⟨n, hbytes, hbad, hstop⟩ := (memoryStep_error_iff he (hexmem e he)).1 hm
    cases hstop
    exact .inl ⟨e, n, he, hbytes, hbad, rfl⟩
  · obtain ⟨d, _, hd, htaken, hbad, hstop⟩ := executed_error hx
    cases hstop
    exact .inr ⟨d, _, hd, htaken, hbad, rfl⟩
  · rw [not_faulted_of_running ((completeCycle_status s _ _ _ f).trans hrun)] at hfault
    cases hfault

/-! ## Unrecognized words (R265, R266) -/

/-- The decoder gives an unrecognized word a bubble and its diagnostic flag (R96, R110). -/
theorem decodeStage_of_unrecognized {sub : Subset} {w : Word} (h : decode sub w = .error .unrecognized) (pc : Word) :
    decodeStage sub w pc = (none, true) := by
  have hw : w ≠ 0 := by
    rintro rfl
    cases h
  obtain ⟨-, hstage⟩ | ⟨d, hstage⟩ := decode_cases hw pc
  · exact hstage
  · obtain ⟨hdec, -, hword, -⟩ := decodeStage_decoded (congrArg Prod.fst hstage)
    have hok := decodedStage_decode hdec
    rw [hword, h] at hok
    cases hok

/-- Settles O47: with no instruction leaving decode there is no hazard, so the cycle is NORMAL or a flush, and O37 gives what each
sets. -/
theorem unrecognizedWordLeavesOneDiagnostic : Obligations.UnrecognizedWordLeavesOneDiagnostic := by
  intro s t f h hf hunrecognized
  have hcand : candidate s = (none, true) := by
    unfold candidate
    rw [hf]
    exact decodeStage_of_unrecognized hunrecognized f.pc
  have hdiag : diagOf s t.cycle = [⟨s.cycle + 1, f.pc, f.word⟩] := by
    unfold diagOf
    rw [hf, hcand, completes_cycle_succ h]
    rfl
  have hfront := decisionSetsTheFrontEnd s t h
  cases htaken : takenTarget s with
  | none =>
    have hnormal : decisionOf s none = .normal := decisionOf_normal.2 ⟨rfl, by rw [hcand, hazard_none_left]⟩
    rw [htaken, hnormal] at hfront
    obtain ⟨hidex, hdiags, -⟩ := hfront
    rw [hcand] at hidex
    rw [hdiag] at hdiags
    exact ⟨hidex, fun _ => hdiags, nofun⟩
  | some target =>
    obtain ⟨-, -, hidex, hdiags, -⟩ := takenBranchFlushes s t target h htaken
    exact ⟨hidex, nofun, fun _ _ => hdiags⟩

end Sys2Proof.Machine
end

section
/-! PROOFS. The start of a run: the registers and the data memory as the launch parameters give them (R42, R280); and a fetched word on
its way to execute (R288). -/

namespace Sys2Proof.Machine

/-! ## The state of a launch (R42, R55) -/

/-- `INIT_REGS` gives `x0` the value 0 and every cell of `INIT_DMEM` an address inside the data memory (R7). -/
theorem init_of_wf {p : Params} (hp : p.wf = true) :
    p.initRegs[0] = 0 ∧ ∀ c ∈ p.initDmem, c.1 < p.dmemSize := by
  simp only [Params.wf, Bool.and_eq_true, decide_eq_true_eq, List.all_eq_true] at hp
  obtain ⟨⟨-, hzero⟩, hcells⟩ := hp
  exact ⟨hzero, hcells⟩

theorem read_launch {p : Params} (hp : p.wf = true) (i : RegIx) :
    Regs.read (State.launch p).x i = p.initRegs[i.toNat]'i.isLt := by
  by_cases hi : i = 0
  · subst hi
    obtain ⟨hzero, -⟩ := init_of_wf hp
    exact hzero.symm
  · exact Regs.read_ofWords p.initRegs hi

/-- One more cell of `INIT_DMEM` is one more byte written. -/
theorem Memory.read_ofCells_concat {size : Nat} {cells : List Host.Cell} {c : Host.Cell} (hc : c.1 < size) (a : Nat) :
    Memory.read (Memory.ofCells size (cells ++ [c])) a =
      if a = c.1 then c.2 else Memory.read (Memory.ofCells size cells) a := by
  have hwrite : Memory.ofCells size (cells ++ [c]) = Memory.write (Memory.ofCells size cells) c.1 c.2 := by
    simp [Memory.ofCells, List.foldl_append, hc]
  rw [hwrite, Memory.read_write (Memory.wf_canonical (Memory.ofCells_wf size cells))]

theorem Memory.read_ofCells_unlisted {size : Nat} {cells : List Host.Cell} (hsize : ∀ c ∈ cells, c.1 < size) {a : Nat}
    (ha : a ∉ cells.map Prod.fst) : Memory.read (Memory.ofCells size cells) a = unlistedByte := by
  induction cells using List.reverseRecOn with
  | nil => rfl
  | append_singleton cells c ih =>
    simp only [List.map_append, List.map_cons, List.map_nil, List.mem_append, List.mem_singleton, not_or] at ha
    obtain ⟨hbefore, hne⟩ := ha
    rw [Memory.read_ofCells_concat (hsize c (by simp)), if_neg hne]
    exact ih (fun d hd => hsize d (List.mem_append_left _ hd)) hbefore

/-- No later cell writes over a listed byte when each address is listed once. -/
theorem Memory.read_ofCells_listed {size : Nat} {cells : List Host.Cell} (hsize : ∀ c ∈ cells, c.1 < size)
    (hnodup : (cells.map Prod.fst).Nodup) {d : Host.Cell} (hd : d ∈ cells) :
    Memory.read (Memory.ofCells size cells) d.1 = d.2 := by
  induction cells using List.reverseRecOn with
  | nil => cases hd
  | append_singleton cells c ih =>
    rw [Memory.read_ofCells_concat (hsize c (by simp))]
    rw [List.map_append, List.map_singleton, List.nodup_append] at hnodup
    obtain ⟨hbefore, -, hnew⟩ := hnodup
    obtain hd | hd := List.mem_append.1 hd
    · rw [if_neg (hnew d.1 (List.mem_map_of_mem hd) c.1 (List.mem_singleton_self _))]
      exact ih (fun b hb => hsize b (List.mem_append_left _ hb)) hbefore hd
    · obtain rfl := List.mem_singleton.1 hd
      rw [if_pos rfl]

/-- Settles O13: the registers and bytes are those listed, and the other fields are what the launch writes. -/
theorem launchGivesTheResetState : Obligations.LaunchGivesTheResetState := by
  intro p hp
  obtain ⟨-, hsize⟩ := init_of_wf hp
  refine ⟨read_launch hp, Regs.read_zero _, rfl, rfl, rfl, rfl, rfl, fun hnodup => ⟨fun c hc => ?listed, fun a ha => ?unlisted⟩,
    rfl, rfl, rfl, rfl, rfl⟩
  case listed => exact Memory.read_ofCells_listed hsize hnodup hc
  case unlisted => exact Memory.read_ofCells_unlisted hsize ha

/-! ## From fetch to execute (R227, R228, R288) -/

/-- Settles O22: the first NORMAL cycle fetches the word, the second decodes it, and O21 gives the third step. -/
theorem fetchedWordExecutesTwoCyclesLater : Obligations.FetchedWordExecutesTwoCyclesLater := by
  intro s t u w i hst htu hnormal hnormal' hlt hw hdec hcap
  have ht : t.params = s.params := completes_params hst
  have hu : u.params = s.params := (completes_params htu).trans ht
  have hif : t.ifid = some ⟨s.pc, w⟩ := by
    have hfront := decisionSetsTheFrontEnd s t hst
    rw [hnormal] at hfront
    obtain ⟨-, -, hfetches, -⟩ := hfront
    obtain ⟨-, w', hw', hif⟩ := hfetches hlt
    obtain rfl := Option.some.inj (hw.symm.trans hw')
    obtain ⟨hne, -⟩ := decode_ok hdec
    rw [hif, if_neg hne]
  obtain ⟨c, hc, hpc, hword, hinstr⟩ := decodeStage_of_decode hdec s.pc
  have hid : u.idex = some (withTags c u.exmem u.memwb) := by
    have hfront := decisionSetsTheFrontEnd t u htu
    rw [hnormal', candidate_eq_some_iff.2 ⟨_, hif, by rw [ht]; exact hc⟩] at hfront
    obtain ⟨hidex, -⟩ := hfront
    exact hidex
  refine ⟨hif, ⟨_, hid, hpc, hword, hinstr⟩, ?executes⟩
  case executes =>
    obtain ⟨hdecoded, -⟩ := decodeStage_decoded (congrArg Prod.fst hc)
    obtain ⟨-, -, hrun⟩ := htu
    refine stepRunsTheInstructionInExecute u _ i hrun hcap hid ?_ ?_
    · rw [hu, decodedStage_withTags]
      exact hdecoded
    · rw [hu, withTags_word, hword]
      exact hdec

end Sys2Proof.Machine
end

section
/-! PROOFS. The parts of the relation between the pipeline and one-at-a-time execution (R285): the registers an instruction in execute
reads, the instruction in EX/MEM as it commits, and the words between it and decode. -/

namespace Sys2Proof.Machine

/-! ## The registers that the instruction in execute reads (R213, R214) -/

/-- The register file once the new MEM/WB has written back too: that of the next cycle (R212). -/
def regsAfter (s : State) (memwb : Option Stage) : Regs := writeback { s with x := writeback s, memwb := memwb }

theorem writeback_completeCycle (s : State) (m : Option Stage × Memory) (e : Option Stage) (f : FrontEnd) :
    writeback (completeCycle s m.1 m.2 e f) = regsAfter s m.1 := rfl

theorem regsAfter_none (s : State) : regsAfter s none = writeback s := rfl

theorem regsAfter_some (s : State) (d : Stage) : regsAfter s (some d) =
    if d.ctrl.regWrite && d.rd != 0 then Regs.write (writeback s) d.rd (wbval d) else writeback s := rfl

theorem read_regsAfter_some (s : State) (d : Stage) (r : RegIx) : Regs.read (regsAfter s (some d)) r =
    if writesReg (some d) r = true then wbval d else Regs.read (writeback s) r :=
  read_writeback { s with x := writeback s, memwb := some d } r

/-- An instruction that is no load writes back its result (R34, R113). -/
theorem wbval_of_no_load {sub : Subset} {e : Stage} (hdec : decodedStage sub e = true) (hload : e.ctrl.memRead = false)
    (v : Word) : wbval { e with mdata := v } = e.alu := by
  have hctrl : e.ctrl.memToReg = e.ctrl.memRead := by
    obtain ⟨-, -, -, hctrl, -⟩ := decodedStage_spec hdec
    rw [hctrl]
    cases e.op <;> rfl
  unfold wbval
  rw [hctrl, hload]
  exact if_neg Bool.false_ne_true

/-- The newest value of a register is what it holds once EX/MEM and MEM/WB have written theirs, unless a load in EX/MEM is to give it. -/
theorem newestValue_eq_read_regsAfter {s : State} {m : Option Stage × Memory} {r : RegIx} (hm : memoryStep s = .ok m)
    (hdec : ∀ e, s.exmem = some e → decodedStage s.params.subset e = true)
    (hload : ∀ e, s.exmem = some e → writesReg (some e) r = true → e.ctrl.memRead = false) :
    newestValue s r = Regs.read (regsAfter s m.1) r := by
  by_cases hr : r = 0
  · subst hr; rfl
  rw [newestValue, if_neg hr, ← read_writeback]
  cases he : s.exmem with
  | none =>
    rw [memoryStep_none he] at hm
    cases hm
    rfl
  | some e =>
    obtain ⟨v, hmoved⟩ := memoryStep_memwb he hm
    rw [hmoved, read_regsAfter_some]
    have hsame : writesReg (some { e with mdata := v }) r = writesReg (some e) r := rfl
    rw [hsame]
    by_cases hwrites : writesReg (some e) r = true
    · rw [if_pos hwrites, if_pos hwrites, wbval_of_no_load (hdec e he) (hload e he hwrites), exValue, he]
    · rw [if_neg hwrites, if_neg hwrites]

/-- A source that a format does not read is register 0 (R111, R114). -/
theorem unused_source_zero {sub : Subset} {d : Stage} (h : decodedStage sub d = true) :
    (d.uses1 = false → d.rs1 = 0) ∧ (d.uses2 = false → d.rs2 = 0) := by
  obtain ⟨-, -, -, -, huses1, huses2, hfields⟩ := decodedStage_spec h
  have hrs1 : d.rs1 = (fieldsOf d.op.layout d.word).rs1 := congrArg Fields.rs1 hfields
  have hrs2 : d.rs2 = (fieldsOf d.op.layout d.word).rs2 := congrArg Fields.rs2 hfields
  rw [huses1, huses2, hrs1, hrs2]
  cases d.op.layout <;> simp [Layout.fmt, usesSource1, usesSource2, fieldsOf]

/-- The operands of the instruction in ID/EX are its source registers as the instructions before it leave them (R241). -/
theorem operands_eq_read_regsAfter {s : State} {d : Stage} {m : Option Stage × Memory} (hs : consistent s = true)
    (hrun : s.status = .running) (hd : s.idex = some d) (hm : memoryStep s = .ok m) :
    operand1 s d = Regs.read (regsAfter s m.1) d.rs1 ∧ operand2 s d = Regs.read (regsAfter s m.1) d.rs2 := by
  have hfault := not_faulted_of_running hrun
  obtain ⟨⟨-, hnoLoad⟩, -⟩ := pipelineSound_iff.1 (pipelineSound_of_consistent hs hrun)
  obtain ⟨-, -, -, hexmem⟩ := steppable_of_consistent hs hrun
  obtain ⟨hdec, htag1, htag2⟩ := idex_of_consistent hs hfault hd
  obtain ⟨hunused1, hunused2⟩ := unused_source_zero hdec
  have selects : ∀ (uses : Bool) (r : RegIx), (uses = false → r = 0) →
      (forwardTag uses r s.exmem s.memwb = .ex → d.tag1 = .ex ∨ d.tag2 = .ex) →
      (if uses then newestValue s r else 0) = Regs.read (regsAfter s m.1) r := by
    intro uses r hunused htag
    cases uses with
    | false => rw [hunused rfl]; rfl
    | true =>
      refine newestValue_eq_read_regsAfter hm hexmem fun e he hwrites => ?_
      have hex : forwardTag true r s.exmem s.memwb = .ex := forwardTag_ex.2 ⟨rfl, by rw [he]; exact hwrites⟩
      exact exTagNamesNoLoad_iff.1 hnoLoad d e hd he (htag hex)
  obtain ⟨hnewest1, hnewest2⟩ := operandsAreTheNewestValues s d hs hfault hd
  exact ⟨hnewest1.trans (selects _ _ hunused1 fun h => .inl (htag1.trans h)),
    hnewest2.trans (selects _ _ hunused2 fun h => .inr (htag2.trans h))⟩

/-! ## The two halves of the relation -/

/-- The address and word of each diagnostic (R285). -/
def diagWords (l : List Diag) : List (Word × Word) := l.map fun g => (g.pc, g.word)

theorem diagWords_append (k l : List Diag) : diagWords (k ++ l) = diagWords k ++ diagWords l := List.map_append

/-- `a` stands just before the instruction in EX/MEM, which holds what it computes on the registers of `a` and goes on to `q`. -/
def exmemTracks (s : State) (a : Arch) (q : Word) : Prop :=
  (s.exmem = none → a.pc = q) ∧
  ∀ e, s.exmem = some e →
    a.pc = e.pc ∧ q = nextPc a.x e ∧ goodTarget s.params q ∧
    e.alu = executeAlu e.instr e.pc (Regs.read a.x e.rs1) (Regs.read a.x e.rs2) ∧
    e.sdata = executeSdata e.op (Regs.read a.x e.rs2)

/-- From `q` the words that are no instruction lead to the instruction in ID/EX, if there is one, and on to decode, which fetch
follows; `ds` are those that leave a diagnostic before that instruction. -/
def frontTracks (s : State) (q : Word) (ds : List (Word × Word)) : Prop :=
  (∀ f, s.ifid = some f → s.pc = f.pc + 4) ∧
  (s.idex = none → ∃ n, skipWords s.params n q = some (decodePc s, ds)) ∧
  ∀ d, s.idex = some d → ∃ n m,
    skipWords s.params n q = some (d.pc, ds) ∧ skipWords s.params m (d.pc + 4) = some (decodePc s, [])

theorem tracks_iff {s : State} {a : Arch} : tracks s a ↔ a.x = writeback s ∧ a.dmem = s.dmem ∧
    ∃ q ds, exmemTracks s a q ∧ frontTracks s q ds ∧ diagWords s.diags = a.diags ++ ds := by
  constructor
  · rintro ⟨hx, hmem, hfetch, q, n, m, ds, hnone, hsome, hdiags, hbubble, hidex⟩
    exact ⟨hx, hmem, q, ds, ⟨hnone, hsome⟩, ⟨hfetch, fun h => ⟨n, hbubble h⟩, fun d hd => ⟨n, m, hidex d hd⟩⟩, hdiags⟩
  · rintro ⟨hx, hmem, q, ds, ⟨hnone, hsome⟩, ⟨hfetch, hbubble, hidex⟩, hdiags⟩
    cases hd : s.idex with
    | none =>
      obtain ⟨n, hn⟩ := hbubble hd
      exact ⟨hx, hmem, hfetch, q, n, 0, ds, hnone, hsome, hdiags, fun _ => hn, fun d h => by rw [hd] at h; cases h⟩
    | some d =>
      obtain ⟨n, m, hnm⟩ := hidex d hd
      refine ⟨hx, hmem, hfetch, q, n, m, ds, hnone, hsome, hdiags, fun h => ?_, fun d' hd' => ?_⟩
      · rw [hd] at h; cases h
      · obtain rfl := Option.some.inj (hd.symm.trans hd')
        exact hnm

/-- Settles O30: all latches hold bubbles and nothing has been executed. -/
theorem launchTracksSequentialExecution : Obligations.LaunchTracksSequentialExecution := by
  intro p _
  have hexmem : exmemTracks (State.launch p) (archStart p) 0 := ⟨fun _ => rfl, fun e he => by simp at he⟩
  have hfront : frontTracks (State.launch p) 0 [] :=
    ⟨fun f hf => by simp at hf, fun _ => ⟨0, rfl⟩, fun d hd => by simp at hd⟩
  exact tracks_iff.2 ⟨rfl, rfl, 0, [], hexmem, hfront, rfl⟩

/-! ## The instruction in EX/MEM (R212, R216) -/

/-- Executing the instruction in EX/MEM whole is this cycle's memory step and the writeback of the next. -/
theorem commitsTo_of_exmemTracks {s : State} {a : Arch} {q : Word} {e : Stage} (hs : consistent s = true)
    (hrun : s.status = .running) (hmem : a.dmem = s.dmem) (ha : exmemTracks s a q) (he : s.exmem = some e) :
    CommitsTo s a e := by
  obtain ⟨-, -, ⟨-, hexmem, -⟩, -⟩ := pipelineSound_iff.1 (pipelineSound_of_consistent hs hrun)
  obtain ⟨hdec, hfetch⟩ := latchSound_iff.1 hexmem e he
  have hsize : s.params.dmemSize ≤ 2 ^ 32 := by
    obtain ⟨hp, -⟩ := consistent_iff.1 hs
    simp only [Params.wf, Bool.and_eq_true, decide_eq_true_eq] at hp
    obtain ⟨⟨⟨-, -, -, hsize⟩, -⟩, -⟩ := hp
    exact hsize
  obtain ⟨-, hsome⟩ := ha
  obtain ⟨hpc, rfl, hgood, halu, hsdata⟩ := hsome e he
  exact archStep_commits hsize he hdec hfetch hpc hmem halu hsdata hgood

/-- With the instruction in EX/MEM executed, the one-at-a-time state is at `q`, with the memory of the memory step and the registers of
the next writeback. -/
theorem archRun_past_exmem {s : State} {a : Arch} {q : Word} {m : Option Stage × Memory} (hs : consistent s = true)
    (hrun : s.status = .running) (hx : a.x = writeback s) (hmem : a.dmem = s.dmem) (ha : exmemTracks s a q)
    (hm : memoryStep s = .ok m) : ∃ n, archRun s.params n a = some ⟨regsAfter s m.1, q, m.2, a.diags⟩ := by
  cases he : s.exmem with
  | none =>
    rw [memoryStep_none he] at hm
    cases hm
    obtain ⟨hpc, -⟩ := ha
    refine ⟨0, ?_⟩
    rw [regsAfter_none, ← hx, ← hpc he, ← hmem]
    rfl
  | some e =>
    obtain ⟨hcommits, -⟩ := commitsTo_of_exmemTracks hs hrun hmem ha he
    obtain ⟨e', b, hmoved, hstep, hbx, hbmem, hbpc, hbdiags⟩ := hcommits m hm
    obtain ⟨-, hsome⟩ := ha
    obtain ⟨-, rfl, -⟩ := hsome e he
    refine ⟨1, ?_⟩
    rw [hmoved, regsAfter_some, ← hx, ← hbx, ← hbmem, ← hbpc, ← hbdiags]
    exact archRun_one hstep

/-! ## The words from there to the instruction in ID/EX (R95, R265) -/

/-- The one-at-a-time state at address `q` when all before `q` is executed: the diagnostics are the machine's. -/
def archAt (s : State) (m : Option Stage × Memory) (q : Word) : Arch := ⟨regsAfter s m.1, q, m.2, diagWords s.diags⟩

/-- Past EX/MEM and the words after it that are no instruction, execution has caught up with the machine's diagnostics. -/
theorem archRun_skip {s : State} {a : Arch} {q v : Word} {n : Nat} {ds : List (Word × Word)} {m : Option Stage × Memory}
    (hs : consistent s = true) (hrun : s.status = .running) (hx : a.x = writeback s) (hmem : a.dmem = s.dmem)
    (ha : exmemTracks s a q) (hdiags : diagWords s.diags = a.diags ++ ds) (hskip : skipWords s.params n q = some (v, ds))
    (hm : memoryStep s = .ok m) : ∃ k, archRun s.params k a = some (archAt s m v) := by
  obtain ⟨k, hk⟩ := archRun_past_exmem hs hrun hx hmem ha hm
  refine ⟨k + n, archRun_add hk ?_⟩
  rw [skipWords_run hskip _ rfl, archAt, hdiags]

end Sys2Proof.Machine
end

section
/-! PROOFS. The pipeline agrees with one-at-a-time execution (R285): a completed cycle keeps the relation, a halt and a fault are those
of the execution beside it, and so for every run. -/

namespace Sys2Proof.Machine

/-! ## Decode and fetch follow the correct path (R227, R228) -/

theorem decodePc_of_no_ifid {s : State} (h : s.ifid = none) : decodePc s = s.pc := by
  unfold decodePc; rw [h]

theorem decodePc_of_ifid {s : State} {f : Fetched} (h : s.ifid = some f) : decodePc s = f.pc := by
  unfold decodePc; rw [h]

/-- Fetch goes on from `pc`: past the end it stays, a word 0 is skipped, any other word waits in IF/ID (R228, R229). -/
theorem skipWords_fetch {s t : State} (h : completes s t) (hnormal : decisionOf s (takenTarget s) = .normal) :
    (∃ m, skipWords s.params m s.pc = some (decodePc t, [])) ∧ ∀ f, t.ifid = some f → t.pc = f.pc + 4 := by
  have hfront := decisionSetsTheFrontEnd s t h
  rw [hnormal] at hfront
  obtain ⟨-, -, hfetches, hdrains⟩ := hfront
  by_cases hlt : s.pc.toNat < s.params.progEnd
  · obtain ⟨hpc, w, hw, hif⟩ := hfetches hlt
    by_cases hzero : w = 0
    · subst hzero
      rw [if_pos rfl] at hif
      refine ⟨⟨1, ?_⟩, fun f hf => by rw [hif] at hf; cases hf⟩
      rw [decodePc_of_no_ifid hif, hpc]
      exact skipWords_bubble hw
    · rw [if_neg hzero] at hif
      refine ⟨⟨0, ?_⟩, fun f hf => ?_⟩
      · rw [decodePc_of_ifid hif]
        rfl
      · rw [hif] at hf
        cases hf
        exact hpc
  · obtain ⟨hpc, hif⟩ := hdrains (Nat.not_lt.1 hlt)
    refine ⟨⟨0, ?_⟩, fun f hf => by rw [hif] at hf; cases hf⟩
    rw [decodePc_of_no_ifid hif, hpc]
    rfl

/-- What decode makes of IF/ID: words that are no instruction are passed, with their diagnostics, up to `pc`; or an instruction leaves,
with none (R96, R227, R266). -/
theorem decode_passes_or_leaves {s : State} (hfetched : fetchedSound s = true)
    (hfollows : ∀ f, s.ifid = some f → s.pc = f.pc + 4) (c : Nat) :
    ((candidate s).1 = none ∧ ∃ n, skipWords s.params n (decodePc s) = some (s.pc, diagWords (diagOf s c))) ∨
      ∃ d, (candidate s).1 = some d ∧ diagOf s c = [] ∧ d.pc = decodePc s ∧ d.pc + 4 = s.pc := by
  cases hif : s.ifid with
  | none =>
    rw [candidate_of_no_ifid hif, diagOf_of_no_ifid hif, decodePc_of_no_ifid hif]
    exact .inl ⟨rfl, 0, rfl⟩
  | some f =>
    obtain ⟨hne, hfetch⟩ := fetchedSound_iff.1 hfetched f hif
    have hcand : candidate s = decodeStage s.params.subset f.word f.pc := by unfold candidate; rw [hif]
    have hdiag : diagOf s c = if (candidate s).2 then [⟨c, f.pc, f.word⟩] else [] := by unfold diagOf; rw [hif]
    rw [decodePc_of_ifid hif, hdiag, hcand, hfollows f hif]
    obtain ⟨hunrecognized, hstage⟩ | ⟨d, hstage⟩ := decode_cases (sub := s.params.subset) hne f.pc
    · rw [hstage]
      exact .inl ⟨rfl, 1, skipWords_unrecognized hfetch hunrecognized⟩
    · obtain ⟨-, -, -, hpc⟩ := decodeStage_decoded (congrArg Prod.fst hstage)
      rw [hstage]
      exact .inr ⟨d, rfl, rfl, hpc, by rw [hpc]⟩

/-- A NORMAL cycle takes the front end one word on: the words that lead to decode lead to the instruction that has left it, or past
the word that has not. -/
theorem frontTracks_of_normal {s t : State} {q : Word} {n : Nat} {ds : List (Word × Word)} (h : completes s t)
    (hfetched : fetchedSound s = true) (hnormal : decisionOf s (takenTarget s) = .normal)
    (hfollows : ∀ f, s.ifid = some f → s.pc = f.pc + 4) (hskip : skipWords s.params n q = some (decodePc s, ds)) :
    ∃ es, frontTracks t q (ds ++ es) ∧ diagWords t.diags = diagWords s.diags ++ es := by
  obtain ⟨⟨m, hfetch⟩, hfollows'⟩ := skipWords_fetch h hnormal
  have hfront := decisionSetsTheFrontEnd s t h
  rw [hnormal] at hfront
  obtain ⟨hidex, hdiags, -⟩ := hfront
  refine ⟨diagWords (diagOf s t.cycle), ⟨hfollows', ?_⟩, by rw [hdiags, diagWords_append]⟩
  rw [completes_params h]
  obtain ⟨hcand, k, hpass⟩ | ⟨c, hcand, hdiag, hpc, hnext⟩ := decode_passes_or_leaves hfetched hfollows t.cycle
  · have hid : t.idex = none := by rw [hidex, hcand]; rfl
    refine ⟨fun _ => ⟨n + k + m, ?_⟩, fun d hd => by rw [hid] at hd; cases hd⟩
    simpa using skipWords_add (skipWords_add hskip hpass) hfetch
  · have hid : t.idex = some (withTags c t.exmem t.memwb) := by rw [hidex, hcand]; rfl
    refine ⟨fun hnone => (by rw [hid] at hnone; cases hnone), fun d hd => ⟨n, m, ?_⟩⟩
    obtain rfl := Option.some.inj (hid.symm.trans hd)
    rw [withTags_pc, hnext, hdiag, hpc]
    exact ⟨by simpa [diagWords] using hskip, hfetch⟩

/-! ## Where the instruction in execute goes (R190, R224) -/

/-- Only branches have a condition, and they assert Branch (R113). -/
theorem branch_of_branchCondition {sub : Subset} {d : Stage} (h : decodedStage sub d = true) {a b : Word} {c : Bool}
    (hc : branchCondition d.op a b = some c) : d.ctrl.branch = true := by
  obtain ⟨-, -, -, hctrl, -⟩ := decodedStage_spec h
  rw [hctrl]
  cases hop : d.op <;> rw [hop] at hc
  case beq | bne | blt | bge | bltu | bgeu => rfl
  all_goals cases hc

theorem takenTarget_of_idex {s : State} {d : Stage} (hd : s.idex = some d) (hdec : decodedStage s.params.subset d = true) :
    takenTarget s =
      if branchCondition d.op (operand1 s d) (operand2 s d) = some true then some (d.pc + d.imm) else none := by
  unfold takenTarget
  rw [hd]
  dsimp only
  by_cases hc : branchCondition d.op (operand1 s d) (operand2 s d) = some true
  · rw [if_pos hc, if_pos (by simp [hc, branch_of_branchCondition hdec hc])]
  · rw [if_neg hc, if_neg (by simp [hc])]

/-- The instruction in ID/EX, executed whole, goes to the target the branch resolution unit takes, or to the next word. -/
theorem nextPc_eq_takenTarget {s : State} {d : Stage} {m : Option Stage × Memory} (hs : consistent s = true)
    (hrun : s.status = .running) (hd : s.idex = some d) (hm : memoryStep s = .ok m) :
    nextPc (regsAfter s m.1) d = (takenTarget s).getD (d.pc + 4) := by
  obtain ⟨-, -, hidex, -⟩ := steppable_of_consistent hs hrun
  obtain ⟨hop1, hop2⟩ := operands_eq_read_regsAfter hs hrun hd hm
  rw [takenTarget_of_idex hd (hidex d hd), hop1, hop2]
  unfold nextPc
  split <;> rfl

/-- The address that ID/EX goes on to is one where the program may be. -/
theorem goodTarget_takenTarget {s : State} {d : Stage} {x : Executed} (hs : consistent s = true)
    (hrun : s.status = .running) (hd : s.idex = some d) (hx : executed s = .ok x) :
    goodTarget s.params ((takenTarget s).getD (d.pc + 4)) := by
  obtain ⟨htarget, hgood⟩ := executed_target hx
  cases htaken : takenTarget s with
  | some target => exact hgood target (htarget.trans htaken)
  | none =>
    obtain ⟨hp, -⟩ := consistent_iff.1 hs
    obtain ⟨-, -, ⟨hidex, -⟩, -⟩ := pipelineSound_iff.1 (pipelineSound_of_consistent hs hrun)
    obtain ⟨-, hfetch⟩ := latchSound_iff.1 hidex d hd
    obtain ⟨hlt, haligned⟩ := fetchWord_lt hfetch
    exact goodTarget_next hp haligned hlt

/-! ## A completed cycle keeps the relation -/

/-- The instruction that has left ID/EX stands in EX/MEM with what it computes on the registers just before it. -/
theorem exmemTracks_of_idex {s t : State} {d : Stage} {m : Option Stage × Memory} (hs : consistent s = true)
    (h : completes s t) (hd : s.idex = some d) (hm : memoryStep s = .ok m) :
    exmemTracks t (archAt s m d.pc) ((takenTarget s).getD (d.pc + 4)) := by
  obtain ⟨hrun, -⟩ := running_of_completes h
  obtain ⟨-, -, hidex, -⟩ := steppable_of_consistent hs hrun
  obtain ⟨hop1, hop2⟩ := operands_eq_read_regsAfter hs hrun hd hm
  have hnext := nextPc_eq_takenTarget hs hrun hd hm
  obtain ⟨m', e, f, ⟨-, hx, -⟩, rfl⟩ := completes_parts h
  have hexmem := executeStep_values (hidex d hd) ((executed_of_idex hd).symm.trans hx)
  rw [hop1, hop2] at hexmem
  refine ⟨fun hnone => ?bubble, fun e' he' => ?occupied⟩
  case bubble => cases hnone.symm.trans hexmem
  case occupied =>
    obtain rfl := Option.some.inj (he'.symm.trans hexmem)
    exact ⟨rfl, hnext.symm, goodTarget_takenTarget hs hrun hd hx, rfl, rfl⟩

/-- After a cycle with an instruction in ID/EX the front end is on the path that instruction takes: flushed to the target of a taken
branch, held, or one word on (R222, R225, R227). -/
theorem frontTracks_of_idex {s t : State} {d : Stage} {n : Nat} (hs : consistent s = true) (h : completes s t)
    (hfollows : ∀ f, s.ifid = some f → s.pc = f.pc + 4)
    (hskip : skipWords s.params n (d.pc + 4) = some (decodePc s, [])) :
    ∃ es, frontTracks t ((takenTarget s).getD (d.pc + 4)) es ∧ diagWords t.diags = diagWords s.diags ++ es := by
  have hfront := decisionSetsTheFrontEnd s t h
  cases hk : decisionOf s (takenTarget s) with
  | flush target =>
    rw [hk] at hfront
    obtain ⟨hpc, hif, hid, hdiags⟩ := hfront
    rw [decisionOf_flush.1 hk, hdiags]
    refine ⟨[], ⟨fun f hf => ?_, fun _ => ⟨0, ?_⟩, fun d hd => ?_⟩, (List.append_nil _).symm⟩
    · rw [hif] at hf; cases hf
    · rw [decodePc_of_no_ifid hif, hpc]
      rfl
    · rw [hid] at hd; cases hd
  | stall =>
    rw [hk] at hfront
    obtain ⟨hpc, hif, hid, hdiags⟩ := hfront
    obtain ⟨htaken, -⟩ := decisionOf_stall.1 hk
    have hdecode : decodePc t = decodePc s := by unfold decodePc; rw [hif, hpc]
    rw [htaken, hdiags]
    refine ⟨[], ⟨fun f hf => ?_, fun _ => ⟨n, ?_⟩, fun d hd => ?_⟩, (List.append_nil _).symm⟩
    · rw [hpc]
      exact hfollows f (hif.symm.trans hf)
    · rw [completes_params h, hdecode]
      exact hskip
    · rw [hid] at hd; cases hd
  | normal =>
    obtain ⟨hrun, -⟩ := running_of_completes h
    obtain ⟨-, hfetched, -⟩ := pipelineSound_iff.1 (pipelineSound_of_consistent hs hrun)
    obtain ⟨htaken, -⟩ := decisionOf_normal.1 hk
    obtain ⟨es, htracks, hdiags⟩ := frontTracks_of_normal h hfetched hk hfollows hskip
    rw [htaken]
    exact ⟨es, htracks, hdiags⟩

/-- Settles O31: one-at-a-time execution takes the instruction in EX/MEM, which commits, and, where ID/EX is occupied, the words that
are no instruction before that one, which is the next to commit. -/
theorem everyCycleTracksSequentialExecution : Obligations.EveryCycleTracksSequentialExecution := by
  intro s t a hs htracks h
  obtain ⟨hx, hmem, q, ds, hexmem, ⟨hfollows, hbubble, hidex⟩, hdiags⟩ := tracks_iff.1 htracks
  obtain ⟨hrun, -⟩ := running_of_completes h
  obtain ⟨m, hm, hregs, hdmem⟩ : ∃ m, memoryStep s = .ok m ∧ regsAfter s m.1 = writeback t ∧ m.2 = t.dmem := by
    obtain ⟨m, e, f, ⟨hm, -, -⟩, rfl⟩ := completes_parts h
    exact ⟨m, hm, (writeback_completeCycle s m e f).symm, rfl⟩
  cases hd : s.idex with
  | none =>
    obtain ⟨k, hk⟩ := archRun_past_exmem hs hrun hx hmem hexmem hm
    obtain ⟨n, hskip⟩ := hbubble hd
    obtain ⟨-, hfetched, -⟩ := pipelineSound_iff.1 (pipelineSound_of_consistent hs hrun)
    obtain ⟨es, hfront, hdiags'⟩ := frontTracks_of_normal h hfetched (decisionOf_of_no_idex hd) hfollows hskip
    obtain ⟨hempty, -⟩ := executeMovesIdExToExMem s t h
    have hexmem' : exmemTracks t ⟨regsAfter s m.1, q, m.2, a.diags⟩ q :=
      ⟨fun _ => rfl, fun e he => by rw [hempty hd] at he; cases he⟩
    refine ⟨k, _, hk, tracks_iff.2 ⟨hregs, hdmem, q, ds ++ es, hexmem', hfront, ?_⟩⟩
    rw [hdiags', hdiags, List.append_assoc]
  | some d =>
    obtain ⟨n, n', hskip, hskip'⟩ := hidex d hd
    obtain ⟨k, hk⟩ := archRun_skip hs hrun hx hmem hexmem hdiags hskip hm
    obtain ⟨es, hfront, hdiags'⟩ := frontTracks_of_idex hs h hfollows hskip'
    exact ⟨k, _, hk, tracks_iff.2 ⟨hregs, hdmem, _, es, exmemTracks_of_idex hs h hd hm, hfront, hdiags'⟩⟩

/-! ## The end of a run (R232, R264) -/

/-- One-at-a-time execution of a branch on its condition (R190). -/
theorem archExec_of_branchCondition {p : Params} {a : Arch} {d : Stage} {c : Bool}
    (hc : branchCondition d.op (Regs.read a.x d.rs1) (Regs.read a.x d.rs2) = some c) :
    archExec p a d.instr = archBranch p a c d.imm := by
  have hi : d.instr = d.op.instr ⟨d.rd, d.rs1, d.rs2, d.funct3, d.funct7, d.imm⟩ := rfl
  rw [hi]
  cases hop : d.op <;> rw [hop] at hc
  case beq => cases hc; simp only [Op.instr, archExec]; congr 1
  case bne => cases hc; simp only [Op.instr, archExec, bne_eq_decide_ne]
  case blt | bge | bltu | bgeu => cases hc; rfl
  all_goals cases hc

theorem archBranch_bad_target {p : Params} {a : Arch} {imm : Word} (hbad : ¬ goodTarget p (a.pc + imm)) :
    archBranch p a true imm =
      .fault (if (a.pc + imm).toNat % 4 ≠ 0 then .misalignedTarget else .targetRange) a.pc (a.pc + imm) := by
  unfold archBranch
  rw [if_pos rfl]
  dsimp only
  by_cases haligned : (a.pc + imm).toNat % 4 = 0
  · have hbeyond : p.progEnd < (a.pc + imm).toNat := Nat.not_le.1 fun hin => hbad ⟨haligned, hin⟩
    rw [if_neg (not_not.2 haligned), if_pos hbeyond, if_neg (not_not.2 haligned)]
  · rw [if_pos haligned, if_pos haligned]

/-- A decoded word of the program is executed as its instruction. -/
theorem archStep_of_latchSound {p : Params} {a : Arch} {d : Stage} (hdec : decodedStage p.subset d = true)
    (hfetch : fetchWord p d.pc = some d.word) (hpc : a.pc = d.pc) : archStep p a = archExec p a d.instr := by
  obtain ⟨hlt, -⟩ := fetchWord_lt hfetch
  unfold archStep
  rw [hpc, if_neg (Nat.not_le.2 hlt), hfetch]
  dsimp only
  rw [decodedStage_decode hdec]

/-- A taken branch in ID/EX with a bad target raises the same fault when executed whole (R200, R264). -/
theorem archStep_of_bad_target {s : State} {d : Stage} {m : Option Stage × Memory} {target : Word}
    (hs : consistent s = true) (hrun : s.status = .running) (hd : s.idex = some d) (hm : memoryStep s = .ok m)
    (htaken : takenTarget s = some target) (hbad : ¬ goodTarget s.params target) :
    archStep s.params (archAt s m d.pc) =
      .fault (if target.toNat % 4 ≠ 0 then .misalignedTarget else .targetRange) d.pc target := by
  obtain ⟨-, -, ⟨hidex, -⟩, -⟩ := pipelineSound_iff.1 (pipelineSound_of_consistent hs hrun)
  obtain ⟨hdec, hfetch⟩ := latchSound_iff.1 hidex d hd
  obtain ⟨hop1, hop2⟩ := operands_eq_read_regsAfter hs hrun hd hm
  rw [takenTarget_of_idex hd hdec, hop1, hop2] at htaken
  obtain ⟨hc, heq⟩ := Option.ite_none_right_eq_some.1 htaken
  obtain rfl := Option.some.inj heq
  rw [archStep_of_latchSound hdec hfetch rfl, archExec_of_branchCondition hc]
  exact archBranch_bad_target hbad

/-- A finished pipeline stands beside an execution that comes to its end (R232). -/
theorem arch_done_of_finished {s : State} {a : Arch} (hs : consistent s = true) (hrun : s.status = .running)
    (htracks : tracks s a) (hfin : finished s = true) :
    ∃ n b, archRun s.params n a = some b ∧ archStep s.params b = .done ∧
      b.x = s.x ∧ b.dmem = s.dmem ∧ b.diags = diagWords s.diags := by
  obtain ⟨hx, hmem, q, ds, hexmem, ⟨-, hbubble, -⟩, hdiags⟩ := tracks_iff.1 htracks
  obtain ⟨hend, hif, hid, hex, hwb⟩ := finished_iff.1 hfin
  obtain ⟨n, hskip⟩ := hbubble hid
  rw [decodePc_of_no_ifid hif] at hskip
  obtain ⟨k, hk⟩ := archRun_skip hs hrun hx hmem hexmem hdiags hskip (memoryStep_none hex)
  refine ⟨k, _, hk, ?ended, ?registers, rfl, rfl⟩
  case ended => unfold archStep; exact if_pos hend
  case registers => exact (regsAfter_none s).trans (writeback_of_no_memwb hwb)

/-- A cycle that faults stands beside an execution that comes to the same fault: that of the instruction in EX/MEM, or else that of the
branch in ID/EX (R264). -/
theorem arch_fault_of_step {s t : State} {a : Arch} {kind : FaultKind} {pc info : Word} (hs : consistent s = true)
    (hrun : s.status = .running) (htracks : tracks s a) (hstep : step s = .next t) (ht : t.status = .fault kind pc info) :
    ∃ n b, archRun s.params n a = some b ∧ archStep s.params b = .fault kind pc info := by
  obtain ⟨hx, hmem, q, ds, hexmem, ⟨-, -, hidex⟩, hdiags⟩ := tracks_iff.1 htracks
  obtain ⟨hfinal, -⟩ | ⟨-, -, ⟨-, rfl⟩ | ⟨-, -, rfl⟩ | ⟨-, -, hcycle⟩⟩ := step_cases hstep
  · exact absurd hrun hfinal
  · cases ht
  · cases ht
  obtain ⟨-, ⟨k, pc', info', hm, rfl⟩ | ⟨m, k, pc', info', hm, hexec, rfl⟩ | ⟨m, x, f, -, -, -, rfl⟩⟩ := cycle_next hcycle
  · cases ht
    obtain ⟨e, he, -⟩ := memoryStep_error.1 hm
    obtain ⟨-, hfaults⟩ := commitsTo_of_exmemTracks hs hrun hmem hexmem he
    exact ⟨0, a, rfl, hfaults kind pc info hm⟩
  · cases ht
    obtain ⟨d, target, hd, htaken, hbad, hstop⟩ := executed_error hexec
    cases hstop
    obtain ⟨n, -, hskip, -⟩ := hidex d hd
    obtain ⟨k, hk⟩ := archRun_skip hs hrun hx hmem hexmem hdiags hskip hm
    exact ⟨k, _, hk, archStep_of_bad_target hs hrun hd hm htaken hbad⟩
  · cases hrun.symm.trans ht

/-- Settles O32: its two halves are the end of execution and its fault. -/
theorem trackedRunsEndTogether : Obligations.TrackedRunsEndTogether := by
  intro s a hs hrun htracks
  exact ⟨arch_done_of_finished hs hrun htracks, fun t kind pc info => arch_fault_of_step hs hrun htracks⟩

/-! ## Every run (R285) -/

/-- The end `t` of a run is that of one-at-a-time execution from `a`: the same registers, data memory and diagnostics after a halt, and
the same fault. -/
def endsAs (p : Params) (a : Arch) (t : State) : Prop :=
  (t.status = .halted → ∃ n u, archRun p n a = some u ∧ archStep p u = .done ∧
    u.x = t.x ∧ u.dmem = t.dmem ∧ u.diags = diagWords t.diags) ∧
  ∀ kind pc info, t.status = .fault kind pc info → ∃ n u, archRun p n a = some u ∧ archStep p u = .fault kind pc info

/-- What execution comes to from a later state it comes to from the earlier one. -/
theorem endsAs_of_archRun {p : Params} {k : Nat} {a b : Arch} {t : State} (hab : archRun p k a = some b)
    (h : endsAs p b t) : endsAs p a t := by
  obtain ⟨hhalts, hfaults⟩ := h
  refine ⟨fun ht => ?halts, fun kind pc info ht => ?faults⟩
  case halts =>
    obtain ⟨n, u, hrun, hend⟩ := hhalts ht
    exact ⟨k + n, u, archRun_add hab hrun, hend⟩
  case faults =>
    obtain ⟨n, u, hrun, hend⟩ := hfaults kind pc info ht
    exact ⟨k + n, u, archRun_add hab hrun, hend⟩

/-- A run from a tracked state ends as the execution beside it: completed cycles keep the relation, and the step that stops the run is
one of its two ends or the cycle cap. -/
theorem runTo_endsAs {k : Nat} {s t : State} {a : Arch} (hs : consistent s = true) (hrun : s.status = .running)
    (htracks : tracks s a) (h : runTo k s = some t) : endsAs s.params a t := by
  induction k generalizing s a with
  | zero =>
    cases h
    refine ⟨fun ht => ?_, fun kind pc info ht => ?_⟩
    · cases hrun.symm.trans ht
    · cases hrun.symm.trans ht
  | succ k ih =>
    obtain ⟨u, hstep⟩ := consistentStatesAlwaysStep s hs
    unfold runTo at h
    rw [hstep] at h
    dsimp only at h
    obtain ⟨hdone, hfaults⟩ := trackedRunsEndTogether s a hs hrun htracks
    obtain ⟨hfinal, -⟩ | ⟨hfin, rfl⟩ | ⟨-, rfl⟩ | ⟨-, hfault, -⟩ | hcompletes := step_outcomes hstep
    · exact absurd hrun hfinal
    · obtain rfl := runTo_of_final (by nofun) h
      exact ⟨fun _ => hdone hfin, nofun⟩
    · obtain rfl := runTo_of_final (by nofun) h
      exact ⟨nofun, nofun⟩
    · have hfinal : u.status ≠ .running := fun hrun' => by
        rw [not_faulted_of_running hrun'] at hfault
        cases hfault
      obtain rfl := runTo_of_final hfinal h
      exact ⟨fun ht => by simp [faulted, ht] at hfault, fun kind pc info => hfaults _ kind pc info hstep⟩
    · obtain ⟨n, b, hab, htracks'⟩ := everyCycleTracksSequentialExecution s u a hs htracks hcompletes
      have hs' := everyStepKeepsConsistency s u hs hstep
      have hparams := completes_params hcompletes
      obtain ⟨-, -, hrun'⟩ := hcompletes
      have hends := ih hs' hrun' htracks' h
      rw [hparams] at hends
      exact endsAs_of_archRun hab hends

/-- Settles O29: the launch state is consistent and tracks the start of the execution. -/
theorem pipelineAgreesWithSequentialExecution : Obligations.PipelineAgreesWithSequentialExecution := by
  intro p k t hp h
  exact runTo_endsAs (launchStatesAreConsistent p hp) rfl (launchTracksSequentialExecution p hp) h

end Sys2Proof.Machine
end
